-- ==== Sys2Proof/Word.lean ====
section
/-! DEFINITION. The words the machine handles: 32-bit register and operand words, the 4-bit identity
fields of a command header, and the 96-bit command itself (spec 30_encoding.md R80, R91). -/

namespace Sys2Proof

/-- A register word or an operand word: 32 bits (R30, R65, R80). -/
abbrev Word := BitVec 32

/-- A timer identity, the number n of "TIMn", as the header field `tmr` holds it: 0..15 (R80, R81). -/
abbrev TimerId := BitVec 4

/-- A channel number as the header field `ch` holds it: 0..15, of which 1..4 exist (R80, R81). -/
abbrev ChanId := BitVec 4

/-- The place of a channel in its timer: channel `c` of the spec stands at index `c - 1` (R6). -/
abbrev ChanIdx := Fin 4

/-- One command word triple `(w0, A, B)`, format CMD96 (R80). -/
structure Cmd where
  /-- The header. -/
  w0 : Word
  /-- The first operand word. -/
  a : Word
  /-- The second operand word. -/
  b : Word
  deriving DecidableEq, Repr

end Sys2Proof
end

