-- ==== Sys2Proof/Config.lean ====
section
/-! DEFINITION. What an implementation fixes (the parameters of spec 00_scope.md R8) and the free
values. A parameter is PLAIN DATA that a state carries and no step writes, so a statement about every
state holds for every value of it. A free value is an opaque constant applied to a counter. -/

namespace Sys2Proof

/-- The counter width `W(t)` of a timer: 16 or 32 bits (R7). -/
inductive Width where
  | w16
  | w32
  deriving DecidableEq, Repr

/-- The number of bits of a width. -/
def Width.bits : Width → Nat
  | .w16 => 16
  | .w32 => 32

/-- What R8 leaves open of one recognised timer: its width, and whether `ARR_RESET(t)` is
`2^W(t) - 1` (true) or 0 (false). -/
structure TimerParams where
  /-- `W(t)`. -/
  width : Width
  /-- `ARR_RESET(t)` is all ones. -/
  arrMax : Bool
  deriving DecidableEq, Repr

/-- The set `TIMERS` with the parameters of its members: entry `t` is `some` exactly when the number
`t` is a recognised timer identity (R8, R22). -/
abbrev TimerSet := Vector (Option TimerParams) 16

/-- The default `TIMERS` = {2, 3, 4, 5} with `W(2) = W(5) = 32` and `W(3) = W(4) = 16` (R8), and
`ARR_RESET = 0`, the convention of spec 95_test_vectors.md. DESIGN CHOICE (notes/assumptions/1.md). -/
def TimerSet.default : TimerSet :=
  #v[none, none, some ⟨.w32, false⟩, some ⟨.w16, false⟩, some ⟨.w16, false⟩, some ⟨.w32, false⟩,
     none, none, none, none, none, none, none, none, none, none]

/-- The scalar parameters of R8, and one more of the model's own. -/
structure Params where
  /-- `ECHO_TIMER`. -/
  echoTimer : TimerId
  /-- `ECHO_CH`. -/
  echoCh : ChanId
  /-- `TICK_US`, microseconds per counter tick of the echo timer. -/
  tickUs : Nat
  /-- `TRIG_TICKS`, the tick count the trigger busy-wait waits for. -/
  trigTicks : Nat
  /-- `ALERT_ENABLED`. -/
  alertEnabled : Bool
  /-- `ALERT_TIMER`. -/
  alertTimer : TimerId
  /-- `ALERT_CH`; no rule reads it (R290 names it for the boot program). -/
  alertCh : ChanId
  /-- `ALERT_THRESHOLD_CM`. -/
  alertThresholdCm : Nat
  /-- `F_CLK` in Hz; no rule depends on it. -/
  fClk : Nat
  /-- `BASE(t)`, entry `t`, the base address of the timer's register words (R60); no rule depends on it. -/
  base : Vector Word 16
  deriving DecidableEq, Repr

/-- The parameter values `State.reset` carries: those of the vectors of spec 95_test_vectors.md, and the base
addresses R60 gives the default `TIMERS` (0 for the numbers that are not in it). DESIGN CHOICE
(notes/assumptions/1.md): the spec leaves them OPEN. -/
def Params.default : Params where
  echoTimer := 3
  echoCh := 1
  tickUs := 10
  trigTicks := 1
  alertEnabled := false
  alertTimer := 4
  alertCh := 2
  alertThresholdCm := 100
  fClk := 100000
  base := #v[0, 0, 0x40000000, 0x40000400, 0x40000800, 0x40000C00, 0, 0, 0, 0, 0, 0, 0, 0, 0, 0]

/-- The bounds R6 and R8 put on the parameters: `TIMERS` holds numbers 1..15, `ECHO_TIMER` is a
member, `ECHO_CH` is 1..4, `TICK_US` is positive and `TRIG_TICKS * TICK_US >= 10`. -/
def Params.wf (p : Params) (ts : TimerSet) : Bool :=
  ts[0].isNone && ts[p.echoTimer.toNat].isSome &&
    decide (1 ≤ p.echoCh.toNat) && decide (p.echoCh.toNat ≤ 4) &&
    decide (0 < p.tickUs) && decide (10 ≤ p.trigTicks * p.tickUs)

/-- `SETTLE_MS`, the settle delay before each trigger (R8). -/
def settleMs : Nat := 60

/-- `DIST_DIV`, microseconds of echo per centimetre (R8). -/
def distDiv : Word := 58

/-- `SENTINEL`, the result of `readCapture` on an invalid identity: the pattern of -1 (R8, R151). -/
def sentinel : Word := 0xFFFFFFFF

/-- `BASE(t)` under the given parameters; no rule depends on it (R60). -/
def baseAddress (p : Params) (t : TimerId) : Word := p.base[t.toNat]'t.isLt

/-- The interrupt number of a default timer in the part's NVIC; no rule depends on it (R259). -/
def nvicNumber (t : TimerId) : Option Nat :=
  match t.toNat with
  | 2 => some 28
  | 3 => some 29
  | 4 => some 30
  | 5 => some 50
  | _ => none

/-- The steps a scheduler may pick (R14): the main context's step, an interrupt entry, an input-clock
cycle, and the environment's steps of R170, R172 and R207. -/
inductive Agent where
  /-- `Main`: the main context executes or retries its current command. -/
  | main
  /-- `Irq(t)`. -/
  | irq (t : TimerId)
  /-- `Clk(t)`. -/
  | clk (t : TimerId)
  /-- `SetInput(t, c, v)`. -/
  | setInput (t : TimerId) (c : ChanId) (v : Bool)
  /-- `RaceGhost(t, c)`. -/
  | raceGhost (t : TimerId) (c : ChanId)
  /-- `DelayDone`. -/
  | delayDone
  deriving DecidableEq, Repr, Inhabited

/-- Free value: the outcome of the model's n-th draw in {0, 1} (R170, R172, entry I-RACE of spec
93_implementation_defined.md). Nothing constrains it (notes/assumptions/3.md). -/
opaque Config.freeDraw : Nat → Bool

/-- Free value: the scheduler's n-th own pick, taken where no pick is queued (R14, entry I-ORDER of
spec 93_implementation_defined.md). Nothing constrains it (notes/assumptions/4.md). -/
opaque Config.freePick : Nat → Agent

end Sys2Proof
end

