-- ==== Sys2Proof/Syntax.lean ====
section
/-! DEFINITION. The commands: the enumerations of spec 00_scope.md R17 and one constructor of `Instr`
per row of spec/opcode_table.json (30_encoding.md R84). Codes are turned into constructors at decode;
an identity field (`tmr`, `ch`) stays the number it is, since every number is a legal operand (R81). -/

namespace Sys2Proof

/-- `Direction` = Up | Down (R17, R85). -/
inductive Direction where
  | up
  | down
  deriving DecidableEq, Repr

/-- `OutputMode`, in the source's order (R17, R86). -/
inductive OutputMode where
  | frozen
  | active
  | inactive
  | toggle
  | forceInactive
  | forceActive
  | pwm1
  | pwm2
  | none
  deriving DecidableEq, Repr

/-- `Polarity` = RisingEdge | FallingEdge | BothEdges (R17, R87). -/
inductive Polarity where
  | rising
  | falling
  | both
  deriving DecidableEq, Repr

/-- The commands of R84. `bind` is the operand word B of a pin binding (R82). -/
inductive Instr where
  /-- `TCFG`: prescaler A and period B, each read as an int32 (R100). -/
  | tcfg (tmr : TimerId) (dir : Direction) (psc period : Word)
  /-- `TEN` (R101). -/
  | ten (tmr : TimerId)
  /-- `TDIS` (R102). -/
  | tdis (tmr : TimerId)
  /-- `TUG` (R104). -/
  | tug (tmr : TimerId)
  /-- `TRDC` (R106). -/
  | trdc (tmr : TimerId)
  /-- `TDLY` (R108). -/
  | tdly (tmr : TimerId)
  /-- `CCAP` (R140). -/
  | ccap (tmr : TimerId) (ch : ChanId) (bind : Word)
  /-- `CCMP` (R142). -/
  | ccmp (tmr : TimerId) (ch : ChanId) (mode : OutputMode) (bind : Word)
  /-- `CPOL` (R144). -/
  | cpol (tmr : TimerId) (ch : ChanId) (pol : Polarity)
  /-- `CPWM` (R146). -/
  | cpwm (tmr : TimerId) (ch : ChanId) (mode : OutputMode) (pol : Polarity) (duty bind : Word)
  /-- `CDUTY` (R148). -/
  | cduty (tmr : TimerId) (ch : ChanId) (duty : Word)
  /-- `CWAIT` (R150). -/
  | cwait (tmr : TimerId) (ch : ChanId)
  /-- `CRD` (R151). -/
  | crd (tmr : TimerId) (ch : ChanId)
  /-- `CIEN` (R154). -/
  | cien (tmr : TimerId) (ch : ChanId)
  /-- `CIDIS` (R155). -/
  | cidis (tmr : TimerId) (ch : ChanId)
  /-- `CCLR` (R156). -/
  | cclr (tmr : TimerId) (ch : ChanId)
  /-- `RREG` at byte offset A (R152). -/
  | rreg (tmr : TimerId) (off : Word)
  /-- `RPOLL` (R205). -/
  | rpoll
  deriving DecidableEq, Repr

end Sys2Proof
end

