-- ==== Sys2Proof/WellFormed.lean ====
section
/-! DEFINITION. The check that a term of `Instr` is a command the encoding admits. Timer and channel
numbers, prescaler, period, duty and offset are unrestricted (R81, R82), and the reserved mode and
polarity codes have no constructor; what is left to check is the unused half of a pin binding. -/

namespace Sys2Proof

/-- Bits 31:16 of a pin binding word must be 0 (R82, R92). -/
def bindOk (b : Word) : Bool := b.extractLsb' 16 16 == 0

/-- A well-formed command: one some word triple encodes (R82, R92). -/
def Instr.wf : Instr → Bool
  | .tcfg _ _ _ _ => true
  | .ten _ => true
  | .tdis _ => true
  | .tug _ => true
  | .trdc _ => true
  | .tdly _ => true
  | .ccap _ _ b => bindOk b
  | .ccmp _ _ _ b => bindOk b
  | .cpol _ _ _ => true
  | .cpwm _ _ _ _ _ b => bindOk b
  | .cduty _ _ _ => true
  | .cwait _ _ => true
  | .crd _ _ => true
  | .cien _ _ => true
  | .cidis _ _ => true
  | .cclr _ _ => true
  | .rreg _ _ => true
  | .rpoll => true

end Sys2Proof
end

