-- ==== Sys2Proof/Decode.lean ====
section
/-! DEFINITION. The decoder of spec 30_encoding.md R92, total on any three words and refusing by name,
and after it the encoder, written from the same tables (R80, R84 to R87, R89, R93). -/

namespace Sys2Proof

/-- The names under which the decoder refuses a word triple (R92). -/
inductive DecodeRefusal where
  | reservedOpcode
  | nonZeroReserved
  | nonZeroOperand
  | reservedOutputMode
  | reservedPolarity
  deriving DecidableEq, Repr

/-- The opcodes of R84, by mnemonic. -/
inductive Op where
  | tcfg | ten | tdis | tug | trdc | tdly
  | ccap | ccmp | cpol | cpwm | cduty | cwait | crd | cien | cidis | cclr | rreg
  | rpoll
  deriving DecidableEq, Repr

/-! ### Header fields (R80) -/

/-- `op`, bits 31:24. -/
def opField (w : Word) : BitVec 8 := w.extractLsb' 24 8

/-- `tmr`, bits 23:20. -/
def tmrField (w : Word) : TimerId := w.extractLsb' 20 4

/-- `ch`, bits 19:16. -/
def chField (w : Word) : ChanId := w.extractLsb' 16 4

/-- `sel[0]`, the direction code (R85). -/
def dirField (w : Word) : BitVec 1 := w.extractLsb' 8 1

/-- `sel[3:0]`, the output-mode code (R86). -/
def modeField (w : Word) : BitVec 4 := w.extractLsb' 8 4

/-- `sel[5:4]`, the polarity code (R87). -/
def polField (w : Word) : BitVec 2 := w.extractLsb' 12 2

/-! ### Selector codes (R85, R86, R87) -/

/-- Direction code: 0 Up, 1 Down (R85). -/
def dirOf (k : BitVec 1) : Direction := if k = 0 then .up else .down

/-- The code of a direction (R85). -/
def dirCode : Direction → BitVec 1
  | .up => 0
  | .down => 1

/-- The output mode a code names; 9..15 are reserved (R86). -/
def modeOf (k : BitVec 4) : Option OutputMode :=
  match k.toNat with
  | 0 => some .frozen
  | 1 => some .active
  | 2 => some .inactive
  | 3 => some .toggle
  | 4 => some .forceInactive
  | 5 => some .forceActive
  | 6 => some .pwm1
  | 7 => some .pwm2
  | 8 => some .none
  | _ => none

/-- The code of an output mode (R86). -/
def modeCode : OutputMode → BitVec 4
  | .frozen => 0
  | .active => 1
  | .inactive => 2
  | .toggle => 3
  | .forceInactive => 4
  | .forceActive => 5
  | .pwm1 => 6
  | .pwm2 => 7
  | .none => 8

/-- The polarity a code names; 0b10 is reserved (R87). -/
def polOf (k : BitVec 2) : Option Polarity :=
  match k.toNat with
  | 0 => some .rising
  | 1 => some .falling
  | 3 => some .both
  | _ => none

/-- The code of a polarity (R87). -/
def polCode : Polarity → BitVec 2
  | .rising => 0b00
  | .falling => 0b01
  | .both => 0b11

/-! ### The opcode map (R84, R89, R90) -/

/-- The opcode of a mnemonic (R84). -/
def Op.code : Op → BitVec 8
  | .tcfg => 0x01
  | .ten => 0x02
  | .tdis => 0x03
  | .tug => 0x04
  | .trdc => 0x05
  | .tdly => 0x06
  | .ccap => 0x10
  | .ccmp => 0x11
  | .cpol => 0x12
  | .cpwm => 0x13
  | .cduty => 0x14
  | .cwait => 0x15
  | .crd => 0x16
  | .cien => 0x17
  | .cidis => 0x18
  | .cclr => 0x19
  | .rreg => 0x1A
  | .rpoll => 0x20

/-- The mnemonic an opcode names; every other value is reserved (R84, R90). -/
def opOf (k : BitVec 8) : Option Op :=
  match k.toNat with
  | 0x01 => some .tcfg
  | 0x02 => some .ten
  | 0x03 => some .tdis
  | 0x04 => some .tug
  | 0x05 => some .trdc
  | 0x06 => some .tdly
  | 0x10 => some .ccap
  | 0x11 => some .ccmp
  | 0x12 => some .cpol
  | 0x13 => some .cpwm
  | 0x14 => some .cduty
  | 0x15 => some .cwait
  | 0x16 => some .crd
  | 0x17 => some .cien
  | 0x18 => some .cidis
  | 0x19 => some .cclr
  | 0x1A => some .rreg
  | 0x20 => some .rpoll
  | _ => none

/-- The header mask of R89: its set bits must equal those of the match word. -/
def Op.mask : Op → Word
  | .tcfg => 0xFF0FFEFF
  | .ten | .tdis | .tug | .trdc | .tdly | .rreg => 0xFF0FFFFF
  | .ccap | .cduty | .cwait | .crd | .cien | .cidis | .cclr => 0xFF00FFFF
  | .ccmp => 0xFF00F0FF
  | .cpol => 0xFF00CFFF
  | .cpwm => 0xFF00C0FF
  | .rpoll => 0xFFFFFFFF

/-- The header match word `op << 24` of R89. -/
def Op.matchWord (o : Op) : Word := o.code ++ 0#24

/-- The commands that use operand word A (R84). -/
def Op.usesA : Op → Bool
  | .tcfg | .cpwm | .cduty | .rreg => true
  | .ten | .tdis | .tug | .trdc | .tdly | .ccap | .ccmp | .cpol | .cwait | .crd | .cien | .cidis
  | .cclr | .rpoll => false

/-- The commands that use operand word B (R84). -/
def Op.usesB : Op → Bool
  | .tcfg | .ccap | .ccmp | .cpwm => true
  | .ten | .tdis | .tug | .trdc | .tdly | .cpol | .cduty | .cwait | .crd | .cien | .cidis | .cclr
  | .rreg | .rpoll => false

/-- A word the command does not use is not 0 (R81, R92). -/
def Op.badOperand (o : Op) (c : Cmd) : Bool :=
  (!o.usesA && c.a != 0) || (!o.usesB && c.b != 0)

/-! ### The decoder (R92) -/

/-- Go on with the output mode of the header, or refuse a reserved code. -/
def readMode (c : Cmd) (k : OutputMode → Except DecodeRefusal Instr) : Except DecodeRefusal Instr :=
  match modeOf (modeField c.w0) with
  | some m => k m
  | none => .error .reservedOutputMode

/-- Go on with the polarity of the header, or refuse the reserved code. -/
def readPol (c : Cmd) (k : Polarity → Except DecodeRefusal Instr) : Except DecodeRefusal Instr :=
  match polOf (polField c.w0) with
  | some p => k p
  | none => .error .reservedPolarity

/-- Answer the command if its pin binding word is legal, or refuse it. -/
def readBind (c : Cmd) (i : Instr) : Except DecodeRefusal Instr :=
  if bindOk c.b then .ok i else .error .nonZeroOperand

/-- The command of a header whose opcode, mask and unused operands have been checked. -/
def Op.build (o : Op) (c : Cmd) : Except DecodeRefusal Instr :=
  let t := tmrField c.w0
  let n := chField c.w0
  match o with
  | .tcfg => .ok (.tcfg t (dirOf (dirField c.w0)) c.a c.b)
  | .ten => .ok (.ten t)
  | .tdis => .ok (.tdis t)
  | .tug => .ok (.tug t)
  | .trdc => .ok (.trdc t)
  | .tdly => .ok (.tdly t)
  | .ccap => readBind c (.ccap t n c.b)
  | .ccmp => readMode c fun m => readBind c (.ccmp t n m c.b)
  | .cpol => readPol c fun p => .ok (.cpol t n p)
  | .cpwm => readMode c fun m => readPol c fun p => readBind c (.cpwm t n m p c.a c.b)
  | .cduty => .ok (.cduty t n c.a)
  | .cwait => .ok (.cwait t n)
  | .crd => .ok (.crd t n)
  | .cien => .ok (.cien t n)
  | .cidis => .ok (.cidis t n)
  | .cclr => .ok (.cclr t n)
  | .rreg => .ok (.rreg t c.a)
  | .rpoll => .ok .rpoll

/-- The decoder, its checks in the order of R92. -/
def decode (c : Cmd) : Except DecodeRefusal Instr :=
  match opOf (opField c.w0) with
  | none => .error .reservedOpcode
  | some o =>
    if c.w0 &&& o.mask ≠ o.matchWord then .error .nonZeroReserved
    else if o.badOperand c then .error .nonZeroOperand
    else o.build c

/-- The word triple whose 96 bits are `w`: `w0` is bits 31:0, `A` bits 63:32 and `B` bits 95:64, the
numbering of spec/opcode_table.json. -/
def cmdOfNat (w : Nat) : Cmd :=
  ⟨BitVec.ofNat 32 w, BitVec.ofNat 32 (w / 2 ^ 32), BitVec.ofNat 32 (w / 2 ^ 64)⟩

/-- The command the decoder reads from the low `nbits` bits of `w`, every bit above them 0. -/
def decodeTableWord (nbits w : Nat) : Option Instr :=
  match decode (cmdOfNat (w % 2 ^ nbits)) with
  | .ok i => some i
  | .error _ => none

/-! ### The encoder (R80, R93) -/

/-- The header word of R80; `rsv` is 0. -/
def header (op : BitVec 8) (t : TimerId) (n : ChanId) (sel : BitVec 8) : Word :=
  op ++ t ++ n ++ sel ++ 0#8

/-- `sel` with a direction code in bit 0. -/
def selDir (d : Direction) : BitVec 8 := 0#7 ++ dirCode d

/-- `sel` with an output-mode code in bits 3:0 and a polarity code in bits 5:4. -/
def selModePol (m : BitVec 4) (p : BitVec 2) : BitVec 8 := 0#2 ++ p ++ m

/-- The word triple of a command (R93). -/
def encode : Instr → Cmd
  | .tcfg t d p q => ⟨header Op.tcfg.code t 0 (selDir d), p, q⟩
  | .ten t => ⟨header Op.ten.code t 0 0, 0, 0⟩
  | .tdis t => ⟨header Op.tdis.code t 0 0, 0, 0⟩
  | .tug t => ⟨header Op.tug.code t 0 0, 0, 0⟩
  | .trdc t => ⟨header Op.trdc.code t 0 0, 0, 0⟩
  | .tdly t => ⟨header Op.tdly.code t 0 0, 0, 0⟩
  | .ccap t n b => ⟨header Op.ccap.code t n 0, 0, b⟩
  | .ccmp t n m b => ⟨header Op.ccmp.code t n (selModePol (modeCode m) 0), 0, b⟩
  | .cpol t n p => ⟨header Op.cpol.code t n (selModePol 0 (polCode p)), 0, 0⟩
  | .cpwm t n m p d b => ⟨header Op.cpwm.code t n (selModePol (modeCode m) (polCode p)), d, b⟩
  | .cduty t n d => ⟨header Op.cduty.code t n 0, d, 0⟩
  | .cwait t n => ⟨header Op.cwait.code t n 0, 0, 0⟩
  | .crd t n => ⟨header Op.crd.code t n 0, 0, 0⟩
  | .cien t n => ⟨header Op.cien.code t n 0, 0, 0⟩
  | .cidis t n => ⟨header Op.cidis.code t n 0, 0, 0⟩
  | .cclr t n => ⟨header Op.cclr.code t n 0, 0, 0⟩
  | .rreg t off => ⟨header Op.rreg.code t 0 0, off, 0⟩
  | .rpoll => ⟨header Op.rpoll.code 0 0 0, 0, 0⟩

end Sys2Proof
end

