-- ==== Sys2Proof/Machine/State.lean ====
section
/-! DEFINITION. The machine's state: every field of spec 10_state.md R23 to R26, the parameters and the
main program as plain data, and the model's own queue of scheduler picks; the stops; reset (R281). -/

namespace Sys2Proof.Machine

/-- State of one channel (R24). A `W`-bit register is held in 32 bits and stays below `2^W`
(R27(a), `Timer.wf`). -/
structure Channel where
  /-- Direction select: 0b00 output compare, 0b01 input capture. -/
  ccs : BitVec 2
  /-- Capture/compare enable. -/
  cce : Bool
  /-- Polarity bit. -/
  ccp : Bool
  /-- Second polarity bit. -/
  ccnp : Bool
  /-- Output-compare sub-mode (R86). -/
  ocm : BitVec 3
  /-- Compare-register preload enable. -/
  ocpe : Bool
  /-- Channel interrupt enable. -/
  ccie : Bool
  /-- Capture/compare interrupt flag. -/
  ccif : Bool
  /-- Capture/compare register (`W` bits). -/
  ccr : Word
  /-- Active compare value (`W` bits). -/
  ccrSh : Word
  /-- Output reference level. -/
  ocref : Bool
  /-- Present level of the input pin. -/
  tin : Bool
  /-- A polarity write has not yet passed an input-clock cycle. -/
  polrace : Bool
  deriving DecidableEq, Repr

/-- State of one recognised timer (R23), with its four channels (R22). -/
structure Timer where
  /-- The parameter `W(t)` (R7, R8); no step writes it. -/
  width : Width
  /-- Bus clock enabled. -/
  clkEn : Bool
  /-- Run bit. -/
  cen : Bool
  /-- Count direction. -/
  dir : Direction
  /-- Auto-reload preload enable. -/
  arpe : Bool
  /-- Prescaler register as programmed. -/
  psc : BitVec 16
  /-- Active prescaler. -/
  pscSh : BitVec 16
  /-- Prescaler sub-counter. -/
  pscCnt : BitVec 16
  /-- Auto-reload register as programmed (`W` bits). -/
  arr : Word
  /-- Active auto-reload value (`W` bits). -/
  arrSh : Word
  /-- The counter (`W` bits). -/
  cnt : Word
  /-- Update-event flag. -/
  uif : Bool
  /-- Interrupt-controller enable of the timer's line. -/
  irqEn : Bool
  /-- Interrupt-controller pending latch of the timer's line. -/
  irqPend : Bool
  /-- Channels 1 to 4, at indices 0 to 3. -/
  ch : Vector Channel 4
  deriving DecidableEq, Repr

/-- The sequencer's four states (R17, R25). -/
inductive SeqState where
  | triggerHigh
  | echoRising
  | echoFalling
  | measurement
  deriving DecidableEq, Repr

/-- The phases within TriggerHigh (R25, R206). -/
inductive Phase where
  | settleReq
  | settleWait
  | resync
  | trigHigh
  | pulseWait
  | trigLow
  | irqEnable
  | advance
  deriving DecidableEq, Repr

/-- State of the ranging sequencer (R25). -/
structure Seq where
  /-- The sequencer's state. -/
  state : SeqState
  /-- The phase within TriggerHigh. -/
  ph : Phase
  /-- An external settle delay is running. -/
  delayBusy : Bool
  /-- `risingCount`. -/
  rising : Word
  /-- `fallingCount`. -/
  falling : Word
  /-- `distanceCm`. -/
  dist : Word
  /-- Level of the trigger output. -/
  trig : Bool
  deriving DecidableEq, Repr

/-- The context the CPU is in (R26, R257). -/
inductive Mode where
  | main
  | handler
  deriving DecidableEq, Repr

/-- The two lists of the main program (R45). -/
inductive Sect where
  | boot
  | loop
  deriving DecidableEq, Repr

/-- The main context's command pointer (R45). -/
structure Pc where
  /-- The list it points into. -/
  sect : Sect
  /-- The place in that list. -/
  idx : Nat
  deriving DecidableEq, Repr

/-- The reasons of a model fault (R241). -/
inductive FaultReason where
  | blockingInHandler
  | unknownTimer
  | invalidChannel
  | badRegisterOffset
  | unhandledInterrupt
  deriving DecidableEq, Repr

/-- The events of the observation trace (R13, R15). -/
inductive Event where
  /-- `PinBind(t, c, port, pin)` (R140). -/
  | pinBind (t : TimerId) (c : ChanId) (port pin : BitVec 8)
  /-- `SettleDelay(ms)` (R206). -/
  | settleDelay (ms : Nat)
  /-- `Trigger(level)` (R206). -/
  | trigger (level : Bool)
  /-- `Report(dist)` (R210). -/
  | report (dist : Word)
  deriving DecidableEq, Repr

/-- Execution-context state (R26). -/
structure Ctx where
  /-- Main or Handler. -/
  mode : Mode
  /-- The main context's command pointer. -/
  pc : Pc
  /-- The values the read commands returned, oldest first; `readCapture` returns an int32 (R65). -/
  results : List Int
  /-- The emitted events, oldest first. -/
  trace : List Event
  /-- The recorded faults, oldest first, each with the command pointer it was raised at (R241). -/
  faults : List (FaultReason × Pc)
  /-- The decoder refused a command word (R92). -/
  refused : Bool
  deriving DecidableEq, Repr

/-- Why a step answers no next state. Spec 60_exceptions.md R241 records a fault in `Ctx.faults`, which
is a next state; from then on no agent has a step. -/
inductive Fault where
  /-- Raised by `step` alone, in a state whose `Ctx.faults` is not empty; `r` is the oldest recorded
  reason. Safe: the spec says no agent has a step there (R241). -/
  | halted (r : FaultReason)
  deriving DecidableEq, Repr

/-- Why an instruction is given no meaning. A word the decoder refuses is NOT one of these: R92 gives it
an effect, `Ctx.refused`. -/
inductive Refusal where
  /-- Raised by an arm of `exec` whose instruction has no meaning yet; no arm is one. Safe: the machine
  stops where the hardware goes on. -/
  | notModelled (mnemonic : String)
  deriving DecidableEq, Repr

/-- The state of the whole block. `cfg`, `boot` and `loop` are parameters of the model (R8, R45) carried
as data; `sched`, `picks` and `draws` are the model's own (notes/assumptions/3.md, 4.md). -/
structure State where
  /-- The parameters of R8; no step writes them. -/
  cfg : Params
  /-- The boot list of the main program; no step writes it (R72). -/
  boot : List Cmd
  /-- The loop list of the main program; no step writes it (R72). -/
  loop : List Cmd
  /-- The timers: entry `t` is `some` exactly when `t` is in `TIMERS` (R22). -/
  tm : Vector (Option Timer) 16
  /-- The ranging sequencer. -/
  seq : Seq
  /-- The execution contexts. -/
  ctx : Ctx
  /-- The scheduler's queued picks, the next one first: the model's own input queue. -/
  sched : List Agent
  /-- How many picks were taken with nothing queued: the model's own counter. -/
  picks : Nat
  /-- How many free draws were taken: the model's own counter. -/
  draws : Nat
  deriving DecidableEq, Repr

/-- A channel after reset; its pin level is a draw, so it is an argument (R24, R281). -/
def Channel.reset (tin : Bool) : Channel where
  ccs := 0
  cce := false
  ccp := false
  ccnp := false
  ocm := 0
  ocpe := false
  ccie := false
  ccif := false
  ccr := 0
  ccrSh := 0
  ocref := false
  tin := tin
  polrace := false

/-- `ARR_RESET(t)`: 0 or `2^W(t) - 1` (R8). -/
def arrReset (p : TimerParams) : Word :=
  if p.arrMax then (match p.width with | .w16 => 0x0000FFFF | .w32 => 0xFFFFFFFF) else 0

/-- A timer after reset (R23, R281). -/
def Timer.reset (p : TimerParams) (tin : Vector Bool 4) : Timer where
  width := p.width
  clkEn := false
  cen := false
  dir := .up
  arpe := false
  psc := 0
  pscSh := 0
  pscCnt := 0
  arr := arrReset p
  arrSh := arrReset p
  cnt := 0
  uif := false
  irqEn := false
  irqPend := false
  ch := Vector.ofFn fun i => Channel.reset tin[i]

/-- The sequencer after reset (R25). -/
def Seq.reset : Seq where
  state := .triggerHigh
  ph := .settleReq
  delayBusy := false
  rising := 0
  falling := 0
  dist := 0
  trig := false

/-- The execution contexts after reset, for the main program's boot list: the pointer is `(Boot, 0)`, or
`(Loop, 0)` when the boot list is empty (R26, R45). -/
def Ctx.reset (boot : List Cmd) : Ctx where
  mode := .main
  pc := if boot.isEmpty then ⟨.loop, 0⟩ else ⟨.boot, 0⟩
  results := []
  trace := []
  faults := []
  refused := false

/-- The state after reset (R281) for every value of what the spec leaves to the model: the timer set
with its widths and `ARR_RESET`, the other parameters, the main program, the pin levels drawn at reset
and the scheduler's queue. -/
def State.resetFor (ts : TimerSet) (p : Params) (boot loop : List Cmd)
    (tin : Vector (Vector Bool 4) 16) (sched : List Agent) : State where
  cfg := p
  boot := boot
  loop := loop
  tm := Vector.ofFn fun t => ts[t].map fun q => Timer.reset q tin[t]
  seq := Seq.reset
  ctx := Ctx.reset boot
  sched := sched
  picks := 0
  draws := 0

/-- Every input pin low, the draw of the vectors of spec 95_test_vectors.md. DESIGN CHOICE
(notes/assumptions/1.md). -/
def tinLow : Vector (Vector Bool 4) 16 := Vector.replicate 16 (Vector.replicate 4 false)

/-- The machine right after reset (R281), with the default timer set and parameters, every pin low, no
main program loaded and no pick queued. -/
def State.reset : State := State.resetFor TimerSet.default Params.default [] [] tinLow []

end Sys2Proof.Machine
end

