-- ==== Sys2Proof/Machine/Operands.lean ====
section
/-! DEFINITION. Operand forms and register words: the operand assembly of spec 30_encoding.md R82, the
channel and register-offset operands, the reduction to a counter width (20_memory.md R65), the selector
codes as register bits (R86, R87), and the word of each register (10_state.md R30 to R38). -/

namespace Sys2Proof.Machine

/-! ### Operand words -/

/-- `v mod 2^W` (R11, R65). -/
def truncTo (w : Width) (v : Word) : Word :=
  match w with
  | .w16 => (v.setWidth 16).setWidth 32
  | .w32 => v

/-- An operand word read as an int32 is negative (R11, R82). -/
def isNegative (v : Word) : Bool := decide (v.toInt < 0)

/-- The port of a pin binding, `B[15:8]` (R82). -/
def bindPort (b : Word) : BitVec 8 := b.extractLsb' 8 8

/-- The pin of a pin binding, `B[7:0]` (R82). -/
def bindPin (b : Word) : BitVec 8 := b.extractLsb' 0 8

/-- The channel a channel number names; only 1..4 exist (R6, R81). -/
def chanOf (n : ChanId) : Option ChanIdx :=
  match n.toNat with
  | 1 => some 0
  | 2 => some 1
  | 3 => some 2
  | 4 => some 3
  | _ => none

/-- The `ocm` value of an output mode; `None` selects no sub-mode (R86). -/
def ocmOf : OutputMode → Option (BitVec 3)
  | .frozen => some 0b000
  | .active => some 0b001
  | .inactive => some 0b010
  | .toggle => some 0b011
  | .forceInactive => some 0b100
  | .forceActive => some 0b101
  | .pwm1 => some 0b110
  | .pwm2 => some 0b111
  | .none => none

/-- The PWM sub-mode `CPWM` selects: PWM2 if configured so, else PWM1 (R146). -/
def pwmModeOf : OutputMode → OutputMode
  | .pwm2 => .pwm2
  | .frozen | .active | .inactive | .toggle | .forceInactive | .forceActive | .pwm1 | .none => .pwm1

/-- The `ccp` bit of a polarity (R87). -/
def ccpOf : Polarity → Bool
  | .rising => false
  | .falling | .both => true

/-- The `ccnp` bit of a polarity (R87). -/
def ccnpOf : Polarity → Bool
  | .rising | .falling => false
  | .both => true

/-! ### Register words (R30 to R38) -/

/-- The registers of R30. -/
inductive Reg where
  | cr1 | dier | sr | egr | ccmr1 | ccmr2 | ccer | cnt | psc | arr
  /-- CCRc of the channel at this index. -/
  | ccr (i : ChanIdx)
  deriving DecidableEq, Repr

/-- The register at a byte offset; every other offset is reserved (R30, R63). -/
def regOf (off : Word) : Option Reg :=
  match off.toNat with
  | 0x00 => some .cr1
  | 0x0C => some .dier
  | 0x10 => some .sr
  | 0x14 => some .egr
  | 0x18 => some .ccmr1
  | 0x1C => some .ccmr2
  | 0x20 => some .ccer
  | 0x24 => some .cnt
  | 0x28 => some .psc
  | 0x2C => some .arr
  | 0x34 => some (.ccr 0)
  | 0x38 => some (.ccr 1)
  | 0x3C => some (.ccr 2)
  | 0x40 => some (.ccr 3)
  | _ => none

/-- A one-bit field of a word. -/
def bit (b : Bool) : BitVec 1 := BitVec.ofBool b

/-- The direction bit: 0 Up, 1 Down (R23). -/
def dirBit : Direction → Bool
  | .up => false
  | .down => true

/-- The channel of a timer at an index. -/
def Timer.chan (T : Timer) (i : ChanIdx) : Channel := T.ch[i.val]

/-- The channel byte `B(c)` of CCMR1 and CCMR2 (R35). -/
def Channel.ccmrByte (C : Channel) : BitVec 8 := 0#1 ++ C.ocm ++ bit C.ocpe ++ 0#1 ++ C.ccs

/-- The four bits of a channel in CCER (R36). -/
def Channel.ccerNibble (C : Channel) : BitVec 4 := bit C.ccnp ++ 0#1 ++ bit C.ccp ++ bit C.cce

/-- CR1 (R31). -/
def Timer.cr1Word (T : Timer) : Word :=
  0#24 ++ bit T.arpe ++ 0#2 ++ bit (dirBit T.dir) ++ 0#3 ++ bit T.cen

/-- DIER: bit c is the channel's interrupt enable (R32). -/
def Timer.dierWord (T : Timer) : Word :=
  0#27 ++ bit (T.chan 3).ccie ++ bit (T.chan 2).ccie ++ bit (T.chan 1).ccie ++
    bit (T.chan 0).ccie ++ 0#1

/-- SR: bit 0 is the update flag, bit c the channel's flag (R33). -/
def Timer.srWord (T : Timer) : Word :=
  0#27 ++ bit (T.chan 3).ccif ++ bit (T.chan 2).ccif ++ bit (T.chan 1).ccif ++
    bit (T.chan 0).ccif ++ bit T.uif

/-- CCMR1 (R35). -/
def Timer.ccmr1Word (T : Timer) : Word :=
  0#16 ++ (T.chan 1).ccmrByte ++ (T.chan 0).ccmrByte

/-- CCMR2 (R35). -/
def Timer.ccmr2Word (T : Timer) : Word :=
  0#16 ++ (T.chan 3).ccmrByte ++ (T.chan 2).ccmrByte

/-- CCER (R36). -/
def Timer.ccerWord (T : Timer) : Word :=
  0#16 ++ (T.chan 3).ccerNibble ++ (T.chan 2).ccerNibble ++ (T.chan 1).ccerNibble ++
    (T.chan 0).ccerNibble

/-- The word of a register of a clocked timer (R31 to R38). -/
def Timer.word (T : Timer) : Reg → Word
  | .cr1 => T.cr1Word
  | .dier => T.dierWord
  | .sr => T.srWord
  | .egr => 0
  | .ccmr1 => T.ccmr1Word
  | .ccmr2 => T.ccmr2Word
  | .ccer => T.ccerWord
  | .cnt => T.cnt
  | .psc => T.psc.setWidth 32
  | .arr => T.arr
  | .ccr i => (T.chan i).ccr

/-- Byte `k` of a register word; byte 0, at the lowest address, holds bits 7:0 (R62). No command reads
one. -/
def wordByte (v : Word) (k : Nat) : BitVec 8 := v.extractLsb' (8 * k) 8

end Sys2Proof.Machine
end

