-- ==== Sys2Proof/Machine/Flags.lean ====
section
/-! DEFINITION. What happens inside one timer: its flags, its counter and its outputs. Capture
(41_capture_compare.md R170), compare and outputs (R175, R180, R181), the update event and the tick
(40_timer_engine.md R110 to R112), the flag a register read clears (20_memory.md R64), and the interrupt
request, line and pending latch (60_exceptions.md R250, R251). Every definition here maps one timer to
one timer, so no step of one timer can touch another (R22). -/

namespace Sys2Proof.Machine

/-! ### Access to the channels -/

/-- The timer with one channel changed. -/
def Timer.modChan (T : Timer) (i : ChanIdx) (f : Channel → Channel) : Timer :=
  { T with ch := T.ch.set i.val (f (T.chan i)) i.isLt }

/-- The timer with every channel changed alike. -/
def Timer.mapChans (T : Timer) (f : Channel → Channel) : Timer :=
  { T with ch := Vector.ofFn fun i => f T.ch[i] }

/-- Input mode: `ccs = 0b01` (R24). -/
def Channel.inputMode (C : Channel) : Bool := C.ccs == 0b01

/-- Output mode: `ccs = 0b00` (R24). -/
def Channel.outputMode (C : Channel) : Bool := C.ccs == 0b00

/-! ### Compare and outputs -/

/-- The comparison of R180 that PWM1 drives: `cnt < ccr_sh` counting Up, `cnt <= ccr_sh` counting Down. -/
def pwmActive (d : Direction) (cnt sh : Word) : Bool :=
  match d with
  | .up => decide (cnt < sh)
  | .down => decide (cnt ≤ sh)

/-- The output reference `RefreshOutputs` gives a channel (R180): the held one for an input channel and
for the sub-modes that hold state. -/
def Channel.refreshedRef (C : Channel) (d : Direction) (cnt : Word) : Bool :=
  if C.outputMode then
    match C.ocm.toNat with
    | 0b100 => false
    | 0b101 => true
    | 0b110 => pwmActive d cnt C.ccrSh
    | 0b111 => !(pwmActive d cnt C.ccrSh)
    | _ => C.ocref
  else C.ocref

/-- `RefreshOutputs(t)` (R180). -/
def Timer.refreshOutputs (T : Timer) : Timer :=
  T.mapChans fun C => { C with ocref := C.refreshedRef T.dir T.cnt }

/-- The output reference after a compare match (R175). -/
def Channel.matchedRef (C : Channel) : Bool :=
  match C.ocm.toNat with
  | 0b001 => true
  | 0b010 => false
  | 0b011 => !C.ocref
  | _ => C.ocref

/-- One channel's part of `Compare(t)` (R175). -/
def Channel.compareAt (C : Channel) (cnt : Word) : Channel :=
  if C.outputMode && cnt == C.ccrSh then { C with ccif := true, ocref := C.matchedRef } else C

/-- `Compare(t)` (R175). -/
def Timer.compare (T : Timer) : Timer := T.mapChans fun C => C.compareAt T.cnt

/-! ### The update event and the counter -/

/-- The sources of an update event (R13, R112). -/
inductive UpdateSrc where
  | overflow
  | underflow
  | software
  deriving DecidableEq, Repr

/-- One channel's part of an update event: a preloaded compare value becomes active (R112). -/
def Channel.loadShadow (C : Channel) : Channel :=
  { C with ccrSh := if C.ocpe then C.ccr else C.ccrSh }

/-- The counter after an update event (R112). -/
def UpdateSrc.counter (src : UpdateSrc) (cnt : Word) : Word :=
  match src with
  | .software => 0
  | .overflow | .underflow => cnt

/-- `UpdateEvent(t, src)` (R112). -/
def Timer.updateEvent (T : Timer) (src : UpdateSrc) : Timer :=
  Timer.refreshOutputs
    { T with
      uif := true
      pscSh := T.psc
      pscCnt := 0
      arrSh := if T.arpe then T.arr else T.arrSh
      cnt := src.counter T.cnt
      ch := Vector.ofFn fun i => T.ch[i].loadShadow }

/-- The counter's part of `Tick(t)`: it counts, or wraps with an update event (R111). -/
def Timer.count (T : Timer) : Timer :=
  match T.dir with
  | .up =>
    if T.cnt = T.arrSh then Timer.updateEvent { T with cnt := 0 } .overflow
    else { T with cnt := truncTo T.width (T.cnt + 1) }
  | .down =>
    if T.cnt = 0 then Timer.updateEvent { T with cnt := T.arrSh } .underflow
    else { T with cnt := T.cnt - 1 }

/-- `Tick(t)` (R111). -/
def Timer.tick (T : Timer) : Timer := T.count.compare.refreshOutputs

/-- The prescaler's part of `Clk(t)` (R110): a tick every `psc_sh + 1` cycles. -/
def Timer.prescale (T : Timer) : Timer :=
  if T.pscCnt = T.pscSh then Timer.tick { T with pscCnt := 0 }
  else { T with pscCnt := T.pscCnt + 1 }

/-- `Clk(t)`, one input-clock cycle of a clocked timer (R110). -/
def Timer.clkCycle (T : Timer) : Timer :=
  let T' := T.mapChans fun C => { C with polrace := false }
  if T.cen then T'.prescale else T'

/-! ### Capture and reads -/

/-- `Capture(t, c)` (R170). -/
def Timer.capture (T : Timer) (i : ChanIdx) : Timer :=
  T.modChan i fun C => { C with ccr := T.cnt, ccif := true }

/-- The channel can capture: input mode, enabled, on a clocked timer (R170). -/
def Timer.canCapture (T : Timer) (i : ChanIdx) : Bool :=
  (T.chan i).inputMode && (T.chan i).cce && T.clkEn

/-- `Selected(ccnp, ccp, e)` for the edge to level `v` (R170); `none` for the bit pair R87 reserves. -/
def Channel.selected (C : Channel) (v : Bool) : Option Bool :=
  match C.ccnp, C.ccp with
  | false, false => some v
  | false, true => some (!v)
  | true, true => some true
  | true, false => none

/-- What an edge to level `v` does at a channel that can capture: captured (`some true`), not captured
(`some false`), or a free draw (`none`) inside the race window (R170, R172). The bit pair (1, 0), which
no command writes, also draws. -/
def Channel.edgeCaptures (C : Channel) (v : Bool) : Option Bool :=
  if C.polrace then none else C.selected v

/-- A read of CCRc clears the flag of a channel in input mode (R64). -/
def Channel.afterRead (C : Channel) : Channel :=
  if C.inputMode then { C with ccif := false } else C

/-- The timer after a read of a register word (R64). -/
def Timer.afterRead (T : Timer) : Reg → Timer
  | .ccr i => T.modChan i Channel.afterRead
  | .cr1 | .dier | .sr | .egr | .ccmr1 | .ccmr2 | .ccer | .cnt | .psc | .arr => T

/-! ### Interrupt request, line and latch -/

/-- `req(t, c)` (R185, R250). -/
def Channel.request (C : Channel) : Bool := C.ccie && C.ccif

/-- `line(t)`, the OR of the four requests (R250). -/
def Timer.line (T : Timer) : Bool :=
  (T.chan 0).request || (T.chan 1).request || (T.chan 2).request || (T.chan 3).request

/-- The pending latch after a step other than an `Irq` step (R251). -/
def Timer.latch (T : Timer) : Timer := { T with irqPend := T.irqPend || (T.line && T.irqEn) }

/-! ### Observation -/

/-- The level of a channel output (R181). -/
inductive Level where
  | undriven
  | driven (b : Bool)
  deriving DecidableEq, Repr

/-- `Out(t, c)` (R181). -/
def Timer.out (T : Timer) (i : ChanIdx) : Level :=
  if (T.chan i).outputMode && (T.chan i).cce && T.clkEn then
    .driven ((T.chan i).ocref ^^ (T.chan i).ccp)
  else .undriven

end Sys2Proof.Machine
end

