-- ==== Sys2Proof/Machine/Ops.lean ====
section
/-! DEFINITION. The named operations over the whole state: access to a timer, the clock gate of
20_memory.md R67, the pseudocode primitives of 00_scope.md R13 (`emit`, `result`, `raise Fault`, `hold`,
completion with `pc`), the pending latch of every line (60_exceptions.md R251), and entering and leaving
the interrupt context (R254). -/

namespace Sys2Proof.Machine

/-! ### Timers -/

/-- The timer of an identity; `none` when it is not in `TIMERS` (R22). -/
def State.timer (s : State) (t : TimerId) : Option Timer := s.tm[t.toNat]'(t.isLt)

/-- The state with the timer of an identity replaced. -/
def State.setTimer (s : State) (t : TimerId) (T : Timer) : State :=
  { s with tm := s.tm.set t.toNat (some T) t.isLt }

/-- The state with a recognised timer changed; no effect on an unrecognised one (R240). -/
def State.onTimer (s : State) (t : TimerId) (f : Timer → Timer) : State :=
  match s.timer t with
  | none => s
  | some T => s.setTimer t (f T)

/-- A command's write to a timer: nothing on an unrecognised timer (R240), nothing on an unclocked one
(R67). -/
def State.onClocked (s : State) (t : TimerId) (f : Timer → Timer) : State :=
  s.onTimer t fun T => if T.clkEn then f T else T

/-- A command's write to a channel: nothing on an invalid channel (R240), else as `onClocked`. -/
def State.onChan (s : State) (t : TimerId) (n : ChanId) (f : Timer → ChanIdx → Timer) : State :=
  match chanOf n with
  | none => s
  | some i => s.onClocked t fun T => f T i

/-- "valid": a recognised timer and a channel in 1..4 (spec 41_capture_compare.md, preamble). -/
def State.validChan (s : State) (t : TimerId) (n : ChanId) : Bool :=
  (s.timer t).isSome && (chanOf n).isSome

/-- The address of a recognised timer's register word: the offset from `BASE(t)` (R60). No command names a
register by its address. -/
def State.registerAddress (s : State) (t : TimerId) (off : Word) : Option Word :=
  (s.timer t).map fun _ => baseAddress s.cfg t + off

/-! ### Pseudocode primitives (R13) -/

/-- `emit E`. -/
def State.emit (s : State) (e : Event) : State :=
  { s with ctx := { s.ctx with trace := s.ctx.trace ++ [e] } }

/-- `result v`. -/
def State.result (s : State) (v : Int) : State :=
  { s with ctx := { s.ctx with results := s.ctx.results ++ [v] } }

/-- `raise Fault(reason)`: the reason is recorded with the command pointer, and the command does not
complete (R241). -/
def State.raise (s : State) (r : FaultReason) : State :=
  { s with ctx := { s.ctx with faults := s.ctx.faults ++ [(r, s.ctx.pc)] } }

/-- `hold`: the command does not complete in this step, and nothing is written. -/
def State.hold (s : State) : State := s

/-- The next command pointer (R45). -/
def Pc.next (pc : Pc) (bootLen loopLen : Nat) : Pc :=
  match pc.sect with
  | .boot => if pc.idx + 1 < bootLen then ⟨.boot, pc.idx + 1⟩ else ⟨.loop, 0⟩
  | .loop => if pc.idx + 1 < loopLen then ⟨.loop, pc.idx + 1⟩ else ⟨.loop, 0⟩

/-- Completion of a command: the main context's pointer advances (R45). A command issued in the
interrupt context is not the command at `Ctx.pc`, and leaves it (R254). -/
def State.complete (s : State) : State :=
  match s.ctx.mode with
  | .main => { s with ctx := { s.ctx with pc := s.ctx.pc.next s.boot.length s.loop.length } }
  | .handler => s

/-- One free draw in {0, 1} (R170), and the state after it. -/
def State.draw (s : State) : Bool × State :=
  (Config.freeDraw s.draws, { s with draws := s.draws + 1 })

/-! ### Interrupts -/

/-- The pending latches after a step other than an `Irq` step, of every timer (R251). -/
def State.latchAll (s : State) : State := { s with tm := Vector.ofFn fun t => s.tm[t].map Timer.latch }

/-- Entry of the interrupt context for timer `t`: the pending latch is cleared and the CPU is in Handler;
the interrupted point stays in `Ctx.pc` and `Seq.ph` (R254). -/
def State.enterIrq (s : State) (t : TimerId) : State :=
  let s' := s.onTimer t fun T => { T with irqPend := false }
  { s' with ctx := { s'.ctx with mode := .handler } }

/-- Return from the interrupt context: back in Main, and the line pends again if still asserted (R254). -/
def State.returnIrq (s : State) (t : TimerId) : State :=
  let s' := { s with ctx := { s.ctx with mode := .main } }
  s'.onTimer t fun T => { T with irqPend := T.line && T.irqEn }

/-- An interrupt entry of timer `t` as one step: enter, run the handler body to completion, return
(R254). -/
def State.takeIrq (s : State) (t : TimerId) (handler : State → State) : State :=
  (handler (s.enterIrq t)).returnIrq t

end Sys2Proof.Machine
end

