-- ==== Sys2Proof/Machine/Capture.lean ====
section
/-! DEFINITION. The commands of the capture/compare subsystem (spec 41_capture_compare.md): CCAP, CCMP,
CPOL, CPWM, CDUTY, CWAIT, CRD, CIEN, CIDIS, CCLR and RREG, and the refresh of the outputs after a command
(R180). A `…Effect` is the pseudocode without the command pointer. -/

namespace Sys2Proof.Machine

/-- The pin-binding request of a valid channel, emitted whatever the timer's clock (R140, R142). -/
def State.bindPins (s : State) (t : TimerId) (n : ChanId) (b : Word) : State :=
  s.emit (.pinBind t n (bindPort b) (bindPin b))

/-- What `initCapture` leaves in a channel (R140): the role switch with the channel disabled, then
RisingEdge, then enabled. -/
def Channel.toCapture (C : Channel) : Channel :=
  { C with ccs := 0b01, ocm := 0, ocpe := false, ccnp := false, ccp := false, polrace := true, cce := true }

/-- What `initCompare` leaves in a channel before the outputs are refreshed (R142). -/
def Channel.toCompare (C : Channel) (m : BitVec 3) : Channel :=
  { C with ccs := 0b00, ocm := m, ocpe := false, cce := true }

/-- A polarity write: the bits of R87 and the race window of R172 (R144). -/
def Channel.setPolarity (C : Channel) (k : Polarity) : Channel :=
  { C with ccnp := ccnpOf k, ccp := ccpOf k, polrace := true }

/-- `initCapture` (R140). -/
def ccapEffect (t : TimerId) (n : ChanId) (b : Word) (s : State) : State :=
  if s.validChan t n then
    (s.bindPins t n b).onChan t n fun T i => T.modChan i Channel.toCapture
  else s

/-- `initCompare` (R142); the mode `None` is a configuration error. -/
def ccmpEffect (t : TimerId) (n : ChanId) (m : OutputMode) (b : Word) (s : State) : State :=
  match ocmOf m with
  | none => s
  | some k =>
    if s.validChan t n then
      (s.bindPins t n b).onChan t n fun T i => (T.modChan i (·.toCompare k)).refreshOutputs
    else s

/-- What `setPolarity` does to a clocked timer: the outputs are refreshed for an output channel (R144). -/
def Timer.setPolarity (T : Timer) (i : ChanIdx) (k : Polarity) : Timer :=
  let T' := T.modChan i (·.setPolarity k)
  if (T.chan i).outputMode then T'.refreshOutputs else T'

/-- `setPolarity` (R144). -/
def cpolEffect (t : TimerId) (n : ChanId) (k : Polarity) (s : State) : State :=
  s.onChan t n fun T i => T.setPolarity i k

/-- What `initPwm` adds to `initCompare` on a clocked timer: preload on compare and auto-reload, the
polarity, and the duty in the preload register only (R146). -/
def Timer.toPwm (T : Timer) (i : ChanIdx) (k : Polarity) (d : Word) : Timer :=
  Timer.refreshOutputs
    { T.modChan i (fun C => { C.setPolarity k with ocpe := true, ccr := truncTo T.width d }) with
      arpe := true }

/-- `initPwm` (R146). -/
def cpwmEffect (t : TimerId) (n : ChanId) (m : OutputMode) (k : Polarity) (d b : Word) (s : State) :
    State :=
  (ccmpEffect t n (pwmModeOf m) b s).onChan t n fun T i => T.toPwm i k d

/-- What `setDuty` writes (R148): nothing to an input channel; the active value too without preload. -/
def Timer.setDuty (T : Timer) (i : ChanIdx) (d : Word) : Timer :=
  if (T.chan i).outputMode then
    if (T.chan i).ocpe then T.modChan i fun C => { C with ccr := truncTo T.width d }
    else
      (T.modChan i fun C =>
        { C with ccr := truncTo T.width d, ccrSh := truncTo T.width d }).refreshOutputs
  else T

/-- `setDuty` (R148). -/
def cdutyEffect (t : TimerId) (n : ChanId) (d : Word) (s : State) : State :=
  s.onChan t n fun T i => T.setDuty i d

/-- `readCapture` (R151): the 32-bit pattern it returns, and the state after it. -/
def crdEffect (t : TimerId) (n : ChanId) (s : State) : Word × State :=
  match s.timer t, chanOf n with
  | some T, some i =>
    if T.clkEn then ((T.chan i).ccr, s.setTimer t (T.afterRead (.ccr i))) else (0, s)
  | _, _ => (sentinel, s)

/-- What `enableChannelInterrupt` writes (R154): the controller's enable whatever the clock, the
channel's enable on a clocked timer. -/
def Timer.enableIrq (T : Timer) (i : ChanIdx) : Timer :=
  let T' := if T.clkEn then T.modChan i fun C => { C with ccie := true } else T
  { T' with irqEn := true }

/-- `enableChannelInterrupt` (R154). -/
def cienEffect (t : TimerId) (n : ChanId) (s : State) : State :=
  match chanOf n with
  | none => s
  | some i => s.onTimer t fun T => T.enableIrq i

/-- `disableChannelInterrupt` (R155). -/
def cidisEffect (t : TimerId) (n : ChanId) (s : State) : State :=
  s.onChan t n fun T i => T.modChan i fun C => { C with ccie := false }

/-- Clearing the channel's flag (R156). -/
def cclrEffect (t : TimerId) (n : ChanId) (s : State) : State :=
  s.onChan t n fun T i => T.modChan i fun C => { C with ccif := false }

/-- `CCAP` (R140). -/
def execCcap (t : TimerId) (n : ChanId) (b : Word) (s : State) : Host.Outcome State Fault Refusal :=
  .next (ccapEffect t n b s).complete

/-- `CCMP` (R142). -/
def execCcmp (t : TimerId) (n : ChanId) (m : OutputMode) (b : Word) (s : State) :
    Host.Outcome State Fault Refusal :=
  .next (ccmpEffect t n m b s).complete

/-- `CPOL` (R144). -/
def execCpol (t : TimerId) (n : ChanId) (k : Polarity) (s : State) : Host.Outcome State Fault Refusal :=
  .next (cpolEffect t n k s).complete

/-- `CPWM` (R146). -/
def execCpwm (t : TimerId) (n : ChanId) (m : OutputMode) (k : Polarity) (d b : Word) (s : State) :
    Host.Outcome State Fault Refusal :=
  .next (cpwmEffect t n m k d b s).complete

/-- `CDUTY` (R148). -/
def execCduty (t : TimerId) (n : ChanId) (d : Word) (s : State) : Host.Outcome State Fault Refusal :=
  .next (cdutyEffect t n d s).complete

/-- `CWAIT` (R150): one poll of the channel's flag, which it leaves set. -/
def execCwait (t : TimerId) (n : ChanId) (s : State) : Host.Outcome State Fault Refusal :=
  match s.ctx.mode, s.timer t, chanOf n with
  | .handler, _, _ => .next (s.raise .blockingInHandler)
  | .main, none, _ => .next (s.raise .unknownTimer)
  | .main, some _, none => .next (s.raise .invalidChannel)
  | .main, some T, some i =>
    if T.clkEn && (T.chan i).ccif then .next s.complete else .next s.hold

/-- `CRD` (R151): the result is an int32. -/
def execCrd (t : TimerId) (n : ChanId) (s : State) : Host.Outcome State Fault Refusal :=
  let r := crdEffect t n s
  .next (r.2.result r.1.toInt).complete

/-- `CIEN` (R154). -/
def execCien (t : TimerId) (n : ChanId) (s : State) : Host.Outcome State Fault Refusal :=
  .next (cienEffect t n s).complete

/-- `CIDIS` (R155). -/
def execCidis (t : TimerId) (n : ChanId) (s : State) : Host.Outcome State Fault Refusal :=
  .next (cidisEffect t n s).complete

/-- `CCLR` (R156). -/
def execCclr (t : TimerId) (n : ChanId) (s : State) : Host.Outcome State Fault Refusal :=
  .next (cclrEffect t n s).complete

/-- `RREG` (R152): the register's word, with the side effect of R64; 0 and no side effect while the timer
is unclocked. -/
def execRreg (t : TimerId) (off : Word) (s : State) : Host.Outcome State Fault Refusal :=
  match s.timer t, regOf off with
  | none, _ => .next (s.raise .unknownTimer)
  | some _, none => .next (s.raise .badRegisterOffset)
  | some T, some r =>
    if T.clkEn then .next ((s.setTimer t (T.afterRead r)).result (T.word r).toNat).complete
    else .next (s.result 0).complete

/-- The `RefreshOutputs` that R180 runs AFTER a command that writes `ocm`, `ccr_sh`, `ccp` or `dir`, on the
state the command left and in the same step (notes/assumptions/2.md). `TCFG` writes `dir`, `CCAP` writes
`ocm` and `ccp`, and `CPOL` writes `ccp`, where their checks let them write at all; the pseudocode of every
other command that writes one of the four ends with `RefreshOutputs` itself. -/
def State.refreshAfter (i : Instr) (s : State) : State :=
  match i with
  | .tcfg t _ p q => if isNegative p || isNegative q then s else s.onClocked t Timer.refreshOutputs
  | .ccap t n _ | .cpol t n _ => s.onChan t n fun T _ => T.refreshOutputs
  | .ten _ | .tdis _ | .tug _ | .trdc _ | .tdly _ | .ccmp _ _ _ _ | .cpwm _ _ _ _ _ _ | .cduty _ _ _
  | .cwait _ _ | .crd _ _ | .cien _ _ | .cidis _ _ | .cclr _ _ | .rreg _ _ | .rpoll => s

end Sys2Proof.Machine
end

