-- ==== Sys2Proof/Machine/Engine.lean ====
section
/-! DEFINITION. The commands of the timer engine (spec 40_timer_engine.md): TCFG, TEN, TDIS, TUG, TRDC and
TDLY. A `…Effect` is the pseudocode without the command pointer, which the sequencer also uses
(42_ranging_sequencer.md, preamble). -/

namespace Sys2Proof.Machine

/-- What an accepted `TCFG` writes (R100). -/
def Timer.configure (T : Timer) (d : Direction) (p q : Word) : Timer :=
  { T with
    clkEn := true
    psc := p.setWidth 16
    arr := truncTo T.width q
    arrSh := if T.arpe then T.arrSh else truncTo T.width q
    dir := d
    cnt := 0 }

/-- `configure` (R100): the check of the operands comes before any write, and no channel field is written. -/
def tcfgEffect (t : TimerId) (d : Direction) (p q : Word) (s : State) : State :=
  if isNegative p || isNegative q then s
  else s.onTimer t fun T => T.configure d p q

/-- `enable` (R101). -/
def tenEffect (t : TimerId) (s : State) : State := s.onClocked t fun T => { T with cen := true }

/-- `disable` (R102). -/
def tdisEffect (t : TimerId) (s : State) : State := s.onClocked t fun T => { T with cen := false }

/-- `generateUpdateEvent` (R104). -/
def tugEffect (t : TimerId) (s : State) : State := s.onClocked t fun T => T.updateEvent .software

/-- `TCFG` (R100). -/
def execTcfg (t : TimerId) (d : Direction) (p q : Word) (s : State) :
    Host.Outcome State Fault Refusal :=
  .next (tcfgEffect t d p q s).complete

/-- `TEN` (R101). -/
def execTen (t : TimerId) (s : State) : Host.Outcome State Fault Refusal :=
  .next (tenEffect t s).complete

/-- `TDIS` (R102). -/
def execTdis (t : TimerId) (s : State) : Host.Outcome State Fault Refusal :=
  .next (tdisEffect t s).complete

/-- `TUG` (R104). -/
def execTug (t : TimerId) (s : State) : Host.Outcome State Fault Refusal :=
  .next (tugEffect t s).complete

/-- `TRDC` (R106): the counter, or 0 while the timer is unclocked. -/
def execTrdc (t : TimerId) (s : State) : Host.Outcome State Fault Refusal :=
  match s.timer t with
  | none => .next (s.raise .unknownTimer)
  | some T => .next (s.result (if T.clkEn then T.cnt.toNat else 0)).complete

/-- `TDLY` (R108): one poll of the update flag. -/
def execTdly (t : TimerId) (s : State) : Host.Outcome State Fault Refusal :=
  match s.ctx.mode, s.timer t with
  | .handler, _ => .next (s.raise .blockingInHandler)
  | .main, none => .next (s.raise .unknownTimer)
  | .main, some T =>
    if T.clkEn && T.uif then .next (s.setTimer t { T with uif := false }).complete
    else .next s.hold

end Sys2Proof.Machine
end

