-- ==== Sys2Proof/Machine/Ranging.lean ====
section
/-! DEFINITION. The dual-edge capture and timestamp sequencer (spec 42_ranging_sequencer.md): the poll
RPOLL with its phases and its measurement, and the handler body `onCaptureEdge`. -/

namespace Sys2Proof.Machine

/-- The state with the sequencer's fields changed. -/
def State.modSeq (s : State) (f : Seq → Seq) : State := { s with seq := f s.seq }

/-- `W(ECHO_TIMER)`; `ECHO_TIMER` is a member of `TIMERS` (R8, `Params.wf`). -/
def State.echoWidth (s : State) : Width :=
  match s.timer s.cfg.echoTimer with
  | some T => T.width
  | none => .w32

/-- The exit condition of the trigger busy-wait: the echo timer is clocked and `cnt >= TRIG_TICKS`
(R206). -/
def State.pulseDone (s : State) : Bool :=
  match s.timer s.cfg.echoTimer with
  | some T => T.clkEn && decide (s.cfg.trigTicks ≤ T.cnt.toNat)
  | none => false

/-- One phase of `TriggerPhase()` (R206); it holds after every phase but the last. -/
def triggerPhase (s : State) : State :=
  match s.seq.ph with
  | .settleReq =>
    ((s.emit (.settleDelay settleMs)).modSeq fun q => { q with delayBusy := true, ph := .settleWait }).hold
  | .settleWait =>
    if s.seq.delayBusy then s.hold else (s.modSeq fun q => { q with ph := .resync }).hold
  | .resync => ((tugEffect s.cfg.echoTimer s).modSeq fun q => { q with ph := .trigHigh }).hold
  | .trigHigh =>
    ((s.modSeq fun q => { q with trig := true, ph := .pulseWait }).emit (.trigger true)).hold
  | .pulseWait =>
    (if s.pulseDone then s.modSeq fun q => { q with ph := .trigLow } else s).hold
  | .trigLow =>
    ((s.modSeq fun q => { q with trig := false, ph := .irqEnable }).emit (.trigger false)).hold
  | .irqEnable =>
    ((cienEffect s.cfg.echoTimer s.cfg.echoCh s).modSeq fun q => { q with ph := .advance }).hold
  | .advance => (s.modSeq fun q => { q with state := .echoRising, ph := .settleReq }).complete

/-- The distance of R210: the difference modulo `2^W`, the product modulo `2^32`, a truncating division. -/
def distance (w : Width) (tickUs : Nat) (rising falling : Word) : Word :=
  (truncTo w (falling - rising) * BitVec.ofNat 32 tickUs) / distDiv

/-- The alert's part of `Measure()` (R210): arm below the threshold, disarm otherwise. -/
def alertEffect (dist : Word) (s : State) : State :=
  if s.cfg.alertEnabled then
    if dist.toNat < s.cfg.alertThresholdCm then tenEffect s.cfg.alertTimer s
    else tdisEffect s.cfg.alertTimer s
  else s

/-- `Measure()` (R210). -/
def measurePhase (s : State) : State :=
  let d := distance s.echoWidth s.cfg.tickUs s.seq.rising s.seq.falling
  let s1 := (s.modSeq fun q => { q with dist := d }).emit (.report d)
  (alertEffect d s1).modSeq fun q => { q with state := .triggerHigh }

/-- `RPOLL` (R205). -/
def execRpoll (s : State) : Host.Outcome State Fault Refusal :=
  match s.ctx.mode, s.seq.state with
  | .handler, _ => .next (s.raise .blockingInHandler)
  | .main, .echoRising => .next s.complete
  | .main, .echoFalling => .next s.complete
  | .main, .measurement => .next (measurePhase s).complete
  | .main, .triggerHigh => .next (triggerPhase s)

/-- `onCaptureEdge()` (R212): the read of the capture register comes first in every state. -/
def onCaptureEdge (s : State) : State :=
  let t := s.cfg.echoTimer
  let n := s.cfg.echoCh
  let r := crdEffect t n s
  match s.seq.state with
  | .echoRising =>
    (cpolEffect t n .falling (r.2.modSeq fun q => { q with rising := r.1 })).modSeq
      fun q => { q with state := .echoFalling }
  | .echoFalling =>
    (cidisEffect t n (cpolEffect t n .rising (r.2.modSeq fun q => { q with falling := r.1 }))).modSeq
      fun q => { q with state := .measurement }
  | .triggerHigh | .measurement => r.2

end Sys2Proof.Machine
end

