-- ==== Sys2Proof/Machine/Agents.lean ====
section
/-! DEFINITION. The steps no command starts: `Irq(t)` (spec 60_exceptions.md R253, R254), `Clk(t)`
(40_timer_engine.md R110) and the environment's `SetInput`, `RaceGhost` and `DelayDone`
(41_capture_compare.md R170, R172; 42_ranging_sequencer.md R207); and which steps are enabled (R14). -/

namespace Sys2Proof.Machine

/-- `HANDLER(t)`: `onCaptureEdge` for the echo timer; any other timer has no handler, which is a fault
(R8, R253). -/
def handlerOf (t : TimerId) (s : State) : State :=
  if t = s.cfg.echoTimer then onCaptureEdge s else s.raise .unhandledInterrupt

/-- `Irq(t)` (R254). -/
def irqStep (t : TimerId) (s : State) : State := s.takeIrq t (handlerOf t)

/-- `Clk(t)` (R110). -/
def clkStep (t : TimerId) (s : State) : State := s.onTimer t Timer.clkCycle

/-- A capture decided by a free draw (R170, R172). -/
def drawnCapture (t : TimerId) (T : Timer) (i : ChanIdx) (s : State) : State :=
  let d := s.draw
  d.2.setTimer t (if d.1 then T.capture i else T)

/-- `SetInput(t, c, v)` (R170). -/
def setInputStep (t : TimerId) (n : ChanId) (v : Bool) (s : State) : State :=
  match s.timer t, chanOf n with
  | some T, some i =>
    let T' := T.modChan i fun C => { C with tin := v }
    if (T.chan i).tin == v then s.setTimer t T'
    else if T.canCapture i then
      match (T.chan i).edgeCaptures v with
      | none => drawnCapture t T' i s
      | some true => s.setTimer t (T'.capture i)
      | some false => s.setTimer t T'
    else s.setTimer t T'
  | _, _ => s

/-- `RaceGhost(t, c)`: one extra capture inside the race window, which it closes (R172). -/
def raceGhostStep (t : TimerId) (n : ChanId) (s : State) : State :=
  match chanOf n with
  | none => s
  | some i => s.onTimer t fun T => (T.capture i).modChan i fun C => { C with polrace := false }

/-- `DelayDone` (R207). -/
def delayDoneStep (s : State) : State := s.modSeq fun q => { q with delayBusy := false }

/-- The command word at the main context's pointer (R45). -/
def State.fetch (s : State) : Option Cmd :=
  match s.ctx.pc.sect with
  | .boot => s.boot[s.ctx.pc.idx]?
  | .loop => s.loop[s.ctx.pc.idx]?

/-- The main context has a step: no fault, no refused word, and a command at `Ctx.pc` (R296). -/
def State.mainHasStep (s : State) : Bool :=
  s.ctx.faults.isEmpty && !s.ctx.refused && s.fetch.isSome

/-- The step is enabled: R252 for `Irq`, R110 for `Clk`, R170, R172 and R207 for the environment's, R296
for `Main`; and none is in a faulted state (R241). -/
def State.enabled (s : State) (a : Agent) : Bool :=
  s.ctx.faults.isEmpty &&
    match a with
    | .main => s.mainHasStep
    | .irq t => (s.timer t).any (·.irqPend)
    | .clk t => (s.timer t).any (·.clkEn)
    | .setInput t n _ => s.validChan t n
    | .raceGhost t n =>
      (s.timer t).any fun T => (chanOf n).any fun i => T.canCapture i && (T.chan i).polrace
    | .delayDone => s.seq.delayBusy

/-- What the scheduler picks next: the head of the queue, or its own free pick (R14). -/
def State.pick (s : State) : Agent :=
  match s.sched with
  | a :: _ => a
  | [] => Config.freePick s.picks

/-- The state once the pick is taken. -/
def State.takePick (s : State) : State :=
  match s.sched with
  | _ :: rest => { s with sched := rest }
  | [] => { s with picks := s.picks + 1 }

/-- The list with the command at place `i` replaced; words of zeros fill a gap before it. -/
def placeAt : List Cmd → Nat → Cmd → List Cmd
  | [], 0, c => [c]
  | [], i + 1, c => ⟨0, 0, 0⟩ :: placeAt [] i c
  | _ :: l, 0, c => c :: l
  | x :: l, i + 1, c => x :: placeAt l i c

/-- The state whose next step is the main context's, running the command `c`: `c` stands at `Ctx.pc`,
`Main` is the scheduler's next pick, and nothing recorded keeps the main context from a step
(notes/assumptions/5.md). -/
def State.loadCommand (s : State) (c : Cmd) : State :=
  { s with
    sched := .main :: s.sched
    ctx := { s.ctx with faults := [], refused := false }
    boot := match s.ctx.pc.sect with | .boot => placeAt s.boot s.ctx.pc.idx c | .loop => s.boot
    loop := match s.ctx.pc.sect with | .loop => placeAt s.loop s.ctx.pc.idx c | .boot => s.loop }

end Sys2Proof.Machine
end

