-- ==== Sys2Proof/Machine/Dispatch.lean ====
section
/-! DEFINITION. What each command does: one arm per constructor of `Instr`, one direct call of its
meaning. -/

namespace Sys2Proof.Machine

def exec (i : Instr) (s : State) : Host.Outcome State Fault Refusal :=
  match i with
  | .tcfg t d p q => Sys2Proof.Machine.execTcfg t d p q s
  | .ten t => Sys2Proof.Machine.execTen t s
  | .tdis t => Sys2Proof.Machine.execTdis t s
  | .tug t => Sys2Proof.Machine.execTug t s
  | .trdc t => Sys2Proof.Machine.execTrdc t s
  | .tdly t => Sys2Proof.Machine.execTdly t s
  | .ccap t n b => Sys2Proof.Machine.execCcap t n b s
  | .ccmp t n m b => Sys2Proof.Machine.execCcmp t n m b s
  | .cpol t n k => Sys2Proof.Machine.execCpol t n k s
  | .cpwm t n m k d b => Sys2Proof.Machine.execCpwm t n m k d b s
  | .cduty t n d => Sys2Proof.Machine.execCduty t n d s
  | .cwait t n => Sys2Proof.Machine.execCwait t n s
  | .crd t n => Sys2Proof.Machine.execCrd t n s
  | .cien t n => Sys2Proof.Machine.execCien t n s
  | .cidis t n => Sys2Proof.Machine.execCidis t n s
  | .cclr t n => Sys2Proof.Machine.execCclr t n s
  | .rreg t off => Sys2Proof.Machine.execRreg t off s
  | .rpoll => Sys2Proof.Machine.execRpoll s

end Sys2Proof.Machine
end

