-- ==== Sys2Proof/Machine/Step.lean ====
section
/-! DEFINITION. The step: one step of the agent the scheduler picks (spec 00_scope.md R14), the pending
latches after it (60_exceptions.md R251), and how a command word is placed where the next step runs it. -/

namespace Sys2Proof.Machine

/-- The outcome with `f` taken over a next state. -/
def onNext (f : State → State) (o : Host.Outcome State Fault Refusal) : Host.Outcome State Fault Refusal :=
  match o with
  | .next s => .next (f s)
  | .fault r => .fault r
  | .refused r => .refused r

/-- `Main`: the command at `Ctx.pc` is decoded and executed, and the outputs are refreshed after it where
R180 says so; a word the decoder refuses sets `Ctx.refused` (R92). -/
def mainStep (s : State) : Host.Outcome State Fault Refusal :=
  match s.fetch with
  | none => .next s
  | some c =>
    match decode c with
    | .ok i => onNext (State.refreshAfter i) (exec i s)
    | .error _ => .next { s with ctx := { s.ctx with refused := true } }

/-- The step of an enabled agent; the latches are taken after every step but an `Irq` step (R251). -/
def agentStep (a : Agent) (s : State) : Host.Outcome State Fault Refusal :=
  match a with
  | .main => onNext State.latchAll (mainStep s)
  | .irq t => .next (irqStep t s)
  | .clk t => .next (clkStep t s).latchAll
  | .setInput t n v => .next (setInputStep t n v s).latchAll
  | .raceGhost t n => .next (raceGhostStep t n s).latchAll
  | .delayDone => .next (delayDoneStep s).latchAll

/-- One step: from a faulted state no agent has one (R241); a pick that is not enabled changes nothing
but the queue (notes/assumptions/4.md). -/
def step (s : State) : Host.Outcome State Fault Refusal :=
  match s.ctx.faults with
  | (r, _) :: _ => .fault (.halted r)
  | [] => if s.enabled s.pick then agentStep s.pick s.takePick else .next s.takePick

/-- `s` with the command whose bits are `w` placed where the very next step runs it. -/
def State.withFetchWord (s : State) (nbits w : Nat) : State :=
  s.loadCommand (cmdOfNat (w % 2 ^ nbits))

end Sys2Proof.Machine
end

