-- ==== Sys2Proof/Safety.lean ====
section
/-! DEFINITION. What counts as a safe state and a final one, what a run is and when it is weakly fair, and
what a run shows: the terms claims use (spec 00_scope.md R14, R15, 10_state.md R27,
70_reset_and_hazards.md R296). -/

namespace Sys2Proof.Machine

/-- No fault is recorded and no command word was refused (R241, R243). -/
def State.unfaulted (s : State) : Bool := s.ctx.faults.isEmpty && !s.ctx.refused

/-- A final state: the main context has no step, no fault, no refused word, and no `Irq` step is enabled
(R296). -/
def State.final (s : State) : Bool :=
  !s.mainHasStep && s.unfaulted && s.tm.all fun o => !(o.any (·.irqPend))

/-! ### Runs and weak fairness (R14) -/

/-- The state with a pick put before every queued one. -/
def State.scheduled (s : State) (a : Agent) : State := { s with sched := a :: s.sched }

/-- An infinite run under a schedule: at each place the scheduler picks `sch n`, and the machine steps. A
pick that is not enabled is a step of the run that changes nothing. A run that ends, ends in a state with a
recorded fault, from which no step is enabled (R241). -/
def IsRun (sch : Nat → Agent) (run : Nat → State) : Prop :=
  ∀ n, step ((run n).scheduled (sch n)) = .next (run (n + 1))

/-- Weak fairness to the steps of one kind: where from some place on one of them is enabled at every state,
one of them is taken at some later place (R14). -/
def FairTo (kind : Agent → Prop) (sch : Nat → Agent) (run : Nat → State) : Prop :=
  ∀ n, (∀ m, n ≤ m → ∃ a, kind a ∧ (run m).enabled a = true) →
    ∃ m, n ≤ m ∧ kind (sch m) ∧ (run m).enabled (sch m) = true

/-- The environment's steps (R14). -/
def Agent.isEnv : Agent → Prop
  | .setInput _ _ _ | .raceGhost _ _ | .delayDone => True
  | .main | .irq _ | .clk _ => False

/-- The weakly fair runs (R14): fair to the main context, to the interrupt entry and the clock of each timer,
to the end of the settle delay (R207, R255), and to the environment as one kind. Which pin the environment
drives, and to which level, is not forced, nor is a ghost capture: a run whose echo never comes is weakly
fair (R215; notes/assumptions/4.md). -/
structure WeaklyFair (sch : Nat → Agent) (run : Nat → State) : Prop where
  main : FairTo (· = .main) sch run
  irq : ∀ t, FairTo (· = .irq t) sch run
  clk : ∀ t, FairTo (· = .clk t) sch run
  delayDone : FairTo (· = .delayDone) sch run
  env : FairTo Agent.isEnv sch run

/-! ### Observation and invariants -/

/-- What a run shows (R15). -/
structure Observation where
  results : List Int
  trace : List Event
  /-- `Out(t, c)` of every recognised timer's channels 1 to 4. -/
  outputs : Vector (Option (Vector Level 4)) 16
  faults : List (FaultReason × Pc)
  deriving DecidableEq, Repr

/-- The observation of a state (R15). -/
def State.observe (s : State) : Observation where
  results := s.ctx.results
  trace := s.ctx.trace
  outputs := s.tm.map fun o => o.map fun T => #v[T.out 0, T.out 1, T.out 2, T.out 3]
  faults := s.ctx.faults

/-- The value fits the width (R27(a)). -/
def fits (w : Width) (v : Word) : Bool := decide (v.toNat < 2 ^ w.bits)

/-- R27(a) to (c) for a channel, and the polarity pairs of R87. -/
def Channel.wf (w : Width) (C : Channel) : Bool :=
  fits w C.ccr && fits w C.ccrSh && (C.ccs == 0b00 || C.ccs == 0b01) &&
    (C.ccs != 0b01 || (C.ocm == 0 && !C.ocpe)) && (!C.ccnp || C.ccp)

/-- R27(a) to (c) for a timer, and the sub-counter not above the active prescaler (R110, R112). -/
def Timer.wf (T : Timer) : Bool :=
  fits T.width T.arr && fits T.width T.arrSh && fits T.width T.cnt &&
    decide (T.pscCnt ≤ T.pscSh) && T.ch.all (Channel.wf T.width)

/-- An asserted and enabled line is pending (R251, R254). -/
def Timer.linePends (T : Timer) : Bool := !(T.line && T.irqEn) || T.irqPend

/-- Counting Up, the counter is not above the active period (R115). -/
def Timer.belowPeriod (T : Timer) : Bool := T.dir == .down || decide (T.cnt ≤ T.arrSh)

/-- The invariants of R27, for every recognised timer, the mode and the sequencer's phase. -/
def State.wf (s : State) : Bool :=
  s.tm.all (fun o => o.all Timer.wf) && s.ctx.mode == .main &&
    (s.seq.ph == .settleReq || s.seq.state == .triggerHigh)

/-- The output law of R180 to R182, for every driven channel: PWM1 is active below the active compare value
counting Up and at or below it counting Down, PWM2 is the complement, ForceInactive and ForceActive are
constant; each inverted by `ccp`. -/
def Timer.outputLaw (N : Timer) : Prop :=
  ∀ i : ChanIdx,
    let C := N.chan i
    C.ccs = 0b00 → C.cce = true → N.clkEn = true →
    (C.ocm = 0b110 → N.dir = .up →
      N.out i = .driven (decide (N.cnt.toNat < C.ccrSh.toNat) ^^ C.ccp)) ∧
    (C.ocm = 0b110 → N.dir = .down →
      N.out i = .driven (decide (N.cnt.toNat ≤ C.ccrSh.toNat) ^^ C.ccp)) ∧
    (C.ocm = 0b111 → N.dir = .up →
      N.out i = .driven (decide (C.ccrSh.toNat ≤ N.cnt.toNat) ^^ C.ccp)) ∧
    (C.ocm = 0b111 → N.dir = .down →
      N.out i = .driven (decide (C.ccrSh.toNat < N.cnt.toNat) ^^ C.ccp)) ∧
    (C.ocm = 0b100 → N.out i = .driven C.ccp) ∧
    (C.ocm = 0b101 → N.out i = .driven (!C.ccp))

/-- The commands executed one after another by the main context, each with the refresh of R180 after it and
with no other step between them. -/
def runCommands : List Instr → State → Host.Outcome State Fault Refusal
  | [], s => .next s
  | i :: rest, s =>
    match exec i s with
    | .next s' => runCommands rest (s'.refreshAfter i)
    | .fault r => .fault r
    | .refused r => .refused r

/-- `n` input-clock cycles of one timer with no other step between them (R113). -/
def clkTimes : Nat → Timer → Timer
  | 0, T => T
  | n + 1, T => (clkTimes n T).clkCycle

/-- `n` ticks of one timer with no other step between them (R116). -/
def tickTimes : Nat → Timer → Timer
  | 0, T => T
  | n + 1, T => (tickTimes n T).tick

end Sys2Proof.Machine
end

