-- ==== Sys2Proof/Certificates/Slice0/Obligations.lean ====
section
/-! DEFINITION. The statements for the provers. -/

open Sys2Proof Sys2Proof.Machine

/-! ### Encoding (spec 30_encoding.md) -/

/-- R80, R84, R93: decoding the encoding of a well-formed command gives the command back, with every
operand at every value the encoding admits. -/
def Obligations.DecodeEncodeRoundTrip : Prop :=
  ∀ i : Instr, i.wf = true → decode (encode i) = .ok i

/-- R80, R89, R92: a word triple the decoder accepts is the encoding of the well-formed command it names,
so each of its 96 bits is accounted for. -/
def Obligations.AcceptedWordIsItsEncoding : Prop :=
  ∀ (c : Cmd) (i : Instr), decode c = .ok i → i.wf = true ∧ encode i = c

/-- R95: the eight encoding examples, each way. -/
def Obligations.EncodingExamples : Prop :=
  ∀ p ∈ [(Instr.tcfg 3 .up 15 65535, Cmd.mk 0x01300000 0x0000000F 0x0000FFFF),
         (.tcfg 3 .down (-1) 100, ⟨0x01300100, 0xFFFFFFFF, 0x00000064⟩),
         (.ccap 3 1 6, ⟨0x10310000, 0x00000000, 0x00000006⟩),
         (.cpol 3 1 .falling, ⟨0x12311000, 0x00000000, 0x00000000⟩),
         (.cpol 3 1 .both, ⟨0x12313000, 0x00000000, 0x00000000⟩),
         (.cpwm 4 2 .pwm1 .rising 500 0x107, ⟨0x13420600, 0x000001F4, 0x00000107⟩),
         (.rreg 3 0x20, ⟨0x1A300000, 0x00000020, 0x00000000⟩),
         (.rpoll, ⟨0x20000000, 0x00000000, 0x00000000⟩)],
    encode p.1 = p.2 ∧ decode p.2 = .ok p.1

/-- R90: the reserved opcodes are 0x00, 0x07..0x0F, 0x1B..0x1F and 0x21..0xFF, and exactly the words that
carry one are refused under that name. -/
def Obligations.ReservedOpcodesRefused : Prop :=
  ∀ c : Cmd, decode c = .error .reservedOpcode ↔
    (let op := c.w0.toNat / 2 ^ 24
     op = 0x00 ∨ (0x07 ≤ op ∧ op ≤ 0x0F) ∨ (0x1B ≤ op ∧ op ≤ 0x1F) ∨ 0x21 ≤ op)

/-! ### The step (spec 00_scope.md R14, 60_exceptions.md R241, R251) -/

/-- R14, R92, R180, R251: when the scheduler picks the main context and the command at `Ctx.pc` decodes, the
step is `exec` of that command on the state with the pick taken, which answers a next state, then the refresh
of the outputs that R180 runs after a command, then the pending latches of every line. The refresh is of the
clocked timer of an accepted `TCFG`, and of a `CCAP` or `CPOL` of a valid channel; after every other command
there is none of its own. That R180's refresh follows the command in the same step is the model's reading
(notes/assumptions/2.md). -/
def Obligations.StepRunsDecodedCommand : Prop :=
  (∀ (s : State) (c : Cmd) (i : Instr),
    s.ctx.faults = [] → s.ctx.refused = false → s.pick = .main → s.fetch = some c →
    decode c = .ok i →
    ∃ s', exec i s.takePick = .next s' ∧ step s = .next (s'.refreshAfter i).latchAll) ∧
  (∀ (s : State) (t : TimerId) (T : Timer), s.timer t = some T → T.clkEn = true →
    (∀ d p q, 0 ≤ p.toInt → 0 ≤ q.toInt →
      s.refreshAfter (.tcfg t d p q) = s.setTimer t T.refreshOutputs) ∧
    ∀ n : ChanId, 1 ≤ n.toNat → n.toNat ≤ 4 →
      (∀ b, s.refreshAfter (.ccap t n b) = s.setTimer t T.refreshOutputs) ∧
      ∀ k, s.refreshAfter (.cpol t n k) = s.setTimer t T.refreshOutputs) ∧
  ∀ (s : State) (i : Instr),
    let idle (t : TimerId) : Prop := s.timer t = none ∨ ∃ T, s.timer t = some T ∧ T.clkEn = false
    (∀ t d p q, i = .tcfg t d p q → p.toInt < 0 ∨ q.toInt < 0 ∨ idle t) →
    (∀ t n b, i = .ccap t n b → n.toNat = 0 ∨ 4 < n.toNat ∨ idle t) →
    (∀ t n k, i = .cpol t n k → n.toNat = 0 ∨ 4 < n.toNat ∨ idle t) →
    s.refreshAfter i = s

/-- R92, R243: when the command at `Ctx.pc` is refused by the decoder, the step sets `Ctx.refused` and
leaves the pointer (the model's reading of R45 and R92, notes/assumptions/7.md), and from a state with `Ctx.refused` set the main context has no step. -/
def Obligations.RefusedWordStopsMain : Prop :=
  (∀ (s : State) (c : Cmd) (r : DecodeRefusal),
    s.ctx.faults = [] → s.ctx.refused = false → s.pick = .main → s.fetch = some c →
    decode c = .error r →
    step s = .next ({ s.takePick with ctx := { s.ctx with refused := true } }).latchAll) ∧
  (∀ s : State, s.ctx.refused = true → s.enabled .main = false)

/-- R241: from a state with a recorded fault no agent has a step, and the step answers the stop. -/
def Obligations.FaultedStateHasNoStep : Prop :=
  ∀ (s : State) (r : FaultReason) (pc : Pc) (l : List (FaultReason × Pc)),
    s.ctx.faults = (r, pc) :: l →
    step s = .fault (.halted r) ∧ ∀ a : Agent, s.enabled a = false

/-- R240, R241: no command stops the machine in its own step: every command on every state answers a next
state. -/
def Obligations.EveryCommandAnswersNext : Prop :=
  ∀ (i : Instr) (s : State), ∃ s', exec i s = .next s'

/-- R45: the pointer after a completed command of the main context, by the four cases of the rule. -/
def Obligations.CompletionAdvancesPointer : Prop :=
  ∀ (s : State) (i : Nat), s.ctx.mode = .main →
    (s.ctx.pc = ⟨.boot, i⟩ → i + 1 < s.boot.length → s.complete.ctx.pc = ⟨.boot, i + 1⟩) ∧
    (s.ctx.pc = ⟨.boot, i⟩ → s.boot.length ≤ i + 1 → s.complete.ctx.pc = ⟨.loop, 0⟩) ∧
    (s.ctx.pc = ⟨.loop, i⟩ → i + 1 < s.loop.length → s.complete.ctx.pc = ⟨.loop, i + 1⟩) ∧
    (s.ctx.pc = ⟨.loop, i⟩ → s.loop.length ≤ i + 1 → s.complete.ctx.pc = ⟨.loop, 0⟩) ∧
    s.complete = { s with ctx := { s.ctx with pc := s.complete.ctx.pc } }

/-! ### The timer engine (spec 40_timer_engine.md) -/

/-- R100: an accepted `TCFG` turns the clock on, programs prescaler, period and direction, zeroes the counter
and leaves every other field and every channel field; one of an unrecognised timer, or with a negative
prescaler or period, completes with no effect. -/
def Obligations.TcfgProgramsTimer : Prop :=
  ∀ (s : State) (t : TimerId) (d : Direction) (p q : Word),
    (∀ T, s.timer t = some T → 0 ≤ p.toInt → 0 ≤ q.toInt →
      let q' : Word := BitVec.ofNat 32 (q.toNat % 2 ^ T.width.bits)
      exec (.tcfg t d p q) s =
        .next (s.setTimer t
          { T with
            clkEn := true
            psc := BitVec.ofNat 16 p.toNat
            arr := q'
            arrSh := if T.arpe then T.arrSh else q'
            dir := d
            cnt := 0 }).complete) ∧
    ((s.timer t = none ∨ p.toInt < 0 ∨ q.toInt < 0) →
      exec (.tcfg t d p q) s = .next s.complete)

/-- R101, R102: `TEN` sets and `TDIS` clears the run bit of a clocked timer and writes nothing else;
otherwise each has no effect. -/
def Obligations.TenAndTdisWriteRunBit : Prop :=
  ∀ (s : State) (t : TimerId),
    (∀ T, s.timer t = some T → T.clkEn = true →
      exec (.ten t) s = .next (s.setTimer t { T with cen := true }).complete ∧
      exec (.tdis t) s = .next (s.setTimer t { T with cen := false }).complete) ∧
    ((s.timer t = none ∨ ∃ T, s.timer t = some T ∧ T.clkEn = false) →
      exec (.ten t) s = .next s.complete ∧ exec (.tdis t) s = .next s.complete)

/-- R103: a sequence of any number of `TEN` (true) and `TDIS` (false) on one clocked timer writes only
`cen`, which ends as the last of them wrote it; nothing but the command pointer changes besides. On an
unrecognised or unclocked timer none of them writes anything. -/
def Obligations.RunBitSequences : Prop :=
  ∀ (l : List Bool) (b : Bool) (s : State) (t : TimerId),
    let commands := (l ++ [b]).map fun e => if e then Instr.ten t else Instr.tdis t
    (∀ T, s.timer t = some T → T.clkEn = true →
      ∃ s', runCommands commands s = .next s' ∧
        s' = { s.setTimer t { T with cen := b } with ctx := { s.ctx with pc := s'.ctx.pc } }) ∧
    ((s.timer t = none ∨ ∃ T, s.timer t = some T ∧ T.clkEn = false) →
      ∃ s', runCommands commands s = .next s' ∧
        s' = { s with ctx := { s.ctx with pc := s'.ctx.pc } })

/-- R104, R112: `TUG` on a clocked timer: the flag is set, the preloaded registers become active, the
sub-counter and the counter are 0, every output is refreshed, and `cen` keeps its value; otherwise it has
no effect. -/
def Obligations.TugForcesUpdate : Prop :=
  ∀ (s : State) (t : TimerId),
    (∀ T, s.timer t = some T → T.clkEn = true →
      ∃ T' : Timer,
        exec (.tug t) s = .next (s.setTimer t T').complete ∧
        T' = { T with
               uif := true
               pscSh := T.psc
               pscCnt := 0
               arrSh := if T.arpe then T.arr else T.arrSh
               cnt := 0
               ch := T'.ch } ∧
        ∀ i : ChanIdx,
          let C : Channel :=
            { T.chan i with ccrSh := if (T.chan i).ocpe then (T.chan i).ccr else (T.chan i).ccrSh }
          T'.chan i = { C with ocref := C.refreshedRef T.dir 0 }) ∧
    ((s.timer t = none ∨ ∃ T, s.timer t = some T ∧ T.clkEn = false) →
      exec (.tug t) s = .next s.complete)

/-- R106: `TRDC` appends the counter as an unsigned value, 0 for an unclocked timer, and records
`UnknownTimer` for an unrecognised one. -/
def Obligations.TrdcReturnsCounter : Prop :=
  ∀ (s : State) (t : TimerId),
    (s.timer t = none → exec (.trdc t) s = .next (s.raise .unknownTimer)) ∧
    (∀ T, s.timer t = some T → T.clkEn = false →
      exec (.trdc t) s = .next (s.result 0).complete) ∧
    (∀ T, s.timer t = some T → T.clkEn = true →
      exec (.trdc t) s = .next (s.result T.cnt.toNat).complete)

/-- R108: `TDLY` completes and clears the update flag when it is set on a clocked timer, and holds (the
state, the pointer with it, as it was) otherwise; in the interrupt context, and on an unrecognised timer,
it records its fault. -/
def Obligations.TdlyPollsUpdateFlag : Prop :=
  ∀ (s : State) (t : TimerId),
    (s.ctx.mode = .handler → exec (.tdly t) s = .next (s.raise .blockingInHandler)) ∧
    (s.ctx.mode = .main → s.timer t = none → exec (.tdly t) s = .next (s.raise .unknownTimer)) ∧
    (∀ T, s.ctx.mode = .main → s.timer t = some T → T.clkEn = true → T.uif = true →
      exec (.tdly t) s = .next (s.setTimer t { T with uif := false }).complete) ∧
    (∀ T, s.ctx.mode = .main → s.timer t = some T → (T.clkEn = false ∨ T.uif = false) →
      exec (.tdly t) s = .next s)

/-- R110, R22: `Clk(t)` is enabled exactly at a clocked timer, and its step closes every race window of timer `t`; with `cen = 0` it does
nothing more to it; with `cen = 1` it counts the sub-counter up, or, where that equals the active
prescaler, zeroes it and makes one tick. Of every other timer it changes nothing but the pending latch of
R251, and of the rest of the state nothing but the scheduler's queue. -/
def Obligations.ClkStepMovesOneTimer : Prop :=
  ∀ (s : State) (t : TimerId) (T : Timer),
    s.ctx.faults = [] → s.timer t = some T →
    (s.enabled (.clk t) = true ↔ T.clkEn = true) ∧
    (s.pick = .clk t → T.clkEn = true →
      let T0 := T.mapChans fun C => { C with polrace := false }
      ∃ s' T', step s = .next s' ∧ s'.timer t = some (Timer.latch T') ∧
        (T.cen = false → T' = T0) ∧
        (T.cen = true → T.pscCnt ≠ T.pscSh → T' = { T0 with pscCnt := T.pscCnt + 1 }) ∧
        (T.cen = true → T.pscCnt = T.pscSh → T' = ({ T0 with pscCnt := 0 } : Timer).tick) ∧
        (∀ u, u ≠ t → s'.timer u = (s.timer u).map Timer.latch) ∧
        s' = { s.takePick with tm := s'.tm })

/-- R111, R112: the counter, the update flag, the active prescaler and period, and every channel's active
compare value after one tick, counting Up and counting Down, with and without an update event; and the
frame: nothing else of the timer changes but the flag and the output reference of its channels. -/
def Obligations.TickCountsAndWraps : Prop :=
  ∀ T : Timer,
    (T.dir = .up → T.cnt = T.arrSh →
      T.tick.cnt = 0 ∧ T.tick.uif = true ∧ T.tick.pscSh = T.psc ∧ T.tick.pscCnt = 0 ∧
        T.tick.arrSh = if T.arpe then T.arr else T.arrSh) ∧
    (T.dir = .down → T.cnt = 0 →
      T.tick.cnt = T.arrSh ∧ T.tick.uif = true ∧ T.tick.pscSh = T.psc ∧ T.tick.pscCnt = 0 ∧
        T.tick.arrSh = if T.arpe then T.arr else T.arrSh) ∧
    (T.dir = .up → T.cnt ≠ T.arrSh →
      T.tick.cnt.toNat = (T.cnt.toNat + 1) % 2 ^ T.width.bits ∧ T.tick.uif = T.uif ∧
        T.tick.pscSh = T.pscSh ∧ T.tick.pscCnt = T.pscCnt ∧ T.tick.arrSh = T.arrSh) ∧
    (T.dir = .down → T.cnt ≠ 0 →
      T.tick.cnt.toNat + 1 = T.cnt.toNat ∧ T.tick.uif = T.uif ∧
        T.tick.pscSh = T.pscSh ∧ T.tick.pscCnt = T.pscCnt ∧ T.tick.arrSh = T.arrSh) ∧
    (((T.dir = .up ∧ T.cnt = T.arrSh) ∨ (T.dir = .down ∧ T.cnt = 0)) →
      ∀ i, (T.tick.chan i).ccrSh = if (T.chan i).ocpe then (T.chan i).ccr else (T.chan i).ccrSh) ∧
    (((T.dir = .up ∧ T.cnt ≠ T.arrSh) ∨ (T.dir = .down ∧ T.cnt ≠ 0)) →
      ∀ i, (T.tick.chan i).ccrSh = (T.chan i).ccrSh) ∧
    (let N := T.tick
     N = { T with
           cnt := N.cnt, uif := N.uif, pscSh := N.pscSh, pscCnt := N.pscCnt, arrSh := N.arrSh, ch := N.ch } ∧
     ∀ i, N.chan i =
       { T.chan i with ccif := (N.chan i).ccif, ocref := (N.chan i).ocref, ccrSh := (N.chan i).ccrSh })

/-- R113, Up direction: from `cnt = 0` and `psc_cnt = 0` with the flag clear, the first overflow comes
after exactly `(P+1)*(A+1)` clock cycles; before it each counter value lasts `P+1` cycles, and after it the
counter and the sub-counter are 0 again. -/
def Obligations.UpdatePeriodCountingUp : Prop :=
  ∀ (T : Timer) (P A : Nat),
    T.cen = true → T.dir = .up → T.pscSh.toNat = P → T.psc = T.pscSh →
    T.arrSh.toNat = A → A < 2 ^ T.width.bits → (T.arpe = false ∨ T.arr = T.arrSh) →
    T.cnt = 0 → T.pscCnt = 0 → T.uif = false →
    (∀ n, n < (P + 1) * (A + 1) →
      (clkTimes n T).uif = false ∧ (clkTimes n T).cnt.toNat = n / (P + 1) ∧
        (clkTimes n T).pscCnt.toNat = n % (P + 1)) ∧
    ((clkTimes ((P + 1) * (A + 1)) T).uif = true ∧ (clkTimes ((P + 1) * (A + 1)) T).cnt = 0 ∧
      (clkTimes ((P + 1) * (A + 1)) T).pscCnt = 0)

/-- R113, Down direction: from `cnt = A` and `psc_cnt = 0` with the flag clear, the first underflow comes
after exactly `(P+1)*(A+1)` clock cycles, and the counter is then `A` again. -/
def Obligations.UpdatePeriodCountingDown : Prop :=
  ∀ (T : Timer) (P A : Nat),
    T.cen = true → T.dir = .down → T.pscSh.toNat = P → T.psc = T.pscSh →
    T.arrSh.toNat = A → (T.arpe = false ∨ T.arr = T.arrSh) →
    T.cnt = T.arrSh → T.pscCnt = 0 → T.uif = false →
    (∀ n, n < (P + 1) * (A + 1) →
      (clkTimes n T).uif = false ∧ (clkTimes n T).cnt.toNat = A - n / (P + 1) ∧
        (clkTimes n T).pscCnt.toNat = n % (P + 1)) ∧
    ((clkTimes ((P + 1) * (A + 1)) T).uif = true ∧
      (clkTimes ((P + 1) * (A + 1)) T).cnt = T.arrSh ∧
      (clkTimes ((P + 1) * (A + 1)) T).pscCnt = 0)

/-- R114: `TCFG` with `0 ≤ p < 2^16` and `0 ≤ q < 2^W`, followed by `TUG`, leaves `psc_sh = psc = p` and
`arr_sh = arr = q`, whatever `arpe`. -/
def Obligations.ConfigureThenResynchronise : Prop :=
  ∀ (s : State) (t : TimerId) (d : Direction) (p q : Word) (T : Timer),
    s.timer t = some T → p.toNat < 2 ^ 16 → q.toNat < 2 ^ T.width.bits → 0 ≤ q.toInt →
    ∃ s' T', runCommands [.tcfg t d p q, .tug t] s = .next s' ∧ s'.timer t = some T' ∧
      T'.psc.toNat = p.toNat ∧ T'.pscSh.toNat = p.toNat ∧ T'.arr.toNat = q.toNat ∧
      T'.arrSh.toNat = q.toNat ∧ T'.cnt = 0 ∧ T'.clkEn = true ∧ T'.dir = d ∧ T'.cen = T.cen

/-- R116: counting Up with `arr_sh = 2^W - 1`, the counter after `n` ticks minus the counter before them,
modulo `2^W`, is `n` modulo `2^W`; so it is the number of ticks when fewer than `2^W` elapsed. -/
def Obligations.ModularDifferenceCountsTicks : Prop :=
  ∀ (T : Timer) (n : Nat),
    T.dir = .up → T.arrSh.toNat = 2 ^ T.width.bits - 1 → (T.arpe = false ∨ T.arr = T.arrSh) →
    T.cnt.toNat < 2 ^ T.width.bits →
    ((tickTimes n T).cnt.toNat + 2 ^ T.width.bits - T.cnt.toNat) % 2 ^ T.width.bits =
      n % 2 ^ T.width.bits

/-! ### Channels (spec 41_capture_compare.md) -/

/-- R140: `CCAP` of a valid channel emits the pin binding; on a clocked timer it puts the channel in
input mode with RisingEdge and opens the race window, and writes no other field; on an invalid identity it
has no effect. -/
def Obligations.CcapConfiguresInput : Prop :=
  ∀ (s : State) (t : TimerId) (n : ChanId) (b : Word),
    let bound := s.emit (.pinBind t n (BitVec.ofNat 8 (b.toNat / 256)) (BitVec.ofNat 8 b.toNat))
    ((s.timer t = none ∨ n.toNat = 0 ∨ 4 < n.toNat) → exec (.ccap t n b) s = .next s.complete) ∧
    (∀ (T : Timer) (i : ChanIdx), s.timer t = some T → i.val + 1 = n.toNat →
      (T.clkEn = false → exec (.ccap t n b) s = .next bound.complete) ∧
      (T.clkEn = true →
        exec (.ccap t n b) s =
          .next (bound.setTimer t (T.modChan i fun C =>
            { C with
              cce := true, ccs := 0b01, ocm := 0, ocpe := false, ccnp := false, ccp := false
              polrace := true })).complete))

/-- R142: `CCMP` of a valid channel with a sub-mode emits the pin binding, and on a clocked timer selects
the sub-mode with preload off, enables the output and refreshes the outputs; with mode None, or on an
invalid identity, it has no effect. -/
def Obligations.CcmpSelectsSubMode : Prop :=
  ∀ (s : State) (t : TimerId) (n : ChanId) (m : OutputMode) (b : Word),
    let bound := s.emit (.pinBind t n (BitVec.ofNat 8 (b.toNat / 256)) (BitVec.ofNat 8 b.toNat))
    ((s.timer t = none ∨ n.toNat = 0 ∨ 4 < n.toNat ∨ m = .none) →
      exec (.ccmp t n m b) s = .next s.complete) ∧
    (∀ (T : Timer) (i : ChanIdx), s.timer t = some T → i.val + 1 = n.toNat → m ≠ .none →
      (T.clkEn = false → exec (.ccmp t n m b) s = .next bound.complete) ∧
      (T.clkEn = true →
        exec (.ccmp t n m b) s =
          .next (bound.setTimer t (T.modChan i fun C =>
            { C with
              cce := true, ccs := 0b00, ocm := BitVec.ofNat 3 (modeCode m).toNat
              ocpe := false }).refreshOutputs).complete))

/-- R143: for every sub-mode, `CCMP` then `RREG` of CCMR1 (channels 1, 2) or CCMR2 (channels 3, 4) returns
a word whose bits 6:4 (odd channel) or 14:12 (even channel) are the mode's code, and the eight codes are
pairwise distinct. -/
def Obligations.OutputModeRoundTrip : Prop :=
  (∀ (s : State) (t : TimerId) (n : ChanId) (m : OutputMode) (b : Word) (T : Timer),
    s.timer t = some T → T.clkEn = true → 1 ≤ n.toNat → n.toNat ≤ 4 → m ≠ .none →
    ∃ (s' : State) (v : Word),
      runCommands [.ccmp t n m b, .rreg t (if n.toNat ≤ 2 then 0x18 else 0x1C)] s = .next s' ∧
      s'.ctx.results = s.ctx.results ++ [(v.toNat : Int)] ∧
      v.toNat / 2 ^ (if n.toNat % 2 = 1 then 4 else 12) % 8 = (modeCode m).toNat) ∧
  (∀ m m' : OutputMode, m ≠ .none → m' ≠ .none → modeCode m = modeCode m' → m = m')

/-- R144: `CPOL` of a valid channel of a clocked timer writes the two polarity bits and opens the race window,
and refreshes the outputs where the channel is in output mode; otherwise it has no effect. -/
def Obligations.CpolWritesPolarity : Prop :=
  ∀ (s : State) (t : TimerId) (n : ChanId) (k : Polarity),
    ((s.timer t = none ∨ n.toNat = 0 ∨ 4 < n.toNat ∨ ∃ T, s.timer t = some T ∧ T.clkEn = false) →
      exec (.cpol t n k) s = .next s.complete) ∧
    (∀ (T : Timer) (i : ChanIdx), s.timer t = some T → i.val + 1 = n.toNat → T.clkEn = true →
      let T' := T.modChan i fun C =>
        { C with ccnp := (polCode k).getLsbD 1, ccp := (polCode k).getLsbD 0, polrace := true }
      exec (.cpol t n k) s =
        .next (s.setTimer t (if (T.chan i).ccs = 0b00 then T'.refreshOutputs else T')).complete)

/-- R146: `CPWM` of a valid channel emits the pin binding; on a clocked timer it selects PWM2 if so
configured and PWM1 otherwise, sets both preload enables, the polarity and the race window, writes the
duty to the preload register alone, and refreshes the outputs; on an invalid identity it has no effect. -/
def Obligations.CpwmPreloadsDuty : Prop :=
  ∀ (s : State) (t : TimerId) (n : ChanId) (m : OutputMode) (k : Polarity) (d b : Word),
    let bound := s.emit (.pinBind t n (BitVec.ofNat 8 (b.toNat / 256)) (BitVec.ofNat 8 b.toNat))
    ((s.timer t = none ∨ n.toNat = 0 ∨ 4 < n.toNat) →
      exec (.cpwm t n m k d b) s = .next s.complete) ∧
    (∀ (T : Timer) (i : ChanIdx), s.timer t = some T → i.val + 1 = n.toNat →
      (T.clkEn = false → exec (.cpwm t n m k d b) s = .next bound.complete) ∧
      (T.clkEn = true →
        let T' := T.modChan i fun C =>
          { C with
            cce := true, ccs := 0b00, ocm := if m = .pwm2 then 0b111 else 0b110, ocpe := true
            ccnp := (polCode k).getLsbD 1, ccp := (polCode k).getLsbD 0, polrace := true
            ccr := BitVec.ofNat 32 (d.toNat % 2 ^ T.width.bits) }
        exec (.cpwm t n m k d b) s =
          .next (bound.setTimer t ({ T' with arpe := true } : Timer).refreshOutputs).complete))

/-- R148: `CDUTY` of a valid output channel of a clocked timer stores the duty unclamped, in the preload
register alone with preload on, in the active register too (with a refresh) with preload off; otherwise it
has no effect. -/
def Obligations.CdutyStoresUnclamped : Prop :=
  ∀ (s : State) (t : TimerId) (n : ChanId) (d : Word),
    ((s.timer t = none ∨ n.toNat = 0 ∨ 4 < n.toNat ∨
        ∃ T, s.timer t = some T ∧
          (T.clkEn = false ∨ ∃ i : ChanIdx, i.val + 1 = n.toNat ∧ (T.chan i).ccs ≠ 0b00)) →
      exec (.cduty t n d) s = .next s.complete) ∧
    (∀ (T : Timer) (i : ChanIdx), s.timer t = some T → i.val + 1 = n.toNat → T.clkEn = true →
      (T.chan i).ccs = 0b00 →
      let d' : Word := BitVec.ofNat 32 (d.toNat % 2 ^ T.width.bits)
      ((T.chan i).ocpe = true →
        exec (.cduty t n d) s =
          .next (s.setTimer t (T.modChan i fun C => { C with ccr := d' })).complete) ∧
      ((T.chan i).ocpe = false →
        exec (.cduty t n d) s =
          .next (s.setTimer t
            (T.modChan i fun C => { C with ccr := d', ccrSh := d' }).refreshOutputs).complete))

/-- R150: `CWAIT` completes, leaving the flag set, when the channel's flag is set on a clocked timer, and
holds otherwise; in the interrupt context, on an unrecognised timer and on an invalid channel, in this
order, it records its fault. -/
def Obligations.CwaitPollsChannelFlag : Prop :=
  ∀ (s : State) (t : TimerId) (n : ChanId),
    (s.ctx.mode = .handler → exec (.cwait t n) s = .next (s.raise .blockingInHandler)) ∧
    (s.ctx.mode = .main → s.timer t = none → exec (.cwait t n) s = .next (s.raise .unknownTimer)) ∧
    (s.ctx.mode = .main → s.timer t ≠ none → (n.toNat = 0 ∨ 4 < n.toNat) →
      exec (.cwait t n) s = .next (s.raise .invalidChannel)) ∧
    (∀ (T : Timer) (i : ChanIdx), s.ctx.mode = .main → s.timer t = some T → i.val + 1 = n.toNat →
      (T.clkEn = true → (T.chan i).ccif = true → exec (.cwait t n) s = .next s.complete) ∧
      ((T.clkEn = false ∨ (T.chan i).ccif = false) → exec (.cwait t n) s = .next s))

/-- R151: `CRD` appends -1 for an invalid identity and 0 for an unclocked timer; otherwise it appends the
capture/compare register as an int32, and clears the flag of a channel in input mode and no other. -/
def Obligations.CrdReturnsCapture : Prop :=
  ∀ (s : State) (t : TimerId) (n : ChanId),
    ((s.timer t = none ∨ n.toNat = 0 ∨ 4 < n.toNat) →
      exec (.crd t n) s = .next (s.result (-1)).complete) ∧
    (∀ (T : Timer) (i : ChanIdx), s.timer t = some T → i.val + 1 = n.toNat →
      (T.clkEn = false → exec (.crd t n) s = .next (s.result 0).complete) ∧
      (T.clkEn = true → (T.chan i).ccs = 0b01 →
        exec (.crd t n) s =
          .next ((s.setTimer t (T.modChan i fun C => { C with ccif := false })).result
            (T.chan i).ccr.toInt).complete) ∧
      (T.clkEn = true → (T.chan i).ccs ≠ 0b01 →
        exec (.crd t n) s = .next (s.result (T.chan i).ccr.toInt).complete))

/-- R63, R64, R152: `RREG` records `UnknownTimer` for an unrecognised timer, then `BadRegisterOffset` for
an offset outside the fourteen of R30, and appends 0 for an unclocked timer; on a clocked timer it appends
the word of the register at the offset, clearing the flag of a channel in input mode whose CCRc it reads
and changing no timer otherwise. -/
def Obligations.RregReturnsWord : Prop :=
  ∀ (s : State) (t : TimerId) (off : Word),
    let known := [0x00, 0x0C, 0x10, 0x14, 0x18, 0x1C, 0x20, 0x24, 0x28, 0x2C, 0x34, 0x38, 0x3C, 0x40]
    (s.timer t = none → exec (.rreg t off) s = .next (s.raise .unknownTimer)) ∧
    (s.timer t ≠ none → off.toNat ∉ known →
      exec (.rreg t off) s = .next (s.raise .badRegisterOffset)) ∧
    (∀ T, s.timer t = some T → off.toNat ∈ known →
      (T.clkEn = false → exec (.rreg t off) s = .next (s.result 0).complete) ∧
      (T.clkEn = true → ∃ r : Reg, regOf off = some r ∧
        (∀ i : ChanIdx, r = .ccr i → (T.chan i).ccs = 0b01 →
          exec (.rreg t off) s =
            .next ((s.setTimer t (T.modChan i fun C => { C with ccif := false })).result
              (T.word r).toNat).complete) ∧
        ((∀ i : ChanIdx, r = .ccr i → (T.chan i).ccs ≠ 0b01) →
          exec (.rreg t off) s = .next (s.result (T.word r).toNat).complete)))

/-- R31 to R34, R37, R38: every bit of CR1, DIER and SR at their offsets; EGR reads 0; CNT, PSC, ARR and
CCRc read the counter and the programmed values, not the active ones. -/
def Obligations.RegisterWordsByOffset : Prop :=
  ∀ (T : Timer) (j : Nat),
    ((regOf 0x00).map fun r => (T.word r).getLsbD j) =
      some (match j with | 0 => T.cen | 4 => T.dir == .down | 7 => T.arpe | _ => false) ∧
    ((regOf 0x0C).map fun r => (T.word r).getLsbD j) =
      some (match j with
        | 1 => (T.chan 0).ccie | 2 => (T.chan 1).ccie | 3 => (T.chan 2).ccie
        | 4 => (T.chan 3).ccie | _ => false) ∧
    ((regOf 0x10).map fun r => (T.word r).getLsbD j) =
      some (match j with
        | 0 => T.uif
        | 1 => (T.chan 0).ccif | 2 => (T.chan 1).ccif | 3 => (T.chan 2).ccif
        | 4 => (T.chan 3).ccif | _ => false) ∧
    (regOf 0x14).map T.word = some 0 ∧
    (regOf 0x24).map T.word = some T.cnt ∧
    (regOf 0x28).map T.word = some (BitVec.ofNat 32 T.psc.toNat) ∧
    (regOf 0x2C).map T.word = some T.arr ∧
    ∀ i : ChanIdx, (regOf (BitVec.ofNat 32 (0x34 + 4 * i.val))).map T.word = some (T.chan i).ccr

/-- R35, R36: the fields of channel `c` in CCMR1 or CCMR2 and in CCER, for each channel, and the bits that
read 0. -/
def Obligations.ChannelControlFields : Prop :=
  ∀ (T : Timer) (i : ChanIdx),
    (∃ r, regOf (if i.val < 2 then 0x18 else 0x1C) = some r ∧
      (T.word r).extractLsb' (8 * (i.val % 2)) 2 = (T.chan i).ccs ∧
      (T.word r).getLsbD (8 * (i.val % 2) + 2) = false ∧
      (T.word r).getLsbD (8 * (i.val % 2) + 3) = (T.chan i).ocpe ∧
      (T.word r).extractLsb' (8 * (i.val % 2) + 4) 3 = (T.chan i).ocm ∧
      (T.word r).getLsbD (8 * (i.val % 2) + 7) = false ∧ (T.word r).toNat < 2 ^ 16) ∧
    (∃ r, regOf 0x20 = some r ∧
      (T.word r).getLsbD (4 * i.val) = (T.chan i).cce ∧
      (T.word r).getLsbD (4 * i.val + 1) = (T.chan i).ccp ∧
      (T.word r).getLsbD (4 * i.val + 2) = false ∧
      (T.word r).getLsbD (4 * i.val + 3) = (T.chan i).ccnp ∧ (T.word r).toNat < 2 ^ 16)

/-- R154: `CIEN` sets the controller's enable of a valid channel's timer, and the channel's enable too on a
clocked timer; on an invalid identity it has no effect. -/
def Obligations.CienEnablesInterrupt : Prop :=
  ∀ (s : State) (t : TimerId) (n : ChanId),
    ((s.timer t = none ∨ n.toNat = 0 ∨ 4 < n.toNat) → exec (.cien t n) s = .next s.complete) ∧
    (∀ (T : Timer) (i : ChanIdx), s.timer t = some T → i.val + 1 = n.toNat →
      (T.clkEn = false →
        exec (.cien t n) s = .next (s.setTimer t { T with irqEn := true }).complete) ∧
      (T.clkEn = true →
        exec (.cien t n) s =
          .next (s.setTimer t
            { T.modChan i (fun C => { C with ccie := true }) with irqEn := true }).complete))

/-- R155, R156: on a valid channel of a clocked timer `CIDIS` clears the channel's interrupt enable and
`CCLR` its flag, and each changes nothing else (the pending latch keeps its value); otherwise each has no
effect. -/
def Obligations.CidisAndCclrClearOneBit : Prop :=
  ∀ (s : State) (t : TimerId) (n : ChanId),
    ((s.timer t = none ∨ n.toNat = 0 ∨ 4 < n.toNat ∨ ∃ T, s.timer t = some T ∧ T.clkEn = false) →
      exec (.cidis t n) s = .next s.complete ∧ exec (.cclr t n) s = .next s.complete) ∧
    (∀ (T : Timer) (i : ChanIdx), s.timer t = some T → i.val + 1 = n.toNat → T.clkEn = true →
      exec (.cidis t n) s =
        .next (s.setTimer t (T.modChan i fun C => { C with ccie := false })).complete ∧
      exec (.cclr t n) s =
        .next (s.setTimer t (T.modChan i fun C => { C with ccif := false })).complete)

/-- R170, R172: `SetInput` of a valid channel is enabled whatever the channel's state. No edge: nothing changes but the queue. An edge at a channel
that cannot capture: the pin level alone. An edge inside the race window: captured exactly when the model's
next free draw says so (the model's choice of a free value, notes/assumptions/3.md). Any other edge: captured exactly when the polarity selects it. -/
def Obligations.SetInputCapturesSelectedEdges : Prop :=
  ∀ (s : State) (t : TimerId) (n : ChanId) (v : Bool) (T : Timer) (i : ChanIdx),
    s.ctx.faults = [] → s.pick = .setInput t n v → s.timer t = some T → i.val + 1 = n.toNat →
    let ready := (T.chan i).ccs = 0b01 ∧ (T.chan i).cce = true ∧ T.clkEn = true
    let moved := T.modChan i fun C => { C with tin := v }
    let taken := T.modChan i fun C => { C with tin := v, ccr := T.cnt, ccif := true }
    let ends (k : Nat) (T' : Timer) : Prop :=
      step s = .next ({ s.takePick.setTimer t T' with draws := s.draws + k }).latchAll
    s.enabled (.setInput t n v) = true ∧
    ((T.chan i).tin = v → ends 0 T) ∧
    ((T.chan i).tin ≠ v → ¬ ready → ends 0 moved) ∧
    ((T.chan i).tin ≠ v → ready → (T.chan i).polrace = true →
      ends 1 (if Config.freeDraw s.draws then taken else moved)) ∧
    ((T.chan i).tin ≠ v → ready → (T.chan i).polrace = false →
      ((T.chan i).ccnp = false → (T.chan i).ccp = false → ends 0 (if v then taken else moved)) ∧
      ((T.chan i).ccnp = false → (T.chan i).ccp = true → ends 0 (if v then moved else taken)) ∧
      ((T.chan i).ccnp = true → (T.chan i).ccp = true → ends 0 taken))

/-- R172: `RaceGhost` is enabled exactly at a capturing channel inside its race window; it captures with no
pin change and closes the window. -/
def Obligations.RaceGhostCapturesOnce : Prop :=
  ∀ (s : State) (t : TimerId) (n : ChanId) (T : Timer) (i : ChanIdx),
    s.ctx.faults = [] → s.timer t = some T → i.val + 1 = n.toNat →
    (s.enabled (.raceGhost t n) = true ↔
      ((T.chan i).polrace = true ∧ (T.chan i).ccs = 0b01 ∧ (T.chan i).cce = true ∧ T.clkEn = true)) ∧
    (s.pick = .raceGhost t n → s.enabled (.raceGhost t n) = true →
      step s = .next (s.takePick.setTimer t (T.modChan i fun C =>
        { C with ccr := T.cnt, ccif := true, polrace := false })).latchAll)

/-- R175: in a tick, a channel in output mode whose active compare value equals the counter, both as the
tick's update event leaves them, sets its flag; Active, Inactive and Toggle act on the output reference and
Frozen leaves it. Any other channel keeps its flag, and its output reference in these four sub-modes. -/
def Obligations.CompareMatchSetsFlag : Prop :=
  ∀ (T : Timer) (i : ChanIdx),
    let C := T.chan i
    let C' := T.tick.chan i
    (C.ccs = 0b00 → T.tick.cnt = C'.ccrSh →
      C'.ccif = true ∧
      (C.ocm = 0b000 → C'.ocref = C.ocref) ∧
      (C.ocm = 0b001 → C'.ocref = true) ∧
      (C.ocm = 0b010 → C'.ocref = false) ∧
      (C.ocm = 0b011 → C'.ocref = !C.ocref)) ∧
    ((C.ccs ≠ 0b00 ∨ T.tick.cnt ≠ C'.ccrSh) →
      C'.ccif = C.ccif ∧ (C.ocm.toNat < 0b100 → C'.ocref = C.ocref))

/-- R180, R181, R182: the output of a channel in output mode, enabled, on a clocked timer, is its output
reference, inverted by `ccp`, in every sub-mode; of any other channel it is undriven. And after any tick, and
after every step of the main context that changed the direction of a timer or the sub-mode, the active compare
value or `ccp` of one of its channels, a driven channel in PWM1 counting Up is active below the active compare
value and counting Down at or below it, PWM2 is the complement, ForceActive and ForceInactive are constant:
`Timer.outputLaw` (that a command's step ends refreshed is notes/assumptions/2.md). -/
def Obligations.OutputLevelAfterTick : Prop :=
  (∀ (T : Timer) (i : ChanIdx),
    let C := T.chan i
    (C.ccs = 0b00 → C.cce = true → T.clkEn = true → T.out i = .driven (C.ocref ^^ C.ccp)) ∧
    ((C.ccs ≠ 0b00 ∨ C.cce = false ∨ T.clkEn = false) → T.out i = .undriven)) ∧
  (∀ T : Timer, T.tick.outputLaw) ∧
  ∀ (s s' : State) (t : TimerId) (T T' : Timer),
    s.pick = .main → step s = .next s' → s.timer t = some T → s'.timer t = some T' →
    (T'.dir ≠ T.dir ∨ ∃ i, (T'.chan i).ocm ≠ (T.chan i).ocm ∨ (T'.chan i).ccrSh ≠ (T.chan i).ccrSh ∨
      (T'.chan i).ccp ≠ (T.chan i).ccp) →
    T'.outputLaw

/-! ### The ranging sequencer (spec 42_ranging_sequencer.md) -/

/-- R205: `RPOLL` in the interrupt context records its fault; a poll in EchoRising or EchoFalling completes
and changes nothing else. -/
def Obligations.RpollInEchoStatesCompletes : Prop :=
  ∀ s : State,
    (s.ctx.mode = .handler → exec .rpoll s = .next (s.raise .blockingInHandler)) ∧
    (s.ctx.mode = .main → (s.seq.state = .echoRising ∨ s.seq.state = .echoFalling) →
      exec .rpoll s = .next s.complete)

/-- R210: `RPOLL` in Measurement: the distance from the modular difference, reported; the alert timer armed
below the threshold and disarmed otherwise; the state TriggerHigh; the poll completed. -/
def Obligations.RpollMeasures : Prop :=
  ∀ (s : State) (T : Timer),
    s.ctx.mode = .main → s.seq.state = .measurement → s.timer s.cfg.echoTimer = some T →
    let diff : Nat := (((s.seq.falling.toNat : Int) - s.seq.rising.toNat) % 2 ^ T.width.bits).toNat
    let dist : Word := BitVec.ofNat 32 ((diff * s.cfg.tickUs) % 2 ^ 32 / 58)
    let reported := ({ s with seq := { s.seq with dist := dist, state := .triggerHigh } }).emit (.report dist)
    (s.cfg.alertEnabled = false → exec .rpoll s = .next reported.complete) ∧
    (s.cfg.alertEnabled = true →
      exec .rpoll s =
        .next (reported.onClocked s.cfg.alertTimer fun A =>
          { A with cen := decide (dist.toNat < s.cfg.alertThresholdCm) }).complete)

/-- R206: `RPOLL` in TriggerHigh, phase by phase; every phase but Advance leaves the command
pointer; Resync and IrqEnable have the effect of `TUG E` and of `CIEN E, k`. -/
def Obligations.RpollTriggerPhases : Prop :=
  ∀ s : State, s.ctx.mode = .main → s.seq.state = .triggerHigh →
    let E := s.cfg.echoTimer
    (s.seq.ph = .settleReq → exec .rpoll s =
      .next (({ s with seq := { s.seq with delayBusy := true, ph := .settleWait } }).emit (.settleDelay 60))) ∧
    (s.seq.ph = .settleWait → s.seq.delayBusy = true → exec .rpoll s = .next s) ∧
    (s.seq.ph = .settleWait → s.seq.delayBusy = false → exec .rpoll s =
      .next { s with seq := { s.seq with ph := .resync } }) ∧
    (∀ s1, s.seq.ph = .resync → exec (.tug E) s = .next s1 →
      exec .rpoll s = .next { s1 with ctx := s.ctx, seq := { s.seq with ph := .trigHigh } }) ∧
    (s.seq.ph = .trigHigh → exec .rpoll s =
      .next (({ s with seq := { s.seq with trig := true, ph := .pulseWait } }).emit (.trigger true))) ∧
    (s.seq.ph = .pulseWait →
      (∀ T, s.timer E = some T → T.clkEn = true → s.cfg.trigTicks ≤ T.cnt.toNat →
        exec .rpoll s = .next { s with seq := { s.seq with ph := .trigLow } }) ∧
      (∀ T, s.timer E = some T → (T.clkEn = false ∨ T.cnt.toNat < s.cfg.trigTicks) →
        exec .rpoll s = .next s)) ∧
    (s.seq.ph = .trigLow → exec .rpoll s =
      .next (({ s with seq := { s.seq with trig := false, ph := .irqEnable } }).emit (.trigger false))) ∧
    (∀ s1, s.seq.ph = .irqEnable → exec (.cien E s.cfg.echoCh) s = .next s1 →
      exec .rpoll s = .next { s1 with ctx := s.ctx, seq := { s.seq with ph := .advance } }) ∧
    (s.seq.ph = .advance → exec .rpoll s =
      .next ({ s with seq := { s.seq with state := .echoRising, ph := .settleReq } }).complete)

/-- R207, R14: `DelayDone` is enabled exactly while a settle delay runs, and ends it; in every weakly fair run
(`WeaklyFair`, notes/assumptions/4.md) a settle delay that runs ends. -/
def Obligations.DelayDoneEndsSettleDelay : Prop :=
  (∀ s : State, s.ctx.faults = [] →
    (s.enabled .delayDone = true ↔ s.seq.delayBusy = true) ∧
    (s.pick = .delayDone → s.seq.delayBusy = true →
      step s = .next ({ s.takePick with seq := { s.seq with delayBusy := false } }).latchAll)) ∧
  ∀ (sch : Nat → Agent) (run : Nat → State), IsRun sch run → WeaklyFair sch run →
    ∀ n, (run n).seq.delayBusy = true → ∃ m, n ≤ m ∧ (run m).seq.delayBusy = false

/-- R212, R144, R254: an interrupt entry of the echo timer. The capture register is read first, which clears
the flag of a channel in input mode; the count is stored and the polarity switched in the two echo states, with
a refresh of the outputs where the channel is in output mode (and the channel interrupt disabled in
EchoFalling); nothing more happens in the other two. An unclocked echo timer gives the count 0 and changes in
nothing but its latch; so does an echo channel outside 1 to 4, which R8 excludes (notes/assumptions/15.md),
with the count of -1. On return the CPU is in Main and the line pends again only if still asserted. -/
def Obligations.EchoInterruptStoresCount : Prop :=
  ∀ (s : State) (T : Timer),
    let E := s.cfg.echoTimer
    s.ctx.faults = [] → s.pick = .irq E → s.timer E = some T → T.irqPend = true →
    let ends (T' : Timer) (q : Seq) : Prop :=
      step s = .next
        { s.takePick.setTimer E { T' with irqPend := T'.line && T'.irqEn } with
          seq := q
          ctx := { s.ctx with mode := .main } }
    let runs (count : Word) (read atRising atFalling : Timer) : Prop :=
      (s.seq.state = .echoRising →
        ends atRising { s.seq with rising := count, state := .echoFalling }) ∧
      (s.seq.state = .echoFalling →
        ends atFalling { s.seq with falling := count, state := .measurement }) ∧
      ((s.seq.state = .triggerHigh ∨ s.seq.state = .measurement) → ends read s.seq)
    (∀ i : ChanIdx, i.val + 1 = s.cfg.echoCh.toNat → T.clkEn = true →
      let shown (U : Timer) : Timer := if (T.chan i).ccs = 0b00 then U.refreshOutputs else U
      let read := if (T.chan i).ccs = 0b01 then T.modChan i fun C => { C with ccif := false } else T
      runs (T.chan i).ccr read
        (shown (read.modChan i fun C => { C with ccnp := false, ccp := true, polrace := true }))
        ((shown (read.modChan i fun C => { C with ccnp := false, ccp := false, polrace := true })).modChan i
          fun C => { C with ccie := false })) ∧
    (1 ≤ s.cfg.echoCh.toNat → s.cfg.echoCh.toNat ≤ 4 → T.clkEn = false → runs 0 T T T) ∧
    ((s.cfg.echoCh.toNat = 0 ∨ 4 < s.cfg.echoCh.toNat) → runs 0xFFFFFFFF T T T)

/-- R213: in each state exactly one of the two triggers moves the session; the other leaves every `Seq`
field. -/
def Obligations.WrongTriggerLeavesSession : Prop :=
  ∀ s s' : State,
    ((s.seq.state = .echoRising ∨ s.seq.state = .echoFalling) → exec .rpoll s = .next s' →
      s'.seq = s.seq) ∧
    (∀ t, s.pick = .irq t → step s = .next s' →
      ((s.seq.state = .triggerHigh ∨ s.seq.state = .measurement) → s'.seq = s.seq) ∧
      (s.enabled (.irq t) = true → t = s.cfg.echoTimer → s.seq.state = .echoRising →
        s'.seq.state = .echoFalling) ∧
      (s.enabled (.irq t) = true → t = s.cfg.echoTimer → s.seq.state = .echoFalling →
        s'.seq.state = .measurement)) ∧
    (s.ctx.mode = .main → s.seq.state = .measurement → exec .rpoll s = .next s' →
      s'.seq.state = .triggerHigh) ∧
    (s.ctx.mode = .main → s.seq.state = .triggerHigh → s.seq.ph = .advance →
      exec .rpoll s = .next s' → s'.seq.state = .echoRising)

/-! ### Interrupts (spec 60_exceptions.md) -/

/-- R253: an interrupt entry of a timer other than the echo timer records `UnhandledInterrupt` at the
interrupted pointer, so no step follows. -/
def Obligations.UnhandledInterruptFaults : Prop :=
  ∀ (s : State) (t : TimerId),
    s.pick = .irq t → s.enabled (.irq t) = true → t ≠ s.cfg.echoTimer →
    ∃ s', step s = .next s' ∧ s'.ctx.faults = [(.unhandledInterrupt, s.ctx.pc)] ∧
      step s' = .fault (.halted .unhandledInterrupt)

/-- R252, R254, R255: with no fault recorded, `Irq(t)` is enabled exactly while a recognised timer's latch is
set; its step returns control to the point interrupted: the command pointer, the phase, the results and the
trace are as they were, the CPU is in Main, and the timer's own latch says whether its line is still asserted
and enabled; and in every weakly fair run (`WeaklyFair`, notes/assumptions/4.md) a pending interrupt is
eventually taken. -/
def Obligations.IrqReturnsToInterruptedPoint : Prop :=
  (∀ (s : State) (t : TimerId), s.ctx.faults = [] →
    (s.enabled (.irq t) = true ↔ ∃ T, s.timer t = some T ∧ T.irqPend = true)) ∧
  (∀ (s s' : State) (t : TimerId),
    s.pick = .irq t → s.enabled (.irq t) = true → step s = .next s' →
    s'.ctx.pc = s.ctx.pc ∧ s'.seq.ph = s.seq.ph ∧ s'.ctx.results = s.ctx.results ∧
      s'.ctx.trace = s.ctx.trace ∧ s'.ctx.mode = .main ∧ s'.ctx.refused = s.ctx.refused ∧
      (∀ T', s'.timer t = some T' → T'.irqPend = (T'.line && T'.irqEn)) ∧
      (∀ u, u ≠ t → s'.timer u = s.timer u)) ∧
  ∀ (sch : Nat → Agent) (run : Nat → State), IsRun sch run → WeaklyFair sch run →
    ∀ n t T, (run n).timer t = some T → T.irqPend = true →
      ∃ m, n ≤ m ∧ sch m = .irq t ∧ (run m).enabled (.irq t) = true

/-- R251: after every step other than an `Irq` step, `irq_pend` of every timer is its old value or the
line, enabled, in the step's end state. -/
def Obligations.PendingLatchAfterStep : Prop :=
  ∀ (s s' : State) (t : TimerId) (T T' : Timer),
    step s = .next s' → s.enabled s.pick = true → (∀ u, s.pick ≠ .irq u) →
    s.timer t = some T → s'.timer t = some T' →
    T'.irqPend = (T.irqPend || (T'.line && T'.irqEn))

/-! ### Invariants every step keeps, and whole-machine rules -/

/-- R27: the state's invariant (every `W`-bit field below `2^W`, `ccs` 0b00 or 0b01, an input channel with
sub-mode and preload 0, no reserved polarity pair, the mode Main, a phase other than SettleReq only in
TriggerHigh) is kept by every step of every agent. -/
def Obligations.StepKeepsInvariant : Prop :=
  ∀ s s' : State, s.wf = true → step s = .next s' → s'.wf = true

/-- R281, R27, R115, R251: the state after reset meets the three invariants, for every timer set,
parameters, program, pin levels and schedule. -/
def Obligations.ResetMeetsInvariants : Prop :=
  ∀ (ts : TimerSet) (p : Params) (boot loop : List Cmd) (tin : Vector (Vector Bool 4) 16)
    (sched : List Agent),
    let s := State.resetFor ts p boot loop tin sched
    s.wf = true ∧ ∀ t T, s.timer t = some T → T.linePends = true ∧ T.belowPeriod = true

/-- R281, R282, R283: right after reset, for every timer set, parameters, program, pin levels and
schedule: the timers are those of the set, every timer field is 0 but `arr` and `arr_sh` (`ARR_RESET`), every
channel field is 0 but `tin`, every register word is 0 but ARR, every output is undriven, no `Clk` and no `Irq` step is enabled, the sequencer
and the contexts are as their tables say. -/
def Obligations.ResetValues : Prop :=
  ∀ (ts : TimerSet) (p : Params) (boot loop : List Cmd) (tin : Vector (Vector Bool 4) 16)
    (sched : List Agent) (t : TimerId),
    let s := State.resetFor ts p boot loop tin sched
    s.enabled (.clk t) = false ∧ s.enabled (.irq t) = false ∧
    ((s.timer t).isSome = (ts[t.toNat]'t.isLt).isSome) ∧
    (∀ T q, s.timer t = some T → ts[t.toNat]'t.isLt = some q →
      T = { T with
            width := q.width, clkEn := false, cen := false, dir := .up, arpe := false, psc := 0
            pscSh := 0, pscCnt := 0
            arr := if q.arrMax then BitVec.ofNat 32 (2 ^ q.width.bits - 1) else 0
            arrSh := if q.arrMax then BitVec.ofNat 32 (2 ^ q.width.bits - 1) else 0
            cnt := 0, uif := false, irqEn := false, irqPend := false } ∧
      ∀ i : ChanIdx, T.out i = .undriven ∧
        T.chan i = ⟨0b00, false, false, false, 0, false, false, false, 0, 0, false,
          (tin[t.toNat]'t.isLt)[i.val], false⟩) ∧
    (∀ T, s.timer t = some T → T.word .arr = T.arr ∧ ∀ r : Reg, r ≠ .arr → T.word r = 0) ∧
    s.seq = ⟨.triggerHigh, .settleReq, false, 0, 0, 0, false⟩ ∧
    s.ctx = ⟨.main, if boot = [] then ⟨.loop, 0⟩ else ⟨.boot, 0⟩, [], [], [], false⟩

/-- R251, R254: every step of every agent keeps this: an asserted and enabled line is pending. -/
def Obligations.StepKeepsLinePending : Prop :=
  ∀ s s' : State, (∀ t T, s.timer t = some T → T.linePends = true) → step s = .next s' →
    ∀ t T, s'.timer t = some T → T.linePends = true

/-- R115: every step of every agent keeps this: counting Up, no counter is above its active period. -/
def Obligations.StepKeepsCounterBelowPeriod : Prop :=
  ∀ s s' : State, (∀ t T, s.timer t = some T → T.belowPeriod = true) →
    step s = .next s' → ∀ t T, s'.timer t = some T → T.belowPeriod = true

/-- R22, R72: no step adds, removes or re-sizes a timer, and none writes a parameter or the main
program. -/
def Obligations.StepKeepsParameters : Prop :=
  ∀ s s' : State, step s = .next s' →
    s'.cfg = s.cfg ∧ s'.boot = s.boot ∧ s'.loop = s.loop ∧
      ∀ t, (s'.timer t).map Timer.width = (s.timer t).map Timer.width

/-- R28, R215: only an interrupt entry of the echo timer writes the two counts or moves the session out of
EchoRising or EchoFalling; only `RPOLL` of the main context moves it out of the other two states or writes
the distance, the trigger level or the phase. -/
def Obligations.SessionHasSingleWriters : Prop :=
  ∀ s s' : State, step s = .next s' →
    ((s'.seq.rising ≠ s.seq.rising ∨ s'.seq.falling ≠ s.seq.falling ∨
        ((s.seq.state = .echoRising ∨ s.seq.state = .echoFalling) ∧ s'.seq.state ≠ s.seq.state)) →
      s.pick = .irq s.cfg.echoTimer) ∧
    ((s'.seq.dist ≠ s.seq.dist ∨ s'.seq.trig ≠ s.seq.trig ∨ s'.seq.ph ≠ s.seq.ph ∨
        ((s.seq.state = .triggerHigh ∨ s.seq.state = .measurement) ∧ s'.seq.state ≠ s.seq.state)) →
      s.pick = .main ∧ ∃ c, s.fetch = some c ∧ decode c = .ok .rpoll)

/-- R141: only `CCAP` of a channel puts it in input mode and only `CCMP` and `CPWM` of it put it in output
mode: no other step of any agent changes its `ccs`. -/
def Obligations.RoleChangesOnlyByInit : Prop :=
  ∀ (s s' : State) (t : TimerId) (T T' : Timer) (i : ChanIdx),
    step s = .next s' → s.timer t = some T → s'.timer t = some T' →
    (T'.chan i).ccs ≠ (T.chan i).ccs →
    s.pick = .main ∧ ∃ c, s.fetch = some c ∧ ∃ n b, i.val + 1 = n.toNat ∧
      ((decode c = .ok (.ccap t n b) ∧ (T'.chan i).ccs = 0b01) ∨
       ((∃ m, decode c = .ok (.ccmp t n m b)) ∧ (T'.chan i).ccs = 0b00) ∨
       ((∃ m k d, decode c = .ok (.cpwm t n m k d b)) ∧ (T'.chan i).ccs = 0b00))

/-- R305: no command other than `TDLY` of the timer, and no other step of any agent, clears the update
flag. -/
def Obligations.OnlyTdlyClearsUpdateFlag : Prop :=
  ∀ (s s' : State) (t : TimerId) (T T' : Timer),
    step s = .next s' → s.timer t = some T → s'.timer t = some T' →
    T.uif = true → T'.uif = false →
    s.pick = .main ∧ ∃ c, s.fetch = some c ∧ decode c = .ok (.tdly t)

/-- R316: no step moves a counter but `Clk(t)`, and, of the commands, `TCFG t`, `TUG t` and, on the echo timer
in phase Resync of TriggerHigh, `RPOLL`, which leave it 0. -/
def Obligations.OnlyTheseMoveCounter : Prop :=
  ∀ (s s' : State) (t : TimerId) (T T' : Timer),
    step s = .next s' → s.timer t = some T → s'.timer t = some T' → T'.cnt ≠ T.cnt →
    (s.pick = .clk t ∧ T.clkEn = true ∧ T.cen = true) ∨
    (s.pick = .main ∧ T'.cnt = 0 ∧ ∃ c, s.fetch = some c ∧
      ((∃ d p q, decode c = .ok (.tcfg t d p q)) ∨ decode c = .ok (.tug t) ∨
        (decode c = .ok .rpoll ∧ s.seq.state = .triggerHigh ∧ s.seq.ph = .resync ∧
          t = s.cfg.echoTimer)))

/-- R100, R250: no step of any agent turns a timer's clock off or clears the interrupt controller's enable
of its line. -/
def Obligations.EnablesNeverCleared : Prop :=
  ∀ (s s' : State) (t : TimerId) (T T' : Timer),
    step s = .next s' → s.timer t = some T → s'.timer t = some T' →
    (T.clkEn = true → T'.clkEn = true) ∧ (T.irqEn = true → T'.irqEn = true)

/-- R13, R15, R241: what a run shows only grows. Every step keeps the results and the events recorded before
it, in their order; and from every state, one with recorded faults too, every command and every interrupt
entry keep the results, the events and the faults recorded before it, in their order. -/
def Obligations.ObservationsOnlyGrow : Prop :=
  let grows (s s' : State) : Prop :=
    (∃ l, s'.ctx.results = s.ctx.results ++ l) ∧ (∃ l, s'.ctx.trace = s.ctx.trace ++ l) ∧
      ∃ l, s'.ctx.faults = s.ctx.faults ++ l
  (∀ s s' : State, step s = .next s' → grows s s') ∧
  (∀ (i : Instr) (s s' : State), exec i s = .next s' → grows s s') ∧
  (∀ (t : TimerId) (s : State), grows s (irqStep t s))

/-- R67, R283: a timer whose clock is off is frozen for the commands: whatever the main context executes,
every field of it but the interrupt controller's enable keeps its value, unless the command is a `TCFG` of
that timer. -/
def Obligations.UnclockedTimerIgnoresCommands : Prop :=
  ∀ (i : Instr) (s s' : State) (t : TimerId) (T T' : Timer),
    exec i s = .next s' → s.timer t = some T → T.clkEn = false →
    (∀ d p q, i ≠ .tcfg t d p q) → s'.timer t = some T' →
    T' = { T with irqEn := T'.irqEn }
end

