-- ==== Sys2Proof/Laws/State.lean ====
section
/-! SUPPORT. The small lemmas of the record updates: one per field per update, so that no proof unfolds
one. -/

namespace Sys2Proof.Machine

/-! ### Replacing a timer -/

@[simp] theorem State.cfg_setTimer (s : State) (t : TimerId) (T : Timer) :
    (s.setTimer t T).cfg = s.cfg := rfl
@[simp] theorem State.boot_setTimer (s : State) (t : TimerId) (T : Timer) :
    (s.setTimer t T).boot = s.boot := rfl
@[simp] theorem State.loop_setTimer (s : State) (t : TimerId) (T : Timer) :
    (s.setTimer t T).loop = s.loop := rfl
@[simp] theorem State.seq_setTimer (s : State) (t : TimerId) (T : Timer) :
    (s.setTimer t T).seq = s.seq := rfl
@[simp] theorem State.ctx_setTimer (s : State) (t : TimerId) (T : Timer) :
    (s.setTimer t T).ctx = s.ctx := rfl
@[simp] theorem State.sched_setTimer (s : State) (t : TimerId) (T : Timer) :
    (s.setTimer t T).sched = s.sched := rfl
@[simp] theorem State.picks_setTimer (s : State) (t : TimerId) (T : Timer) :
    (s.setTimer t T).picks = s.picks := rfl
@[simp] theorem State.draws_setTimer (s : State) (t : TimerId) (T : Timer) :
    (s.setTimer t T).draws = s.draws := rfl

/-! ### `emit` -/

@[simp] theorem State.cfg_emit (s : State) (e : Event) : (s.emit e).cfg = s.cfg := rfl
@[simp] theorem State.boot_emit (s : State) (e : Event) : (s.emit e).boot = s.boot := rfl
@[simp] theorem State.loop_emit (s : State) (e : Event) : (s.emit e).loop = s.loop := rfl
@[simp] theorem State.tm_emit (s : State) (e : Event) : (s.emit e).tm = s.tm := rfl
@[simp] theorem State.seq_emit (s : State) (e : Event) : (s.emit e).seq = s.seq := rfl
@[simp] theorem State.sched_emit (s : State) (e : Event) : (s.emit e).sched = s.sched := rfl
@[simp] theorem State.picks_emit (s : State) (e : Event) : (s.emit e).picks = s.picks := rfl
@[simp] theorem State.draws_emit (s : State) (e : Event) : (s.emit e).draws = s.draws := rfl
@[simp] theorem State.ctx_mode_emit (s : State) (e : Event) :
    (s.emit e).ctx.mode = s.ctx.mode := rfl
@[simp] theorem State.ctx_pc_emit (s : State) (e : Event) : (s.emit e).ctx.pc = s.ctx.pc := rfl
@[simp] theorem State.ctx_results_emit (s : State) (e : Event) :
    (s.emit e).ctx.results = s.ctx.results := rfl
@[simp] theorem State.ctx_trace_emit (s : State) (e : Event) :
    (s.emit e).ctx.trace = s.ctx.trace ++ [e] := rfl
@[simp] theorem State.ctx_faults_emit (s : State) (e : Event) :
    (s.emit e).ctx.faults = s.ctx.faults := rfl
@[simp] theorem State.ctx_refused_emit (s : State) (e : Event) :
    (s.emit e).ctx.refused = s.ctx.refused := rfl

/-! ### `result` -/

@[simp] theorem State.cfg_result (s : State) (v : Int) : (s.result v).cfg = s.cfg := rfl
@[simp] theorem State.boot_result (s : State) (v : Int) : (s.result v).boot = s.boot := rfl
@[simp] theorem State.loop_result (s : State) (v : Int) : (s.result v).loop = s.loop := rfl
@[simp] theorem State.tm_result (s : State) (v : Int) : (s.result v).tm = s.tm := rfl
@[simp] theorem State.seq_result (s : State) (v : Int) : (s.result v).seq = s.seq := rfl
@[simp] theorem State.sched_result (s : State) (v : Int) : (s.result v).sched = s.sched := rfl
@[simp] theorem State.picks_result (s : State) (v : Int) : (s.result v).picks = s.picks := rfl
@[simp] theorem State.draws_result (s : State) (v : Int) : (s.result v).draws = s.draws := rfl
@[simp] theorem State.ctx_mode_result (s : State) (v : Int) :
    (s.result v).ctx.mode = s.ctx.mode := rfl
@[simp] theorem State.ctx_pc_result (s : State) (v : Int) : (s.result v).ctx.pc = s.ctx.pc := rfl
@[simp] theorem State.ctx_results_result (s : State) (v : Int) :
    (s.result v).ctx.results = s.ctx.results ++ [v] := rfl
@[simp] theorem State.ctx_trace_result (s : State) (v : Int) :
    (s.result v).ctx.trace = s.ctx.trace := rfl
@[simp] theorem State.ctx_faults_result (s : State) (v : Int) :
    (s.result v).ctx.faults = s.ctx.faults := rfl
@[simp] theorem State.ctx_refused_result (s : State) (v : Int) :
    (s.result v).ctx.refused = s.ctx.refused := rfl

/-! ### `raise` -/

@[simp] theorem State.cfg_raise (s : State) (r : FaultReason) : (s.raise r).cfg = s.cfg := rfl
@[simp] theorem State.boot_raise (s : State) (r : FaultReason) : (s.raise r).boot = s.boot := rfl
@[simp] theorem State.loop_raise (s : State) (r : FaultReason) : (s.raise r).loop = s.loop := rfl
@[simp] theorem State.tm_raise (s : State) (r : FaultReason) : (s.raise r).tm = s.tm := rfl
@[simp] theorem State.seq_raise (s : State) (r : FaultReason) : (s.raise r).seq = s.seq := rfl
@[simp] theorem State.sched_raise (s : State) (r : FaultReason) : (s.raise r).sched = s.sched := rfl
@[simp] theorem State.picks_raise (s : State) (r : FaultReason) : (s.raise r).picks = s.picks := rfl
@[simp] theorem State.draws_raise (s : State) (r : FaultReason) : (s.raise r).draws = s.draws := rfl
@[simp] theorem State.ctx_mode_raise (s : State) (r : FaultReason) :
    (s.raise r).ctx.mode = s.ctx.mode := rfl
@[simp] theorem State.ctx_pc_raise (s : State) (r : FaultReason) :
    (s.raise r).ctx.pc = s.ctx.pc := rfl
@[simp] theorem State.ctx_results_raise (s : State) (r : FaultReason) :
    (s.raise r).ctx.results = s.ctx.results := rfl
@[simp] theorem State.ctx_trace_raise (s : State) (r : FaultReason) :
    (s.raise r).ctx.trace = s.ctx.trace := rfl
@[simp] theorem State.ctx_faults_raise (s : State) (r : FaultReason) :
    (s.raise r).ctx.faults = s.ctx.faults ++ [(r, s.ctx.pc)] := rfl
@[simp] theorem State.ctx_refused_raise (s : State) (r : FaultReason) :
    (s.raise r).ctx.refused = s.ctx.refused := rfl

/-! ### Changing the sequencer -/

@[simp] theorem State.cfg_modSeq (s : State) (f : Seq → Seq) : (s.modSeq f).cfg = s.cfg := rfl
@[simp] theorem State.boot_modSeq (s : State) (f : Seq → Seq) : (s.modSeq f).boot = s.boot := rfl
@[simp] theorem State.loop_modSeq (s : State) (f : Seq → Seq) : (s.modSeq f).loop = s.loop := rfl
@[simp] theorem State.tm_modSeq (s : State) (f : Seq → Seq) : (s.modSeq f).tm = s.tm := rfl
@[simp] theorem State.seq_modSeq (s : State) (f : Seq → Seq) : (s.modSeq f).seq = f s.seq := rfl
@[simp] theorem State.ctx_modSeq (s : State) (f : Seq → Seq) : (s.modSeq f).ctx = s.ctx := rfl
@[simp] theorem State.sched_modSeq (s : State) (f : Seq → Seq) : (s.modSeq f).sched = s.sched := rfl
@[simp] theorem State.picks_modSeq (s : State) (f : Seq → Seq) : (s.modSeq f).picks = s.picks := rfl
@[simp] theorem State.draws_modSeq (s : State) (f : Seq → Seq) : (s.modSeq f).draws = s.draws := rfl

/-! ### Completion (R45) -/

@[simp] theorem State.cfg_complete (s : State) :
    s.complete.cfg = s.cfg := by
  unfold State.complete; split <;> rfl
@[simp] theorem State.boot_complete (s : State) :
    s.complete.boot = s.boot := by
  unfold State.complete; split <;> rfl
@[simp] theorem State.loop_complete (s : State) :
    s.complete.loop = s.loop := by
  unfold State.complete; split <;> rfl
@[simp] theorem State.tm_complete (s : State) :
    s.complete.tm = s.tm := by
  unfold State.complete; split <;> rfl
@[simp] theorem State.seq_complete (s : State) :
    s.complete.seq = s.seq := by
  unfold State.complete; split <;> rfl
@[simp] theorem State.sched_complete (s : State) :
    s.complete.sched = s.sched := by
  unfold State.complete; split <;> rfl
@[simp] theorem State.picks_complete (s : State) :
    s.complete.picks = s.picks := by
  unfold State.complete; split <;> rfl
@[simp] theorem State.draws_complete (s : State) :
    s.complete.draws = s.draws := by
  unfold State.complete; split <;> rfl
@[simp] theorem State.ctx_mode_complete (s : State) :
    s.complete.ctx.mode = s.ctx.mode := by
  unfold State.complete; split <;> rfl
@[simp] theorem State.ctx_results_complete (s : State) :
    s.complete.ctx.results = s.ctx.results := by
  unfold State.complete; split <;> rfl
@[simp] theorem State.ctx_trace_complete (s : State) :
    s.complete.ctx.trace = s.ctx.trace := by
  unfold State.complete; split <;> rfl
@[simp] theorem State.ctx_faults_complete (s : State) :
    s.complete.ctx.faults = s.ctx.faults := by
  unfold State.complete; split <;> rfl
@[simp] theorem State.ctx_refused_complete (s : State) :
    s.complete.ctx.refused = s.ctx.refused := by
  unfold State.complete; split <;> rfl

/-- In the main context, completion moves the pointer as R45 says. -/
theorem State.ctx_pc_complete_main (s : State) (h : s.ctx.mode = .main) :
    s.complete.ctx.pc = s.ctx.pc.next s.boot.length s.loop.length := by
  unfold State.complete; rw [h]

/-- In the interrupt context, completion leaves the pointer. -/
theorem State.complete_handler (s : State) (h : s.ctx.mode = .handler) : s.complete = s := by
  unfold State.complete; rw [h]

/-! ### A hold writes nothing -/

@[simp] theorem State.hold_eq (s : State) : s.hold = s := rfl

/-! ### The pending latches -/

@[simp] theorem State.cfg_latchAll (s : State) : s.latchAll.cfg = s.cfg := rfl
@[simp] theorem State.boot_latchAll (s : State) : s.latchAll.boot = s.boot := rfl
@[simp] theorem State.loop_latchAll (s : State) : s.latchAll.loop = s.loop := rfl
@[simp] theorem State.seq_latchAll (s : State) : s.latchAll.seq = s.seq := rfl
@[simp] theorem State.ctx_latchAll (s : State) : s.latchAll.ctx = s.ctx := rfl
@[simp] theorem State.sched_latchAll (s : State) : s.latchAll.sched = s.sched := rfl
@[simp] theorem State.picks_latchAll (s : State) : s.latchAll.picks = s.picks := rfl
@[simp] theorem State.draws_latchAll (s : State) : s.latchAll.draws = s.draws := rfl

/-! ### Taking the scheduler's pick -/

@[simp] theorem State.cfg_takePick (s : State) :
    s.takePick.cfg = s.cfg := by
  unfold State.takePick; split <;> rfl
@[simp] theorem State.boot_takePick (s : State) :
    s.takePick.boot = s.boot := by
  unfold State.takePick; split <;> rfl
@[simp] theorem State.loop_takePick (s : State) :
    s.takePick.loop = s.loop := by
  unfold State.takePick; split <;> rfl
@[simp] theorem State.tm_takePick (s : State) :
    s.takePick.tm = s.tm := by
  unfold State.takePick; split <;> rfl
@[simp] theorem State.seq_takePick (s : State) :
    s.takePick.seq = s.seq := by
  unfold State.takePick; split <;> rfl
@[simp] theorem State.ctx_takePick (s : State) :
    s.takePick.ctx = s.ctx := by
  unfold State.takePick; split <;> rfl
@[simp] theorem State.draws_takePick (s : State) :
    s.takePick.draws = s.draws := by
  unfold State.takePick; split <;> rfl

/-! ### `onTimer`: a write to a timer changes nothing else -/

@[simp] theorem State.cfg_onTimer (s : State) (t : TimerId) (f : Timer → Timer) :
    (s.onTimer t f).cfg = s.cfg := by
  unfold State.onTimer; split <;> rfl
@[simp] theorem State.boot_onTimer (s : State) (t : TimerId) (f : Timer → Timer) :
    (s.onTimer t f).boot = s.boot := by
  unfold State.onTimer; split <;> rfl
@[simp] theorem State.loop_onTimer (s : State) (t : TimerId) (f : Timer → Timer) :
    (s.onTimer t f).loop = s.loop := by
  unfold State.onTimer; split <;> rfl
@[simp] theorem State.seq_onTimer (s : State) (t : TimerId) (f : Timer → Timer) :
    (s.onTimer t f).seq = s.seq := by
  unfold State.onTimer; split <;> rfl
@[simp] theorem State.ctx_onTimer (s : State) (t : TimerId) (f : Timer → Timer) :
    (s.onTimer t f).ctx = s.ctx := by
  unfold State.onTimer; split <;> rfl
@[simp] theorem State.sched_onTimer (s : State) (t : TimerId) (f : Timer → Timer) :
    (s.onTimer t f).sched = s.sched := by
  unfold State.onTimer; split <;> rfl
@[simp] theorem State.picks_onTimer (s : State) (t : TimerId) (f : Timer → Timer) :
    (s.onTimer t f).picks = s.picks := by
  unfold State.onTimer; split <;> rfl
@[simp] theorem State.draws_onTimer (s : State) (t : TimerId) (f : Timer → Timer) :
    (s.onTimer t f).draws = s.draws := by
  unfold State.onTimer; split <;> rfl

/-! ### `onClocked`: a write to a timer changes nothing else -/

@[simp] theorem State.cfg_onClocked (s : State) (t : TimerId) (f : Timer → Timer) :
    (s.onClocked t f).cfg = s.cfg := by
  simp [State.onClocked]
@[simp] theorem State.boot_onClocked (s : State) (t : TimerId) (f : Timer → Timer) :
    (s.onClocked t f).boot = s.boot := by
  simp [State.onClocked]
@[simp] theorem State.loop_onClocked (s : State) (t : TimerId) (f : Timer → Timer) :
    (s.onClocked t f).loop = s.loop := by
  simp [State.onClocked]
@[simp] theorem State.seq_onClocked (s : State) (t : TimerId) (f : Timer → Timer) :
    (s.onClocked t f).seq = s.seq := by
  simp [State.onClocked]
@[simp] theorem State.ctx_onClocked (s : State) (t : TimerId) (f : Timer → Timer) :
    (s.onClocked t f).ctx = s.ctx := by
  simp [State.onClocked]
@[simp] theorem State.sched_onClocked (s : State) (t : TimerId) (f : Timer → Timer) :
    (s.onClocked t f).sched = s.sched := by
  simp [State.onClocked]
@[simp] theorem State.picks_onClocked (s : State) (t : TimerId) (f : Timer → Timer) :
    (s.onClocked t f).picks = s.picks := by
  simp [State.onClocked]
@[simp] theorem State.draws_onClocked (s : State) (t : TimerId) (f : Timer → Timer) :
    (s.onClocked t f).draws = s.draws := by
  simp [State.onClocked]

/-! ### `onChan`: a write to a timer changes nothing else -/

@[simp] theorem State.cfg_onChan (s : State) (t : TimerId) (n : ChanId) (f : Timer → ChanIdx → Timer) :
    (s.onChan t n f).cfg = s.cfg := by
  unfold State.onChan; split <;> simp
@[simp] theorem State.boot_onChan (s : State) (t : TimerId) (n : ChanId) (f : Timer → ChanIdx → Timer) :
    (s.onChan t n f).boot = s.boot := by
  unfold State.onChan; split <;> simp
@[simp] theorem State.loop_onChan (s : State) (t : TimerId) (n : ChanId) (f : Timer → ChanIdx → Timer) :
    (s.onChan t n f).loop = s.loop := by
  unfold State.onChan; split <;> simp
@[simp] theorem State.seq_onChan (s : State) (t : TimerId) (n : ChanId) (f : Timer → ChanIdx → Timer) :
    (s.onChan t n f).seq = s.seq := by
  unfold State.onChan; split <;> simp
@[simp] theorem State.ctx_onChan (s : State) (t : TimerId) (n : ChanId) (f : Timer → ChanIdx → Timer) :
    (s.onChan t n f).ctx = s.ctx := by
  unfold State.onChan; split <;> simp
@[simp] theorem State.sched_onChan (s : State) (t : TimerId) (n : ChanId) (f : Timer → ChanIdx → Timer) :
    (s.onChan t n f).sched = s.sched := by
  unfold State.onChan; split <;> simp
@[simp] theorem State.picks_onChan (s : State) (t : TimerId) (n : ChanId) (f : Timer → ChanIdx → Timer) :
    (s.onChan t n f).picks = s.picks := by
  unfold State.onChan; split <;> simp
@[simp] theorem State.draws_onChan (s : State) (t : TimerId) (n : ChanId) (f : Timer → ChanIdx → Timer) :
    (s.onChan t n f).draws = s.draws := by
  unfold State.onChan; split <;> simp

/-! ### One free draw -/

@[simp] theorem State.cfg_draw (s : State) : s.draw.2.cfg = s.cfg := rfl
@[simp] theorem State.boot_draw (s : State) : s.draw.2.boot = s.boot := rfl
@[simp] theorem State.loop_draw (s : State) : s.draw.2.loop = s.loop := rfl
@[simp] theorem State.tm_draw (s : State) : s.draw.2.tm = s.tm := rfl
@[simp] theorem State.seq_draw (s : State) : s.draw.2.seq = s.seq := rfl
@[simp] theorem State.ctx_draw (s : State) : s.draw.2.ctx = s.ctx := rfl
@[simp] theorem State.sched_draw (s : State) : s.draw.2.sched = s.sched := rfl
@[simp] theorem State.picks_draw (s : State) : s.draw.2.picks = s.picks := rfl
@[simp] theorem State.draws_draw (s : State) : s.draw.2.draws = s.draws + 1 := rfl
@[simp] theorem State.draw_fst (s : State) : s.draw.1 = Config.freeDraw s.draws := rfl

/-! ### Entering and leaving the interrupt context (R254) -/

@[simp] theorem State.cfg_enterIrq (s : State) (t : TimerId) :
    (s.enterIrq t).cfg = s.cfg := by
  simp [State.enterIrq]
@[simp] theorem State.cfg_returnIrq (s : State) (t : TimerId) :
    (s.returnIrq t).cfg = s.cfg := by
  simp [State.returnIrq]
@[simp] theorem State.boot_enterIrq (s : State) (t : TimerId) :
    (s.enterIrq t).boot = s.boot := by
  simp [State.enterIrq]
@[simp] theorem State.boot_returnIrq (s : State) (t : TimerId) :
    (s.returnIrq t).boot = s.boot := by
  simp [State.returnIrq]
@[simp] theorem State.loop_enterIrq (s : State) (t : TimerId) :
    (s.enterIrq t).loop = s.loop := by
  simp [State.enterIrq]
@[simp] theorem State.loop_returnIrq (s : State) (t : TimerId) :
    (s.returnIrq t).loop = s.loop := by
  simp [State.returnIrq]
@[simp] theorem State.seq_enterIrq (s : State) (t : TimerId) :
    (s.enterIrq t).seq = s.seq := by
  simp [State.enterIrq]
@[simp] theorem State.seq_returnIrq (s : State) (t : TimerId) :
    (s.returnIrq t).seq = s.seq := by
  simp [State.returnIrq]
@[simp] theorem State.sched_enterIrq (s : State) (t : TimerId) :
    (s.enterIrq t).sched = s.sched := by
  simp [State.enterIrq]
@[simp] theorem State.sched_returnIrq (s : State) (t : TimerId) :
    (s.returnIrq t).sched = s.sched := by
  simp [State.returnIrq]
@[simp] theorem State.picks_enterIrq (s : State) (t : TimerId) :
    (s.enterIrq t).picks = s.picks := by
  simp [State.enterIrq]
@[simp] theorem State.picks_returnIrq (s : State) (t : TimerId) :
    (s.returnIrq t).picks = s.picks := by
  simp [State.returnIrq]
@[simp] theorem State.draws_enterIrq (s : State) (t : TimerId) :
    (s.enterIrq t).draws = s.draws := by
  simp [State.enterIrq]
@[simp] theorem State.draws_returnIrq (s : State) (t : TimerId) :
    (s.returnIrq t).draws = s.draws := by
  simp [State.returnIrq]
@[simp] theorem State.ctx_mode_enterIrq (s : State) (t : TimerId) :
    (s.enterIrq t).ctx.mode = .handler := by
  simp [State.enterIrq]
@[simp] theorem State.ctx_mode_returnIrq (s : State) (t : TimerId) :
    (s.returnIrq t).ctx.mode = .main := by
  simp [State.returnIrq]
@[simp] theorem State.ctx_pc_enterIrq (s : State) (t : TimerId) :
    (s.enterIrq t).ctx.pc = s.ctx.pc := by
  simp [State.enterIrq]
@[simp] theorem State.ctx_pc_returnIrq (s : State) (t : TimerId) :
    (s.returnIrq t).ctx.pc = s.ctx.pc := by
  simp [State.returnIrq]
@[simp] theorem State.ctx_results_enterIrq (s : State) (t : TimerId) :
    (s.enterIrq t).ctx.results = s.ctx.results := by
  simp [State.enterIrq]
@[simp] theorem State.ctx_results_returnIrq (s : State) (t : TimerId) :
    (s.returnIrq t).ctx.results = s.ctx.results := by
  simp [State.returnIrq]
@[simp] theorem State.ctx_trace_enterIrq (s : State) (t : TimerId) :
    (s.enterIrq t).ctx.trace = s.ctx.trace := by
  simp [State.enterIrq]
@[simp] theorem State.ctx_trace_returnIrq (s : State) (t : TimerId) :
    (s.returnIrq t).ctx.trace = s.ctx.trace := by
  simp [State.returnIrq]
@[simp] theorem State.ctx_faults_enterIrq (s : State) (t : TimerId) :
    (s.enterIrq t).ctx.faults = s.ctx.faults := by
  simp [State.enterIrq]
@[simp] theorem State.ctx_faults_returnIrq (s : State) (t : TimerId) :
    (s.returnIrq t).ctx.faults = s.ctx.faults := by
  simp [State.returnIrq]
@[simp] theorem State.ctx_refused_enterIrq (s : State) (t : TimerId) :
    (s.enterIrq t).ctx.refused = s.ctx.refused := by
  simp [State.enterIrq]
@[simp] theorem State.ctx_refused_returnIrq (s : State) (t : TimerId) :
    (s.returnIrq t).ctx.refused = s.ctx.refused := by
  simp [State.returnIrq]

end Sys2Proof.Machine
end

