-- ==== Sys2Proof/Laws/Ops.lean ====
section
/-! SUPPORT. What each shared operation does, said once: reads after writes of timers and channels, and
one lemma per operation over them. Later proofs cite these and do not unfold the operations. -/

namespace Sys2Proof.Machine

/-! ### Channel numbers -/

/-- A channel in 1..4 is valid exactly when it has an index. -/
theorem chanOf_isSome (n : ChanId) : (chanOf n).isSome = decide (1 ≤ n.toNat ∧ n.toNat ≤ 4) := by
  revert n; decide

/-- A channel number in 1..4 names the index one below it, and only those numbers name one. -/
theorem chanOf_eq_some {n : ChanId} {i : ChanIdx} : chanOf n = some i ↔ i.val + 1 = n.toNat := by
  revert n i; decide

/-- The numbers outside 1..4 are invalid channel identities (R81). -/
theorem chanOf_eq_none {n : ChanId} : chanOf n = none ↔ n.toNat = 0 ∨ 4 < n.toNat := by
  revert n; decide

/-! ### Timers -/

@[simp] theorem State.timer_setTimer_same (s : State) (t : TimerId) (T : Timer) :
    (s.setTimer t T).timer t = some T := by
  simp [State.timer, State.setTimer]

theorem State.timer_setTimer_other (s : State) {t u : TimerId} (T : Timer) (h : u ≠ t) :
    (s.setTimer t T).timer u = s.timer u := by
  have hne : t.toNat ≠ u.toNat := fun e => h (BitVec.eq_of_toNat_eq e.symm)
  simp [State.timer, State.setTimer, hne]

/-- Reads after a write of one timer. -/
theorem State.timer_setTimer (s : State) (t u : TimerId) (T : Timer) :
    (s.setTimer t T).timer u = if u = t then some T else s.timer u := by
  split
  · subst_vars; simp
  · exact s.timer_setTimer_other T ‹_›

/-- Two states agree when they agree on the timers of every identity and on every other field. -/
theorem State.tm_eq_of_timer (s s' : State) (h : ∀ t, s.timer t = s'.timer t) : s.tm = s'.tm := by
  apply Vector.ext
  intro i hi
  have := h (BitVec.ofNat 4 i)
  have hm : i % 16 = i := Nat.mod_eq_of_lt hi
  simpa [State.timer, hm] using this

/-- `onTimer` on its own timer. -/
@[simp] theorem State.timer_onTimer_same (s : State) (t : TimerId) (f : Timer → Timer) :
    (s.onTimer t f).timer t = (s.timer t).map f := by
  unfold State.onTimer
  split <;> simp_all

/-- `onTimer` leaves every other timer (R22). -/
theorem State.timer_onTimer_other (s : State) {t u : TimerId} (f : Timer → Timer) (h : u ≠ t) :
    (s.onTimer t f).timer u = s.timer u := by
  unfold State.onTimer
  split
  · rfl
  · exact s.timer_setTimer_other _ h

/-- Reads after `onTimer`. -/
theorem State.timer_onTimer (s : State) (t u : TimerId) (f : Timer → Timer) :
    (s.onTimer t f).timer u = if u = t then (s.timer u).map f else s.timer u := by
  split
  · subst_vars; simp
  · exact s.timer_onTimer_other f ‹_›

/-- `onTimer` on an unrecognised timer. -/
theorem State.onTimer_none (s : State) {t : TimerId} (f : Timer → Timer) (h : s.timer t = none) :
    s.onTimer t f = s := by
  unfold State.onTimer; rw [h]

/-- `onTimer` on a recognised timer. -/
theorem State.onTimer_some (s : State) {t : TimerId} {T : Timer} (f : Timer → Timer)
    (h : s.timer t = some T) : s.onTimer t f = s.setTimer t (f T) := by
  unfold State.onTimer; rw [h]

/-- Writing back the timer that stands there changes nothing. -/
theorem State.setTimer_self (s : State) {t : TimerId} {T : Timer} (h : s.timer t = some T) :
    s.setTimer t T = s := by
  have : s.tm.set t.toNat (some T) t.isLt = s.tm := by
    apply Vector.ext
    intro i hi
    by_cases e : t.toNat = i
    · subst e; simpa [State.timer] using h.symm
    · simp [e]
  simp [State.setTimer, this]

/-- Of two writes of one timer the last stands. -/
@[simp] theorem State.setTimer_setTimer (s : State) (t : TimerId) (T T' : Timer) :
    (s.setTimer t T).setTimer t T' = s.setTimer t T' := by
  simp [State.setTimer]

/-- `onClocked` on an unrecognised timer (R240). -/
theorem State.onClocked_none (s : State) {t : TimerId} (f : Timer → Timer) (h : s.timer t = none) :
    s.onClocked t f = s := s.onTimer_none _ h

/-- `onClocked` on an unclocked timer (R67). -/
theorem State.onClocked_unclocked (s : State) {t : TimerId} {T : Timer} (f : Timer → Timer)
    (h : s.timer t = some T) (hc : T.clkEn = false) : s.onClocked t f = s := by
  rw [State.onClocked, s.onTimer_some _ h]
  simpa [hc] using s.setTimer_self h

/-- `onClocked` on a clocked timer. -/
theorem State.onClocked_clocked (s : State) {t : TimerId} {T : Timer} (f : Timer → Timer)
    (h : s.timer t = some T) (hc : T.clkEn = true) : s.onClocked t f = s.setTimer t (f T) := by
  rw [State.onClocked, s.onTimer_some _ h]; simp [hc]

/-- Reads after `onClocked`. -/
theorem State.timer_onClocked (s : State) (t u : TimerId) (f : Timer → Timer) :
    (s.onClocked t f).timer u =
      if u = t then (s.timer u).map (fun T => if T.clkEn then f T else T) else s.timer u :=
  s.timer_onTimer t u _

/-- `onClocked` leaves every other timer (R22). -/
theorem State.timer_onClocked_other (s : State) {t u : TimerId} (f : Timer → Timer) (h : u ≠ t) :
    (s.onClocked t f).timer u = s.timer u := s.timer_onTimer_other _ h

/-- `onChan` on an invalid channel (R240). -/
theorem State.onChan_none (s : State) (t : TimerId) {n : ChanId} (f : Timer → ChanIdx → Timer)
    (h : chanOf n = none) : s.onChan t n f = s := by
  unfold State.onChan; rw [h]

/-- `onChan` on a channel in 1..4. -/
theorem State.onChan_some (s : State) (t : TimerId) {n : ChanId} {i : ChanIdx}
    (f : Timer → ChanIdx → Timer) (h : chanOf n = some i) :
    s.onChan t n f = s.onClocked t fun T => f T i := by
  unfold State.onChan; rw [h]

/-- `onChan` on a channel in 1..4 of a clocked timer. -/
theorem State.onChan_clocked (s : State) {t : TimerId} {n : ChanId} {T : Timer} {i : ChanIdx}
    (f : Timer → ChanIdx → Timer) (h : s.timer t = some T) (hi : i.val + 1 = n.toNat)
    (hc : T.clkEn = true) : s.onChan t n f = s.setTimer t (f T i) := by
  rw [s.onChan_some t f (chanOf_eq_some.mpr hi), s.onClocked_clocked _ h hc]

/-- `onChan` on an invalid identity or an unclocked timer (R67, R240). -/
theorem State.onChan_noEffect (s : State) {t : TimerId} {n : ChanId} (f : Timer → ChanIdx → Timer)
    (h : s.timer t = none ∨ n.toNat = 0 ∨ 4 < n.toNat ∨ ∃ T, s.timer t = some T ∧ T.clkEn = false) :
    s.onChan t n f = s := by
  rcases h with h | h | h | ⟨T, h, hc⟩
  · unfold State.onChan
    split
    · rfl
    · exact s.onClocked_none _ h
  · exact s.onChan_none t f (chanOf_eq_none.mpr (.inl h))
  · exact s.onChan_none t f (chanOf_eq_none.mpr (.inr h))
  · unfold State.onChan
    split
    · rfl
    · exact s.onClocked_unclocked _ h hc

/-- `onChan` leaves every other timer (R22). -/
theorem State.timer_onChan_other (s : State) {t u : TimerId} (n : ChanId)
    (f : Timer → ChanIdx → Timer) (h : u ≠ t) : (s.onChan t n f).timer u = s.timer u := by
  unfold State.onChan
  split
  · rfl
  · exact s.timer_onClocked_other _ h

@[simp] theorem State.timer_emit (s : State) (e : Event) (t : TimerId) :
    (s.emit e).timer t = s.timer t := rfl

@[simp] theorem State.timer_result (s : State) (v : Int) (t : TimerId) :
    (s.result v).timer t = s.timer t := rfl

@[simp] theorem State.timer_raise (s : State) (r : FaultReason) (t : TimerId) :
    (s.raise r).timer t = s.timer t := rfl

@[simp] theorem State.timer_modSeq (s : State) (f : Seq → Seq) (t : TimerId) :
    (s.modSeq f).timer t = s.timer t := rfl

@[simp] theorem State.timer_complete (s : State) (t : TimerId) :
    s.complete.timer t = s.timer t := by
  simp [State.timer]

@[simp] theorem State.timer_takePick (s : State) (t : TimerId) :
    s.takePick.timer t = s.timer t := by
  simp [State.timer]

@[simp] theorem State.timer_draw (s : State) (t : TimerId) :
    s.draw.2.timer t = s.timer t := rfl

/-- The latches act on every timer (R251). -/
@[simp] theorem State.timer_latchAll (s : State) (t : TimerId) :
    s.latchAll.timer t = (s.timer t).map Timer.latch := by
  simp [State.timer, State.latchAll]

/-- Entering clears the timer's own pending latch (R254). -/
@[simp] theorem State.timer_enterIrq (s : State) (t u : TimerId) :
    (s.enterIrq t).timer u =
      if u = t then (s.timer u).map (fun T => { T with irqPend := false }) else s.timer u :=
  s.timer_onTimer t u _

/-- Leaving pends the timer's line again if it is still asserted (R254). -/
@[simp] theorem State.timer_returnIrq (s : State) (t u : TimerId) :
    (s.returnIrq t).timer u =
      if u = t then (s.timer u).map (fun T => { T with irqPend := T.line && T.irqEn })
      else s.timer u :=
  State.timer_onTimer _ t u _

/-! ### Channels -/

@[simp] theorem Timer.chan_modChan_same (T : Timer) (i : ChanIdx) (f : Channel → Channel) :
    (T.modChan i f).chan i = f (T.chan i) := by
  simp [Timer.chan, Timer.modChan]

theorem Timer.chan_modChan_other (T : Timer) {i j : ChanIdx} (f : Channel → Channel) (h : j ≠ i) :
    (T.modChan i f).chan j = T.chan j := by
  have hne : i.val ≠ j.val := fun e => h (Fin.ext e.symm)
  simp [Timer.chan, Timer.modChan, hne]

/-- Reads after a write of one channel. -/
theorem Timer.chan_modChan (T : Timer) (i j : ChanIdx) (f : Channel → Channel) :
    (T.modChan i f).chan j = if j = i then f (T.chan j) else T.chan j := by
  split
  · subst_vars; simp
  · exact T.chan_modChan_other f ‹_›

/-- Writing back the channel that stands there changes nothing. -/
theorem Timer.modChan_self (T : Timer) (i : ChanIdx) (f : Channel → Channel)
    (h : f (T.chan i) = T.chan i) : T.modChan i f = T := by
  have hs : T.ch.set i.val (T.chan i) i.isLt = T.ch := by simp [Timer.chan]
  unfold Timer.modChan
  rw [h, hs]

@[simp] theorem Timer.chan_mapChans (T : Timer) (f : Channel → Channel) (j : ChanIdx) :
    (T.mapChans f).chan j = f (T.chan j) := by
  simp [Timer.chan, Timer.mapChans]

/-- Two timers with the same channels at every index have the same channel vector. -/
theorem Timer.ch_eq_of_chan (T T' : Timer) (h : ∀ i, T.chan i = T'.chan i) : T.ch = T'.ch := by
  apply Vector.ext
  intro i hi
  exact h ⟨i, hi⟩

/-! ### Reduction to a width -/

/-- `truncTo` is reduction modulo `2^W` (R11, R65). -/
theorem truncTo_toNat (w : Width) (v : Word) : (truncTo w v).toNat = v.toNat % 2 ^ w.bits := by
  cases w
  · simp only [truncTo, Width.bits, BitVec.toNat_setWidth]
    omega
  · simp only [truncTo, Width.bits]
    omega

/-- A reduced value is below `2^W`. -/
theorem truncTo_lt (w : Width) (v : Word) : (truncTo w v).toNat < 2 ^ w.bits := by
  rw [truncTo_toNat]; exact Nat.mod_lt _ (by cases w <;> decide)

end Sys2Proof.Machine
end

