-- ==== Sys2Proof/Laws/Timer.lean ====
section
/-! SUPPORT. The small lemmas of one timer's operations, and one lemma per operation saying what it does
to a channel: refreshing the outputs, the compare, the update event, the count, the tick and the clock
cycle. -/

namespace Sys2Proof.Machine

/-! ### `modChan` changes the channels alone -/

@[simp] theorem Timer.width_modChan (T : Timer) (i : ChanIdx) (f : Channel → Channel) :
    (T.modChan i f).width = T.width := rfl
@[simp] theorem Timer.clkEn_modChan (T : Timer) (i : ChanIdx) (f : Channel → Channel) :
    (T.modChan i f).clkEn = T.clkEn := rfl
@[simp] theorem Timer.cen_modChan (T : Timer) (i : ChanIdx) (f : Channel → Channel) :
    (T.modChan i f).cen = T.cen := rfl
@[simp] theorem Timer.dir_modChan (T : Timer) (i : ChanIdx) (f : Channel → Channel) :
    (T.modChan i f).dir = T.dir := rfl
@[simp] theorem Timer.arpe_modChan (T : Timer) (i : ChanIdx) (f : Channel → Channel) :
    (T.modChan i f).arpe = T.arpe := rfl
@[simp] theorem Timer.psc_modChan (T : Timer) (i : ChanIdx) (f : Channel → Channel) :
    (T.modChan i f).psc = T.psc := rfl
@[simp] theorem Timer.pscSh_modChan (T : Timer) (i : ChanIdx) (f : Channel → Channel) :
    (T.modChan i f).pscSh = T.pscSh := rfl
@[simp] theorem Timer.pscCnt_modChan (T : Timer) (i : ChanIdx) (f : Channel → Channel) :
    (T.modChan i f).pscCnt = T.pscCnt := rfl
@[simp] theorem Timer.arr_modChan (T : Timer) (i : ChanIdx) (f : Channel → Channel) :
    (T.modChan i f).arr = T.arr := rfl
@[simp] theorem Timer.arrSh_modChan (T : Timer) (i : ChanIdx) (f : Channel → Channel) :
    (T.modChan i f).arrSh = T.arrSh := rfl
@[simp] theorem Timer.cnt_modChan (T : Timer) (i : ChanIdx) (f : Channel → Channel) :
    (T.modChan i f).cnt = T.cnt := rfl
@[simp] theorem Timer.uif_modChan (T : Timer) (i : ChanIdx) (f : Channel → Channel) :
    (T.modChan i f).uif = T.uif := rfl
@[simp] theorem Timer.irqEn_modChan (T : Timer) (i : ChanIdx) (f : Channel → Channel) :
    (T.modChan i f).irqEn = T.irqEn := rfl
@[simp] theorem Timer.irqPend_modChan (T : Timer) (i : ChanIdx) (f : Channel → Channel) :
    (T.modChan i f).irqPend = T.irqPend := rfl

/-! ### `mapChans` changes the channels alone -/

@[simp] theorem Timer.width_mapChans (T : Timer) (f : Channel → Channel) :
    (T.mapChans f).width = T.width := rfl
@[simp] theorem Timer.clkEn_mapChans (T : Timer) (f : Channel → Channel) :
    (T.mapChans f).clkEn = T.clkEn := rfl
@[simp] theorem Timer.cen_mapChans (T : Timer) (f : Channel → Channel) :
    (T.mapChans f).cen = T.cen := rfl
@[simp] theorem Timer.dir_mapChans (T : Timer) (f : Channel → Channel) :
    (T.mapChans f).dir = T.dir := rfl
@[simp] theorem Timer.arpe_mapChans (T : Timer) (f : Channel → Channel) :
    (T.mapChans f).arpe = T.arpe := rfl
@[simp] theorem Timer.psc_mapChans (T : Timer) (f : Channel → Channel) :
    (T.mapChans f).psc = T.psc := rfl
@[simp] theorem Timer.pscSh_mapChans (T : Timer) (f : Channel → Channel) :
    (T.mapChans f).pscSh = T.pscSh := rfl
@[simp] theorem Timer.pscCnt_mapChans (T : Timer) (f : Channel → Channel) :
    (T.mapChans f).pscCnt = T.pscCnt := rfl
@[simp] theorem Timer.arr_mapChans (T : Timer) (f : Channel → Channel) :
    (T.mapChans f).arr = T.arr := rfl
@[simp] theorem Timer.arrSh_mapChans (T : Timer) (f : Channel → Channel) :
    (T.mapChans f).arrSh = T.arrSh := rfl
@[simp] theorem Timer.cnt_mapChans (T : Timer) (f : Channel → Channel) :
    (T.mapChans f).cnt = T.cnt := rfl
@[simp] theorem Timer.uif_mapChans (T : Timer) (f : Channel → Channel) :
    (T.mapChans f).uif = T.uif := rfl
@[simp] theorem Timer.irqEn_mapChans (T : Timer) (f : Channel → Channel) :
    (T.mapChans f).irqEn = T.irqEn := rfl
@[simp] theorem Timer.irqPend_mapChans (T : Timer) (f : Channel → Channel) :
    (T.mapChans f).irqPend = T.irqPend := rfl

/-! ### `refreshOutputs` -/

@[simp] theorem Timer.width_refreshOutputs (T : Timer) : T.refreshOutputs.width = T.width := rfl
@[simp] theorem Timer.clkEn_refreshOutputs (T : Timer) : T.refreshOutputs.clkEn = T.clkEn := rfl
@[simp] theorem Timer.cen_refreshOutputs (T : Timer) : T.refreshOutputs.cen = T.cen := rfl
@[simp] theorem Timer.dir_refreshOutputs (T : Timer) : T.refreshOutputs.dir = T.dir := rfl
@[simp] theorem Timer.arpe_refreshOutputs (T : Timer) : T.refreshOutputs.arpe = T.arpe := rfl
@[simp] theorem Timer.psc_refreshOutputs (T : Timer) : T.refreshOutputs.psc = T.psc := rfl
@[simp] theorem Timer.pscSh_refreshOutputs (T : Timer) : T.refreshOutputs.pscSh = T.pscSh := rfl
@[simp] theorem Timer.pscCnt_refreshOutputs (T : Timer) : T.refreshOutputs.pscCnt = T.pscCnt := rfl
@[simp] theorem Timer.arr_refreshOutputs (T : Timer) : T.refreshOutputs.arr = T.arr := rfl
@[simp] theorem Timer.arrSh_refreshOutputs (T : Timer) : T.refreshOutputs.arrSh = T.arrSh := rfl
@[simp] theorem Timer.cnt_refreshOutputs (T : Timer) : T.refreshOutputs.cnt = T.cnt := rfl
@[simp] theorem Timer.uif_refreshOutputs (T : Timer) : T.refreshOutputs.uif = T.uif := rfl
@[simp] theorem Timer.irqEn_refreshOutputs (T : Timer) : T.refreshOutputs.irqEn = T.irqEn := rfl
@[simp] theorem Timer.irqPend_refreshOutputs (T : Timer) :
    T.refreshOutputs.irqPend = T.irqPend := rfl

/-! ### `compare` -/

@[simp] theorem Timer.width_compare (T : Timer) : T.compare.width = T.width := rfl
@[simp] theorem Timer.clkEn_compare (T : Timer) : T.compare.clkEn = T.clkEn := rfl
@[simp] theorem Timer.cen_compare (T : Timer) : T.compare.cen = T.cen := rfl
@[simp] theorem Timer.dir_compare (T : Timer) : T.compare.dir = T.dir := rfl
@[simp] theorem Timer.arpe_compare (T : Timer) : T.compare.arpe = T.arpe := rfl
@[simp] theorem Timer.psc_compare (T : Timer) : T.compare.psc = T.psc := rfl
@[simp] theorem Timer.pscSh_compare (T : Timer) : T.compare.pscSh = T.pscSh := rfl
@[simp] theorem Timer.pscCnt_compare (T : Timer) : T.compare.pscCnt = T.pscCnt := rfl
@[simp] theorem Timer.arr_compare (T : Timer) : T.compare.arr = T.arr := rfl
@[simp] theorem Timer.arrSh_compare (T : Timer) : T.compare.arrSh = T.arrSh := rfl
@[simp] theorem Timer.cnt_compare (T : Timer) : T.compare.cnt = T.cnt := rfl
@[simp] theorem Timer.uif_compare (T : Timer) : T.compare.uif = T.uif := rfl
@[simp] theorem Timer.irqEn_compare (T : Timer) : T.compare.irqEn = T.irqEn := rfl
@[simp] theorem Timer.irqPend_compare (T : Timer) : T.compare.irqPend = T.irqPend := rfl

/-! ### `latch` -/

@[simp] theorem Timer.width_latch (T : Timer) : T.latch.width = T.width := rfl
@[simp] theorem Timer.clkEn_latch (T : Timer) : T.latch.clkEn = T.clkEn := rfl
@[simp] theorem Timer.cen_latch (T : Timer) : T.latch.cen = T.cen := rfl
@[simp] theorem Timer.dir_latch (T : Timer) : T.latch.dir = T.dir := rfl
@[simp] theorem Timer.arpe_latch (T : Timer) : T.latch.arpe = T.arpe := rfl
@[simp] theorem Timer.psc_latch (T : Timer) : T.latch.psc = T.psc := rfl
@[simp] theorem Timer.pscSh_latch (T : Timer) : T.latch.pscSh = T.pscSh := rfl
@[simp] theorem Timer.pscCnt_latch (T : Timer) : T.latch.pscCnt = T.pscCnt := rfl
@[simp] theorem Timer.arr_latch (T : Timer) : T.latch.arr = T.arr := rfl
@[simp] theorem Timer.arrSh_latch (T : Timer) : T.latch.arrSh = T.arrSh := rfl
@[simp] theorem Timer.cnt_latch (T : Timer) : T.latch.cnt = T.cnt := rfl
@[simp] theorem Timer.uif_latch (T : Timer) : T.latch.uif = T.uif := rfl
@[simp] theorem Timer.irqEn_latch (T : Timer) : T.latch.irqEn = T.irqEn := rfl
@[simp] theorem Timer.irqPend_latch (T : Timer) :
    T.latch.irqPend = (T.irqPend || (T.line && T.irqEn)) := rfl

/-! ### `updateEvent` -/

@[simp] theorem Timer.width_updateEvent (T : Timer) (src : UpdateSrc) :
    (T.updateEvent src).width = T.width := rfl
@[simp] theorem Timer.clkEn_updateEvent (T : Timer) (src : UpdateSrc) :
    (T.updateEvent src).clkEn = T.clkEn := rfl
@[simp] theorem Timer.cen_updateEvent (T : Timer) (src : UpdateSrc) :
    (T.updateEvent src).cen = T.cen := rfl
@[simp] theorem Timer.dir_updateEvent (T : Timer) (src : UpdateSrc) :
    (T.updateEvent src).dir = T.dir := rfl
@[simp] theorem Timer.arpe_updateEvent (T : Timer) (src : UpdateSrc) :
    (T.updateEvent src).arpe = T.arpe := rfl
@[simp] theorem Timer.psc_updateEvent (T : Timer) (src : UpdateSrc) :
    (T.updateEvent src).psc = T.psc := rfl
@[simp] theorem Timer.pscSh_updateEvent (T : Timer) (src : UpdateSrc) :
    (T.updateEvent src).pscSh = T.psc := rfl
@[simp] theorem Timer.pscCnt_updateEvent (T : Timer) (src : UpdateSrc) :
    (T.updateEvent src).pscCnt = 0 := rfl
@[simp] theorem Timer.arr_updateEvent (T : Timer) (src : UpdateSrc) :
    (T.updateEvent src).arr = T.arr := rfl
@[simp] theorem Timer.arrSh_updateEvent (T : Timer) (src : UpdateSrc) :
    (T.updateEvent src).arrSh = (if T.arpe then T.arr else T.arrSh) := rfl
@[simp] theorem Timer.cnt_updateEvent (T : Timer) (src : UpdateSrc) :
    (T.updateEvent src).cnt = src.counter T.cnt := rfl
@[simp] theorem Timer.uif_updateEvent (T : Timer) (src : UpdateSrc) :
    (T.updateEvent src).uif = true := rfl
@[simp] theorem Timer.irqEn_updateEvent (T : Timer) (src : UpdateSrc) :
    (T.updateEvent src).irqEn = T.irqEn := rfl
@[simp] theorem Timer.irqPend_updateEvent (T : Timer) (src : UpdateSrc) :
    (T.updateEvent src).irqPend = T.irqPend := rfl

/-! ### `capture` -/

@[simp] theorem Timer.width_capture (T : Timer) (i : ChanIdx) : (T.capture i).width = T.width := rfl
@[simp] theorem Timer.clkEn_capture (T : Timer) (i : ChanIdx) : (T.capture i).clkEn = T.clkEn := rfl
@[simp] theorem Timer.cen_capture (T : Timer) (i : ChanIdx) : (T.capture i).cen = T.cen := rfl
@[simp] theorem Timer.dir_capture (T : Timer) (i : ChanIdx) : (T.capture i).dir = T.dir := rfl
@[simp] theorem Timer.arpe_capture (T : Timer) (i : ChanIdx) : (T.capture i).arpe = T.arpe := rfl
@[simp] theorem Timer.psc_capture (T : Timer) (i : ChanIdx) : (T.capture i).psc = T.psc := rfl
@[simp] theorem Timer.pscSh_capture (T : Timer) (i : ChanIdx) : (T.capture i).pscSh = T.pscSh := rfl
@[simp] theorem Timer.pscCnt_capture (T : Timer) (i : ChanIdx) :
    (T.capture i).pscCnt = T.pscCnt := rfl
@[simp] theorem Timer.arr_capture (T : Timer) (i : ChanIdx) : (T.capture i).arr = T.arr := rfl
@[simp] theorem Timer.arrSh_capture (T : Timer) (i : ChanIdx) : (T.capture i).arrSh = T.arrSh := rfl
@[simp] theorem Timer.cnt_capture (T : Timer) (i : ChanIdx) : (T.capture i).cnt = T.cnt := rfl
@[simp] theorem Timer.uif_capture (T : Timer) (i : ChanIdx) : (T.capture i).uif = T.uif := rfl
@[simp] theorem Timer.irqEn_capture (T : Timer) (i : ChanIdx) : (T.capture i).irqEn = T.irqEn := rfl
@[simp] theorem Timer.irqPend_capture (T : Timer) (i : ChanIdx) :
    (T.capture i).irqPend = T.irqPend := rfl

/-! ### What each operation does to a channel -/

/-- Changing any other field of a timer leaves its channels. -/
@[simp] theorem Timer.chan_update (T : Timer) (w : Width) (ce cn : Bool) (d : Direction) (ap : Bool)
    (p ps pc : BitVec 16) (a as c : Word) (u ie ip : Bool) (i : ChanIdx) :
    (Timer.mk w ce cn d ap p ps pc a as c u ie ip T.ch).chan i = T.chan i := rfl

/-- Two timers are equal when their channels are and their other fields are. -/
theorem Timer.ext_chan (T T' : Timer) (h : { T with ch := T'.ch } = T')
    (hc : ∀ i, T.chan i = T'.chan i) : T = T' := by
  rw [← h, ← Timer.ch_eq_of_chan T T' hc]

/-- `RefreshOutputs` rewrites the output reference of a channel and nothing else (R180). -/
@[simp] theorem Timer.chan_refreshOutputs (T : Timer) (i : ChanIdx) :
    T.refreshOutputs.chan i =
      { T.chan i with ocref := (T.chan i).refreshedRef T.dir T.cnt } :=
  T.chan_mapChans _ i

/-- Refreshing a refreshed output reference changes nothing (R180). -/
@[simp] theorem Channel.refreshedRef_idem (C : Channel) (d : Direction) (cnt : Word) :
    ({ C with ocref := C.refreshedRef d cnt } : Channel).refreshedRef d cnt =
      C.refreshedRef d cnt := by
  simp only [Channel.refreshedRef, Channel.outputMode]
  by_cases h : (C.ccs == 0b00) = true
  · simp only [h, if_true]
    split <;> first | rfl | (split <;> simp_all)
  · simp only [h, if_false, Bool.false_eq_true]

/-- In the sub-modes that hold state a refresh keeps the output reference (R180). -/
theorem Channel.refreshedRef_held (C : Channel) (d : Direction) (cnt : Word) (h : C.ocm.toNat < 0b100) :
    C.refreshedRef d cnt = C.ocref := by
  unfold Channel.refreshedRef
  split
  · split <;> first | omega | rfl
  · rfl

/-- `Compare` acts on each channel by itself (R175). -/
@[simp] theorem Timer.chan_compare (T : Timer) (i : ChanIdx) :
    T.compare.chan i = (T.chan i).compareAt T.cnt :=
  T.chan_mapChans _ i

/-- An update event loads the active compare value and refreshes the output (R112). -/
@[simp] theorem Timer.chan_updateEvent (T : Timer) (src : UpdateSrc) (i : ChanIdx) :
    (T.updateEvent src).chan i =
      { (T.chan i).loadShadow with
        ocref := (T.chan i).loadShadow.refreshedRef T.dir (src.counter T.cnt) } := by
  simp [Timer.updateEvent, Timer.chan]
  simp [Timer.refreshOutputs, Timer.mapChans]

@[simp] theorem Timer.chan_latch (T : Timer) (i : ChanIdx) : T.latch.chan i = T.chan i := rfl

/-- A capture writes the captured channel alone (R170). -/
theorem Timer.chan_capture (T : Timer) (i j : ChanIdx) :
    (T.capture i).chan j =
      if j = i then { T.chan j with ccr := T.cnt, ccif := true } else T.chan j :=
  T.chan_modChan i j _

/-- `compareAt` leaves every field but the flag and the output reference. -/
theorem Channel.compareAt_eq (C : Channel) (cnt : Word) :
    C.compareAt cnt =
      { C with
        ccif := C.ccif || (C.outputMode && cnt == C.ccrSh)
        ocref := if C.outputMode && cnt == C.ccrSh then C.matchedRef else C.ocref } := by
  unfold Channel.compareAt
  by_cases h : (C.outputMode && cnt == C.ccrSh) = true
  · rw [if_pos h, if_pos h, h, Bool.or_true]
  · rw [if_neg h, if_neg h, Bool.not_eq_true _ |>.mp h, Bool.or_false]

/-! ### The count, by direction (R111) -/

/-- The count by direction, as one equation. -/
theorem Timer.count_eq (T : Timer) :
    T.count =
      if T.dir = .up then
        if T.cnt = T.arrSh then Timer.updateEvent { T with cnt := 0 } .overflow
        else { T with cnt := truncTo T.width (T.cnt + 1) }
      else
        if T.cnt = 0 then Timer.updateEvent { T with cnt := T.arrSh } .underflow
        else { T with cnt := T.cnt - 1 } := by
  unfold Timer.count
  split <;> rename_i h
  · rw [if_pos h]
  · have hne : ¬ T.dir = .up := by rw [h]; decide
    rw [if_neg hne]

theorem Timer.count_up_wrap (T : Timer) (hd : T.dir = .up) (h : T.cnt = T.arrSh) :
    T.count = Timer.updateEvent { T with cnt := 0 } .overflow := by
  rw [T.count_eq, if_pos hd, if_pos h]

theorem Timer.count_up_next (T : Timer) (hd : T.dir = .up) (h : T.cnt ≠ T.arrSh) :
    T.count = { T with cnt := truncTo T.width (T.cnt + 1) } := by
  rw [T.count_eq, if_pos hd, if_neg h]

theorem Timer.count_down_wrap (T : Timer) (hd : T.dir = .down) (h : T.cnt = 0) :
    T.count = Timer.updateEvent { T with cnt := T.arrSh } .underflow := by
  have hne : ¬ T.dir = .up := by rw [hd]; decide
  rw [T.count_eq, if_neg hne, if_pos h]

theorem Timer.count_down_next (T : Timer) (hd : T.dir = .down) (h : T.cnt ≠ 0) :
    T.count = { T with cnt := T.cnt - 1 } := by
  have hne : ¬ T.dir = .up := by rw [hd]; decide
  rw [T.count_eq, if_neg hne, if_neg h]

/-- The cases of `count`, for a proof that splits on them once. -/
theorem Timer.count_cases (T : Timer) :
    (T.dir = .up ∧ T.cnt = T.arrSh ∧
        T.count = Timer.updateEvent { T with cnt := 0 } .overflow) ∨
      (T.dir = .up ∧ T.cnt ≠ T.arrSh ∧ T.count = { T with cnt := truncTo T.width (T.cnt + 1) }) ∨
      (T.dir = .down ∧ T.cnt = 0 ∧
        T.count = Timer.updateEvent { T with cnt := T.arrSh } .underflow) ∨
      (T.dir = .down ∧ T.cnt ≠ 0 ∧ T.count = { T with cnt := T.cnt - 1 }) := by
  have hd : T.dir = .up ∨ T.dir = .down := by cases T.dir <;> simp
  rcases hd with hd | hd
  · by_cases h : T.cnt = T.arrSh
    · exact .inl ⟨hd, h, T.count_up_wrap hd h⟩
    · exact .inr (.inl ⟨hd, h, T.count_up_next hd h⟩)
  · by_cases h : T.cnt = 0
    · exact .inr (.inr (.inl ⟨hd, h, T.count_down_wrap hd h⟩))
    · exact .inr (.inr (.inr ⟨hd, h, T.count_down_next hd h⟩))

/-! ### The clock cycle (R110) -/

/-- The timer with every race window closed, the first part of a clock cycle. -/
theorem Timer.clkCycle_stopped (T : Timer) (h : T.cen = false) :
    T.clkCycle = T.mapChans fun C => { C with polrace := false } := by
  simp [Timer.clkCycle, h]

theorem Timer.clkCycle_between (T : Timer) (h : T.cen = true) (hp : T.pscCnt ≠ T.pscSh) :
    T.clkCycle =
      { T.mapChans (fun C => { C with polrace := false }) with pscCnt := T.pscCnt + 1 } := by
  simp [Timer.clkCycle, Timer.prescale, h, hp]

theorem Timer.clkCycle_tick (T : Timer) (h : T.cen = true) (hp : T.pscCnt = T.pscSh) :
    T.clkCycle =
      Timer.tick { T.mapChans (fun C => { C with polrace := false }) with pscCnt := 0 } := by
  simp [Timer.clkCycle, Timer.prescale, h, hp]

end Sys2Proof.Machine
end

