-- ==== Sys2Proof/Laws/Step.lean ====
section
/-! SUPPORT. What one step can do, said once: the cases of `step`, of `Irq(t)`, of the environment's steps
and of the sequencer's operations. -/

namespace Sys2Proof.Machine

@[simp] theorem onNext_next (f : State → State) (s : State) : onNext f (.next s) = .next (f s) := rfl

/-- A mapped outcome is a next state only of a next state. -/
theorem onNext_eq_next {f : State → State} {o : Host.Outcome State Fault Refusal} {s' : State}
    (h : onNext f o = .next s') : ∃ s1, o = .next s1 ∧ s' = f s1 := by
  cases o with
  | next s => exact ⟨s, rfl, (Host.Outcome.next.inj h).symm⟩
  | fault r => exact nomatch h
  | refused r => exact nomatch h

/-- The step with no fault recorded. -/
theorem step_of_noFault (s : State) (h : s.ctx.faults = []) :
    step s = if s.enabled s.pick then agentStep s.pick s.takePick else .next s.takePick := by
  unfold step; rw [h]

/-- A faulted state has no step (R241). -/
theorem step_of_fault (s : State) {r : FaultReason} {pc : Pc} {l : List (FaultReason × Pc)}
    (h : s.ctx.faults = (r, pc) :: l) : step s = .fault (.halted r) := by
  unfold step; rw [h]

/-- The fetch does not depend on the scheduler's pick. -/
@[simp] theorem State.fetch_takePick (s : State) : s.takePick.fetch = s.fetch := by
  simp [State.fetch]

/-- The cases of a step that answers a next state: the pick was not enabled, or it was the main
context's (a refused word or a command), or an interrupt entry, or one of the other agents'. -/
theorem step_cases {s s' : State} (h : step s = .next s') :
    s.ctx.faults = [] ∧
    ((s.enabled s.pick = false ∧ s' = s.takePick) ∨
     (s.pick = .main ∧ s.enabled .main = true ∧ ∃ c, s.fetch = some c ∧
        ((∃ r, decode c = .error r ∧
            s' = ({ s.takePick with ctx := { s.ctx with refused := true } } : State).latchAll) ∨
         (∃ i s1, decode c = .ok i ∧ exec i s.takePick = .next s1 ∧
            s' = (s1.refreshAfter i).latchAll))) ∨
     (∃ t, s.pick = .irq t ∧ s.enabled (.irq t) = true ∧ s' = irqStep t s.takePick) ∨
     (∃ t, s.pick = .clk t ∧ s.enabled (.clk t) = true ∧ s' = (clkStep t s.takePick).latchAll) ∨
     (∃ t n v, s.pick = .setInput t n v ∧ s.enabled (.setInput t n v) = true ∧
        s' = (setInputStep t n v s.takePick).latchAll) ∨
     (∃ t n, s.pick = .raceGhost t n ∧ s.enabled (.raceGhost t n) = true ∧
        s' = (raceGhostStep t n s.takePick).latchAll) ∨
     (s.pick = .delayDone ∧ s.enabled .delayDone = true ∧
        s' = (delayDoneStep s.takePick).latchAll)) := by
  have hf : s.ctx.faults = [] := by
    cases hc : s.ctx.faults with
    | nil => rfl
    | cons p l => obtain ⟨r, pc⟩ := p; rw [step_of_fault s hc] at h; exact nomatch h
  refine ⟨hf, ?_⟩
  rw [step_of_noFault s hf] at h
  cases he : s.enabled s.pick with
  | false =>
    rw [he] at h
    exact .inl ⟨rfl, (Host.Outcome.next.inj h).symm⟩
  | true =>
    rw [he, if_pos rfl] at h
    refine .inr ?_
    cases hp : s.pick with
    | main =>
      rw [hp] at h he
      refine .inl ⟨rfl, he, ?_⟩
      obtain ⟨s1, hm, rfl⟩ := onNext_eq_next h
      unfold mainStep at hm
      rw [State.fetch_takePick] at hm
      cases hq : s.fetch with
      | none => simp [State.enabled, State.mainHasStep, hq] at he
      | some c =>
        rw [hq] at hm
        refine ⟨c, rfl, ?_⟩
        cases hd : decode c with
        | ok i =>
          simp only [hd] at hm
          obtain ⟨s2, hx, rfl⟩ := onNext_eq_next hm
          exact .inr ⟨i, s2, rfl, hx, rfl⟩
        | error r =>
          simp only [hd] at hm
          refine .inl ⟨r, rfl, ?_⟩
          rw [← Host.Outcome.next.inj hm, State.ctx_takePick]
    | irq t =>
      rw [hp] at h he
      exact .inr (.inl ⟨t, rfl, he, (Host.Outcome.next.inj h).symm⟩)
    | clk t =>
      rw [hp] at h he
      exact .inr (.inr (.inl ⟨t, rfl, he, (Host.Outcome.next.inj h).symm⟩))
    | setInput t n v =>
      rw [hp] at h he
      exact .inr (.inr (.inr (.inl ⟨t, n, v, rfl, he, (Host.Outcome.next.inj h).symm⟩)))
    | raceGhost t n =>
      rw [hp] at h he
      exact .inr (.inr (.inr (.inr (.inl ⟨t, n, rfl, he, (Host.Outcome.next.inj h).symm⟩))))
    | delayDone =>
      rw [hp] at h he
      exact .inr (.inr (.inr (.inr (.inr ⟨rfl, he, (Host.Outcome.next.inj h).symm⟩))))

/-! ### The sequencer's effects -/

/-- `readCapture` changes at most the flag of the channel it reads. -/
theorem crdEffect_state (t : TimerId) (n : ChanId) (s : State) :
    (crdEffect t n s).2 = s.onChan t n fun T i => T.modChan i Channel.afterRead := by
  unfold crdEffect State.onChan State.onClocked State.onTimer
  cases ht : s.timer t with
  | none => cases hn : chanOf n <;> rfl
  | some T =>
    cases hn : chanOf n with
    | none => rfl
    | some i =>
      cases hc : T.clkEn with
      | true => simp [Timer.afterRead, hc]
      | false => simpa [hc] using (s.setTimer_self ht).symm

/-- The handler body, by the sequencer's state (R212). -/
theorem onCaptureEdge_cases (s : State) :
    (s.seq.state = .echoRising ∧ onCaptureEdge s =
      (cpolEffect s.cfg.echoTimer s.cfg.echoCh .falling
        ((crdEffect s.cfg.echoTimer s.cfg.echoCh s).2.modSeq fun q =>
          { q with rising := (crdEffect s.cfg.echoTimer s.cfg.echoCh s).1 })).modSeq
        fun q => { q with state := .echoFalling }) ∨
    (s.seq.state = .echoFalling ∧ onCaptureEdge s =
      (cidisEffect s.cfg.echoTimer s.cfg.echoCh (cpolEffect s.cfg.echoTimer s.cfg.echoCh .rising
        ((crdEffect s.cfg.echoTimer s.cfg.echoCh s).2.modSeq fun q =>
          { q with falling := (crdEffect s.cfg.echoTimer s.cfg.echoCh s).1 }))).modSeq
        fun q => { q with state := .measurement }) ∨
    ((s.seq.state = .triggerHigh ∨ s.seq.state = .measurement) ∧
      onCaptureEdge s = (crdEffect s.cfg.echoTimer s.cfg.echoCh s).2) := by
  unfold onCaptureEdge
  cases hs : s.seq.state with
  | triggerHigh => exact .inr (.inr ⟨.inl rfl, rfl⟩)
  | echoRising => exact .inl ⟨rfl, rfl⟩
  | echoFalling => exact .inr (.inl ⟨rfl, rfl⟩)
  | measurement => exact .inr (.inr ⟨.inr rfl, rfl⟩)

end Sys2Proof.Machine
end

