-- ==== Sys2Proof/Laws/Commands.lean ====
section
/-! SUPPORT. What a command does to each timer, said once for all commands: a claim about every step cites
`exec_timer` and `irqStep_timer` and splits on a timer operation, not on the state. -/

namespace Sys2Proof.Machine

/-- What a command does to a clocked timer's channel; nothing to an invalid channel. -/
def chanOp (n : ChanId) (f : Timer → ChanIdx → Timer) (T : Timer) : Timer :=
  match chanOf n with
  | none => T
  | some i => if T.clkEn then f T i else T

/-- What `CIEN` does to a timer. -/
def enableOp (n : ChanId) (T : Timer) : Timer :=
  match chanOf n with
  | none => T
  | some i => T.enableIrq i

/-- What `CCMP` and the first part of `CPWM` do to a timer. -/
def compareOp (n : ChanId) (m : OutputMode) (T : Timer) : Timer :=
  match ocmOf m with
  | none => T
  | some k => chanOp n (fun T i => (T.modChan i (·.toCompare k)).refreshOutputs) T

/-- What `CPOL` does to a timer. -/
def polarityOp (n : ChanId) (k : Polarity) (T : Timer) : Timer :=
  chanOp n (fun T i => T.setPolarity i k) T

/-- What a command does to the timer it names. -/
def cmdTimer (i : Instr) (s : State) (T : Timer) : Timer :=
  match i with
  | .tcfg _ d p q => if isNegative p || isNegative q then T else T.configure d p q
  | .ten _ => if T.clkEn then { T with cen := true } else T
  | .tdis _ => if T.clkEn then { T with cen := false } else T
  | .tug _ => if T.clkEn then T.updateEvent .software else T
  | .tdly _ => if s.ctx.mode == .main && (T.clkEn && T.uif) then { T with uif := false } else T
  | .ccap _ n _ => chanOp n (fun T i => T.modChan i Channel.toCapture) T
  | .ccmp _ n m _ => compareOp n m T
  | .cpol _ n k => polarityOp n k T
  | .cpwm _ n m k d _ => chanOp n (fun T i => T.toPwm i k d) (compareOp n (pwmModeOf m) T)
  | .cduty _ n d => chanOp n (fun T i => T.setDuty i d) T
  | .crd _ n => chanOp n (fun T i => T.modChan i Channel.afterRead) T
  | .cien _ n => enableOp n T
  | .cidis _ n => chanOp n (fun T i => T.modChan i fun C => { C with ccie := false }) T
  | .cclr _ n => chanOp n (fun T i => T.modChan i fun C => { C with ccif := false }) T
  | .rreg _ off => match regOf off with
    | none => T
    | some r => if T.clkEn then T.afterRead r else T
  | .trdc _ | .cwait _ _ | .rpoll => T

/-- The timer a command names; `RPOLL` names none. -/
def cmdTarget : Instr → Option TimerId
  | .tcfg t _ _ _ | .ten t | .tdis t | .tug t | .trdc t | .tdly t | .ccap t _ _ | .ccmp t _ _ _
  | .cpol t _ _ | .cpwm t _ _ _ _ _ | .cduty t _ _ | .cwait t _ | .crd t _ | .cien t _ | .cidis t _
  | .cclr t _ | .rreg t _ => some t
  | .rpoll => none

/-- The timers after a command: the named one changed by `f`, every other as it was. -/
def timersAfter (s s' : State) (t : TimerId) (f : Timer → Timer) : Prop :=
  ∀ u, s'.timer u = if u = t then (s.timer u).map f else s.timer u

/-- Nothing changed is a change by the identity. -/
theorem timersAfter_id {s s' : State} (t : TimerId) {f : Timer → Timer} (hf : ∀ T, s.timer t = some T → f T = T)
    (h : ∀ u, s'.timer u = s.timer u) : timersAfter s s' t f := by
  intro u
  rw [h u]
  split
  · subst_vars
    cases hu : s.timer u with
    | none => rfl
    | some T => simp [hf T hu]
  · rfl

/-- A write to one timer. -/
theorem timersAfter_setTimer {s : State} {t : TimerId} {T : Timer} {f : Timer → Timer}
    (h : s.timer t = some T) : timersAfter s (s.setTimer t (f T)) t f := by
  intro u
  rw [State.timer_setTimer]
  split
  · subst_vars; rw [h]; rfl
  · rfl

theorem timersAfter_onTimer (s : State) (t : TimerId) (f : Timer → Timer) :
    timersAfter s (s.onTimer t f) t f :=
  fun u => s.timer_onTimer t u f

theorem timersAfter_onClocked (s : State) (t : TimerId) (f : Timer → Timer) :
    timersAfter s (s.onClocked t f) t fun T => if T.clkEn then f T else T :=
  fun u => s.timer_onClocked t u f

theorem timersAfter_onChan (s : State) (t : TimerId) (n : ChanId) (f : Timer → ChanIdx → Timer) :
    timersAfter s (s.onChan t n f) t (chanOp n f) := by
  intro u
  unfold State.onChan chanOp
  cases chanOf n with
  | none => simp
  | some i => exact s.timer_onClocked t u _

/-- Two changes of the same timer, one after the other. -/
theorem timersAfter_trans {s s1 s' : State} {t : TimerId} {f g : Timer → Timer}
    (h1 : timersAfter s s1 t f) (h2 : timersAfter s1 s' t g) :
    timersAfter s s' t fun T => g (f T) := by
  intro u
  rw [h2 u, h1 u]
  split
  · exact Option.map_map ..
  · rfl

/-- Only the timers of the end state matter. -/
theorem timersAfter_congr {s s1 s' : State} {t : TimerId} {f : Timer → Timer}
    (h : timersAfter s s1 t f) (e : ∀ u, s'.timer u = s1.timer u) : timersAfter s s' t f :=
  fun u => (e u).trans (h u)

/-! ### The effects -/

theorem tcfgEffect_timers (t : TimerId) (d : Direction) (p q : Word) (s : State) :
    timersAfter s (tcfgEffect t d p q s) t (cmdTimer (.tcfg t d p q) s) := by
  unfold tcfgEffect
  split <;> rename_i h
  · exact timersAfter_id t (fun T _ => by simp [cmdTimer, h]) fun _ => rfl
  · have e : cmdTimer (.tcfg t d p q) s = fun T => T.configure d p q := by
      funext T; simp [cmdTimer, h]
    rw [e]; exact timersAfter_onTimer s t _

theorem ccmpEffect_timers (t : TimerId) (n : ChanId) (m : OutputMode) (b : Word) (s : State) :
    timersAfter s (ccmpEffect t n m b s) t (compareOp n m) := by
  unfold ccmpEffect
  cases hm : ocmOf m with
  | none => exact timersAfter_id t (fun T _ => by simp [compareOp, hm]) fun _ => rfl
  | some k =>
    simp only
    split <;> rename_i hv
    · have := timersAfter_onChan (s.bindPins t n b) t n fun T i =>
        (T.modChan i (·.toCompare k)).refreshOutputs
      have e : compareOp n m = chanOp n fun T i => (T.modChan i (·.toCompare k)).refreshOutputs := by
        funext T; simp only [compareOp, hm]
      rw [e]; exact this
    · refine timersAfter_id t (fun T hT => ?_) fun _ => rfl
      have : chanOf n = none := by
        cases hc : chanOf n with
        | none => rfl
        | some i => simp [State.validChan, hT, hc] at hv
      simp [compareOp, hm, chanOp, this]

theorem ccapEffect_timers (t : TimerId) (n : ChanId) (b : Word) (s : State) :
    timersAfter s (ccapEffect t n b s) t (cmdTimer (.ccap t n b) s) := by
  unfold ccapEffect
  split <;> rename_i hv
  · exact timersAfter_onChan (s.bindPins t n b) t n _
  · refine timersAfter_id t (fun T hT => ?_) fun _ => rfl
    have : chanOf n = none := by
      cases hc : chanOf n with
      | none => rfl
      | some i => simp [State.validChan, hT, hc] at hv
    simp [cmdTimer, chanOp, this]

theorem cpolEffect_timers (t : TimerId) (n : ChanId) (k : Polarity) (s : State) :
    timersAfter s (cpolEffect t n k s) t (polarityOp n k) := timersAfter_onChan s t n _

theorem cpwmEffect_timers (t : TimerId) (n : ChanId) (m : OutputMode) (k : Polarity) (d b : Word)
    (s : State) :
    timersAfter s (cpwmEffect t n m k d b s) t (cmdTimer (.cpwm t n m k d b) s) :=
  timersAfter_trans (f := compareOp n (pwmModeOf m)) (g := chanOp n fun T i => T.toPwm i k d)
    (ccmpEffect_timers t n (pwmModeOf m) b s) (timersAfter_onChan _ t n _)

theorem crdEffect_timers (t : TimerId) (n : ChanId) (s : State) :
    timersAfter s (crdEffect t n s).2 t (cmdTimer (.crd t n) s) := by
  rw [crdEffect_state]; exact timersAfter_onChan s t n _

theorem cienEffect_timers (t : TimerId) (n : ChanId) (s : State) :
    timersAfter s (cienEffect t n s) t (enableOp n) := by
  unfold cienEffect
  cases hn : chanOf n with
  | none => exact timersAfter_id t (fun T _ => by simp [enableOp, hn]) fun _ => rfl
  | some i =>
    have e : enableOp n = fun T => T.enableIrq i := by funext T; simp only [enableOp, hn]
    rw [e]; exact timersAfter_onTimer s t _

/-! ### All commands at once -/

/-- The commands whose timer effects a poll of the sequencer may have, by state and phase (R206, R210);
`TRDC` stands for none. -/
def pollCommands (s : State) : List Instr :=
  .trdc s.cfg.echoTimer ::
    match s.seq.state, s.seq.ph with
    | .triggerHigh, .resync => [.tug s.cfg.echoTimer]
    | .triggerHigh, .irqEnable => [.cien s.cfg.echoTimer s.cfg.echoCh]
    | .measurement, _ => [.ten s.cfg.alertTimer, .tdis s.cfg.alertTimer]
    | _, _ => []

/-- Only the phase Resync of TriggerHigh has the effect of a `TUG`, and of none but the echo timer's. -/
theorem tug_mem_pollCommands {s : State} {t : TimerId} (h : .tug t ∈ pollCommands s) :
    s.seq.state = .triggerHigh ∧ s.seq.ph = .resync ∧ t = s.cfg.echoTimer := by
  unfold pollCommands at h
  split at h <;> simp_all

/-- No phase of the poll has the effect of a `TDLY`. -/
theorem tdly_not_mem_pollCommands (s : State) (t : TimerId) : .tdly t ∉ pollCommands s := by
  unfold pollCommands
  split <;> simp

/-- What `RPOLL` does to the timers is what one of `pollCommands` does. -/
theorem execRpoll_timers (s s' : State) (h : exec .rpoll s = .next s') :
    ∃ j ∈ pollCommands s, ∃ t, cmdTarget j = some t ∧ timersAfter s s' t (cmdTimer j s) := by
  have none (x : State) (hx : exec .rpoll s = .next x) (e : ∀ u, x.timer u = s.timer u) :
      ∃ j ∈ pollCommands s, ∃ t, cmdTarget j = some t ∧ timersAfter s s' t (cmdTimer j s) := by
    cases Host.Outcome.next.inj (hx.symm.trans h)
    exact ⟨.trdc s.cfg.echoTimer, by simp [pollCommands], _, rfl,
      timersAfter_id _ (fun T _ => rfl) e⟩
  have some (j : Instr) (hj : j ∈ pollCommands s) (t : TimerId) (ht : cmdTarget j = some t)
      (x s1 : State) (hx : exec .rpoll s = .next x) (h1 : timersAfter s s1 t (cmdTimer j s))
      (e : ∀ u, x.timer u = s1.timer u) :
      ∃ j ∈ pollCommands s, ∃ t, cmdTarget j = some t ∧ timersAfter s s' t (cmdTimer j s) := by
    cases Host.Outcome.next.inj (hx.symm.trans h)
    exact ⟨j, hj, t, ht, timersAfter_congr h1 e⟩
  cases hm : s.ctx.mode with
  | handler => exact none (s.raise .blockingInHandler) (by simp only [exec, execRpoll, hm]) fun _ => rfl
  | main =>
    cases hs : s.seq.state with
    | echoRising =>
      exact none s.complete (by simp only [exec, execRpoll, hm, hs]) fun u => s.timer_complete u
    | echoFalling =>
      exact none s.complete (by simp only [exec, execRpoll, hm, hs]) fun u => s.timer_complete u
    | measurement =>
      have hx : exec .rpoll s = .next (measurePhase s).complete := by
        simp only [exec, execRpoll, hm, hs]
      cases ha : s.cfg.alertEnabled with
      | false =>
        refine none _ hx fun u => ?_
        simp [measurePhase, alertEffect, ha]
      | true =>
        by_cases hd : (distance s.echoWidth s.cfg.tickUs s.seq.rising s.seq.falling).toNat <
            s.cfg.alertThresholdCm
        · refine some (.ten s.cfg.alertTimer) (by simp [pollCommands, hs]) _ rfl _ _ hx
            (timersAfter_onClocked _ _ _) fun u => ?_
          simp [measurePhase, alertEffect, ha, hd, tenEffect, State.timer_onClocked]
        · refine some (.tdis s.cfg.alertTimer) (by simp [pollCommands, hs]) _ rfl _ _ hx
            (timersAfter_onClocked _ _ _) fun u => ?_
          simp [measurePhase, alertEffect, ha, hd, tdisEffect, State.timer_onClocked]
    | triggerHigh =>
      have hx : exec .rpoll s = .next (triggerPhase s) := by simp only [exec, execRpoll, hm, hs]
      unfold triggerPhase at hx
      cases hp : s.seq.ph <;> simp only [hp] at hx
      case resync =>
        exact some (.tug s.cfg.echoTimer) (by simp [pollCommands, hs, hp]) _ rfl _ _ hx
          (timersAfter_onClocked _ _ _) fun u => rfl
      case irqEnable =>
        exact some (.cien s.cfg.echoTimer s.cfg.echoCh) (by simp [pollCommands, hs, hp]) _ rfl _ _ hx
          (cienEffect_timers _ _ _) fun u => rfl
      case settleWait => exact none _ hx fun u => by simp only [State.hold_eq]; split <;> rfl
      case pulseWait => exact none _ hx fun u => by simp only [State.hold_eq]; split <;> rfl
      all_goals exact none _ hx fun u => by simp

/-- What a command other than `RPOLL` does to the timers. -/
theorem exec_timers (i : Instr) (t : TimerId) (s s' : State) (ht : cmdTarget i = some t)
    (h : exec i s = .next s') : timersAfter s s' t (cmdTimer i s) := by
  have done (x s1 : State) (hx : exec i s = .next x) (h1 : timersAfter s s1 t (cmdTimer i s))
      (e : ∀ u, x.timer u = s1.timer u) : timersAfter s s' t (cmdTimer i s) := by
    cases Host.Outcome.next.inj (hx.symm.trans h)
    exact timersAfter_congr h1 e
  have idle (x : State) (hx : exec i s = .next x) (hf : ∀ T, s.timer t = some T → cmdTimer i s T = T)
      (e : ∀ u, x.timer u = s.timer u) : timersAfter s s' t (cmdTimer i s) :=
    done x s hx (timersAfter_id t hf fun _ => rfl) e
  cases i with
  | rpoll => exact nomatch ht
  | tcfg t' d p q =>
    cases ht
    exact done _ _ rfl (tcfgEffect_timers t d p q s) fun u => State.timer_complete _ u
  | ten t' => cases ht; exact done _ _ rfl (timersAfter_onClocked s t _) fun u => State.timer_complete _ u
  | tdis t' => cases ht; exact done _ _ rfl (timersAfter_onClocked s t _) fun u => State.timer_complete _ u
  | tug t' => cases ht; exact done _ _ rfl (timersAfter_onClocked s t _) fun u => State.timer_complete _ u
  | trdc t' =>
    cases ht
    cases hT : s.timer t with
    | none => exact idle (s.raise .unknownTimer) (by simp only [exec, execTrdc, hT]) (fun _ _ => rfl) fun u => rfl
    | some T =>
      exact idle _ (by simp only [exec, execTrdc, hT]; rfl) (fun _ _ => rfl) fun u => by simp
  | tdly t' =>
    cases ht
    cases hm : s.ctx.mode with
    | handler =>
      exact idle (s.raise .blockingInHandler) (by simp only [exec, execTdly, hm])
        (fun T _ => by simp [cmdTimer, hm]) fun u => rfl
    | main =>
      cases hT : s.timer t with
      | none =>
        exact idle (s.raise .unknownTimer) (by simp only [exec, execTdly, hm, hT])
          (fun T h => by rw [hT] at h; exact nomatch h) fun u => rfl
      | some T =>
        cases hc : T.clkEn && T.uif with
        | true =>
          refine done _ (s.setTimer t { T with uif := false })
            (by simp only [exec, execTdly, hm, hT, hc]; rfl) ?_ fun u => State.timer_complete _ u
          have := timersAfter_setTimer (f := cmdTimer (.tdly t) s) hT
          simpa [cmdTimer, hm, hc] using this
        | false =>
          refine idle _ (by simp only [exec, execTdly, hm, hT, hc]; rfl) (fun X hX => ?_) fun u => rfl
          cases Option.some.inj (hT.symm.trans hX)
          simp [cmdTimer, hc]
  | ccap t' n b => cases ht; exact done _ _ rfl (ccapEffect_timers t n b s) fun u => State.timer_complete _ u
  | ccmp t' n m b => cases ht; exact done _ _ rfl (ccmpEffect_timers t n m b s) fun u => State.timer_complete _ u
  | cpol t' n k => cases ht; exact done _ _ rfl (cpolEffect_timers t n k s) fun u => State.timer_complete _ u
  | cpwm t' n m k d b =>
    cases ht; exact done _ _ rfl (cpwmEffect_timers t n m k d b s) fun u => State.timer_complete _ u
  | cduty t' n d => cases ht; exact done _ _ rfl (timersAfter_onChan s t n _) fun u => State.timer_complete _ u
  | cwait t' n =>
    cases ht
    refine done s' s h (timersAfter_id t (fun _ _ => rfl) fun _ => rfl) fun u => ?_
    simp only [exec, execCwait] at h
    split at h
    all_goals first
      | (cases Host.Outcome.next.inj h; rfl)
      | (split at h <;> cases Host.Outcome.next.inj h <;> simp)
  | crd t' n =>
    cases ht
    exact done _ _ rfl (crdEffect_timers t n s) fun u => by simp
  | cien t' n => cases ht; exact done _ _ rfl (cienEffect_timers t n s) fun u => State.timer_complete _ u
  | cidis t' n => cases ht; exact done _ _ rfl (timersAfter_onChan s t n _) fun u => State.timer_complete _ u
  | cclr t' n => cases ht; exact done _ _ rfl (timersAfter_onChan s t n _) fun u => State.timer_complete _ u
  | rreg t' off =>
    cases ht
    cases hT : s.timer t with
    | none =>
      exact idle (s.raise .unknownTimer) (by simp only [exec, execRreg, hT])
        (fun T h => by rw [hT] at h; exact nomatch h) fun u => rfl
    | some T =>
      cases hr : regOf off with
      | none =>
        exact idle (s.raise .badRegisterOffset) (by simp only [exec, execRreg, hT, hr])
          (fun X _ => by simp [cmdTimer, hr]) fun u => rfl
      | some r =>
        cases hc : T.clkEn with
        | false =>
          refine idle _ (by simp only [exec, execRreg, hT, hr, hc]; rfl) (fun X hX => ?_)
            fun u => by simp
          cases Option.some.inj (hT.symm.trans hX)
          simp [cmdTimer, hr, hc]
        | true =>
          refine done _ (s.setTimer t (T.afterRead r))
            (by simp only [exec, execRreg, hT, hr, hc]; rfl) ?_ fun u => by simp
          have := timersAfter_setTimer (f := cmdTimer (.rreg t off) s) hT
          simpa [cmdTimer, hr, hc] using this

/-- What any command does to the timers: its own effect, or, for `RPOLL`, that of one of
`pollCommands`. -/
theorem exec_timers_all (i : Instr) (s s' : State) (h : exec i s = .next s') :
    ∃ j t, (j = i ∨ (i = .rpoll ∧ j ∈ pollCommands s)) ∧ cmdTarget j = some t ∧
      timersAfter s s' t (cmdTimer j s) := by
  cases ht : cmdTarget i with
  | some t => exact ⟨i, t, .inl rfl, ht, exec_timers i t s s' ht h⟩
  | none =>
    cases i with
    | rpoll =>
      obtain ⟨j, hj, t, hjt, hs⟩ := execRpoll_timers s s' h
      exact ⟨j, t, .inr ⟨rfl, hj⟩, hjt, hs⟩
    | _ => simp [cmdTarget] at ht

/-! ### The refresh after a command (R180) -/

/-- What the refresh after a command does to the timer the command names. -/
def refreshOp (i : Instr) (T : Timer) : Timer :=
  match i with
  | .tcfg _ _ p q => if isNegative p || isNegative q then T else if T.clkEn then T.refreshOutputs else T
  | .ccap _ n _ | .cpol _ n _ => chanOp n (fun T _ => T.refreshOutputs) T
  | _ => T

/-- All that the refresh can do to a timer. -/
theorem refreshOp_cases (i : Instr) (T : Timer) : refreshOp i T = T ∨ refreshOp i T = T.refreshOutputs := by
  unfold refreshOp
  split
  · split
    · exact .inl rfl
    · split
      · exact .inr rfl
      · exact .inl rfl
  all_goals first | exact .inl rfl | (unfold chanOp; split; exact .inl rfl; split; exact .inr rfl; exact .inl rfl)

/-- The refresh writes channels alone, and of them the output references alone. -/
theorem refreshOp_eq (i : Instr) (T : Timer) :
    refreshOp i T = { T with ch := (refreshOp i T).ch } ∧
      ∀ j, (refreshOp i T).chan j = { T.chan j with ocref := ((refreshOp i T).chan j).ocref } := by
  rcases refreshOp_cases i T with e | e <;> rw [e]
  · exact ⟨rfl, fun j => rfl⟩
  · exact ⟨rfl, fun j => by simp⟩

/-- What the refresh after a command does to the timers: at most a refresh of the one the command names. -/
theorem refreshAfter_timers (i : Instr) (t : TimerId) (s : State) (ht : cmdTarget i = some t) :
    timersAfter s (s.refreshAfter i) t (refreshOp i) := by
  cases i <;> simp only [cmdTarget, Option.some.injEq, reduceCtorEq] at ht <;> subst ht <;>
    simp only [State.refreshAfter]
  case tcfg t d p q =>
    by_cases h : (isNegative p || isNegative q) = true
    · rw [if_pos h]; exact timersAfter_id t (fun T _ => by simp only [refreshOp, if_pos h]) fun _ => rfl
    · rw [if_neg h]
      have e : refreshOp (.tcfg t d p q) = fun T => if T.clkEn then T.refreshOutputs else T := by
        funext T; simp only [refreshOp, if_neg h]
      rw [e]; exact timersAfter_onClocked s t _
  case ccap t n b => exact timersAfter_onChan s t n _
  case cpol t n k => exact timersAfter_onChan s t n _
  all_goals exact timersAfter_id _ (fun T _ => rfl) fun _ => rfl

/-! ### The steps no command starts -/

/-- What the handler body does to the timer of an interrupt entry (R212, R253). -/
def handlerOp (s : State) (t : TimerId) (T : Timer) : Timer :=
  if t = s.cfg.echoTimer then
    let n := s.cfg.echoCh
    let T1 := chanOp n (fun T i => T.modChan i Channel.afterRead) T
    match s.seq.state with
    | .echoRising => polarityOp n .falling T1
    | .echoFalling =>
      chanOp n (fun T i => T.modChan i fun C => { C with ccie := false }) (polarityOp n .rising T1)
    | .triggerHigh | .measurement => T1
  else T

/-- What an interrupt entry does to its timer (R254). -/
def irqOp (s : State) (t : TimerId) (T : Timer) : Timer :=
  let T' := handlerOp s t { T with irqPend := false }
  { T' with irqPend := T'.line && T'.irqEn }

theorem handlerOf_timers (t : TimerId) (s : State) :
    timersAfter s (handlerOf t s) t (handlerOp s t) := by
  unfold handlerOf
  by_cases ht : t = s.cfg.echoTimer
  · rw [if_pos ht]
    have h1 : timersAfter s (crdEffect t s.cfg.echoCh s).2 t
        (chanOp s.cfg.echoCh fun T i => T.modChan i Channel.afterRead) :=
      crdEffect_timers t s.cfg.echoCh s
    have h2 (k : Polarity) (f : Seq → Seq) :
        timersAfter s (cpolEffect t s.cfg.echoCh k ((crdEffect t s.cfg.echoCh s).2.modSeq f)) t
          fun T => polarityOp s.cfg.echoCh k
            (chanOp s.cfg.echoCh (fun T i => T.modChan i Channel.afterRead) T) := by
      have := cpolEffect_timers t s.cfg.echoCh k ((crdEffect t s.cfg.echoCh s).2.modSeq f)
      exact timersAfter_trans (timersAfter_congr h1 fun _ => rfl) this
    rcases onCaptureEdge_cases s with ⟨hs, e⟩ | ⟨hs, e⟩ | ⟨hs, e⟩
    · rw [e, ← ht]
      have : handlerOp s t = fun T => polarityOp s.cfg.echoCh .falling
          (chanOp s.cfg.echoCh (fun T i => T.modChan i Channel.afterRead) T) := by
        funext T; simp only [handlerOp, ht, hs, if_true]
      rw [this]
      exact timersAfter_congr (h2 .falling _) fun _ => rfl
    · rw [e, ← ht]
      have : handlerOp s t = fun T =>
          chanOp s.cfg.echoCh (fun T i => T.modChan i fun C => { C with ccie := false })
            (polarityOp s.cfg.echoCh .rising
              (chanOp s.cfg.echoCh (fun T i => T.modChan i Channel.afterRead) T)) := by
        funext T; simp only [handlerOp, ht, hs, if_true]
      rw [this]
      exact timersAfter_congr (timersAfter_trans (h2 .rising _) (timersAfter_onChan _ t _ _))
        fun _ => rfl
    · rw [e, ← ht]
      have : handlerOp s t = chanOp s.cfg.echoCh fun T i => T.modChan i Channel.afterRead := by
        funext T
        rcases hs with hs | hs <;> simp only [handlerOp, ht, hs, if_true]
      rw [this]
      exact h1
  · rw [if_neg ht]
    exact timersAfter_id t (fun T _ => by simp [handlerOp, ht]) fun _ => rfl

/-- What an interrupt entry does to the timers (R254). -/
theorem irqStep_timers (t : TimerId) (s : State) : timersAfter s (irqStep t s) t (irqOp s t) := by
  have h1 : timersAfter s (s.enterIrq t) t fun T => { T with irqPend := false } :=
    fun u => s.timer_enterIrq t u
  have h2 := handlerOf_timers t (s.enterIrq t)
  have h3 : timersAfter (handlerOf t (s.enterIrq t)) (irqStep t s) t
      fun T => { T with irqPend := T.line && T.irqEn } :=
    fun u => State.timer_returnIrq _ t u
  have e : handlerOp (s.enterIrq t) t = handlerOp s t := by
    funext T
    simp only [handlerOp, State.cfg_enterIrq, State.seq_enterIrq]
  rw [e] at h2
  have := timersAfter_trans (timersAfter_trans h1 h2) h3
  exact this

/-- What a drawn capture leaves of the timer: captured or as it stands. -/
theorem drawnCapture_timer (t : TimerId) (T : Timer) (i : ChanIdx) (s : State) (u : TimerId) :
    (drawnCapture t T i s).timer u =
      if u = t then some (if Config.freeDraw s.draws then T.capture i else T) else s.timer u := by
  unfold drawnCapture
  rw [State.timer_setTimer]
  rfl

/-- What a level driven on a pin does to its timer: nothing, the level alone, or the level and a
capture (R170). -/
theorem setInputStep_timer (t : TimerId) (n : ChanId) (v : Bool) (s : State) :
    (∀ u, u ≠ t → (setInputStep t n v s).timer u = s.timer u) ∧
    ∀ T, s.timer t = some T → ∃ T', (setInputStep t n v s).timer t = some T' ∧
      (T' = T ∨ ∃ i : ChanIdx, T' = T.modChan i (fun C => { C with tin := v }) ∨
        T' = (T.modChan i fun C => { C with tin := v }).capture i) := by
  constructor
  · intro u hu
    unfold setInputStep
    repeat' split
    all_goals first
      | rfl
      | exact s.timer_setTimer_other _ hu
  · intro T hT
    unfold setInputStep
    rw [hT]
    cases hn : chanOf n with
    | none => exact ⟨T, hT, .inl rfl⟩
    | some i =>
      simp only
      repeat' split
      all_goals first
        | exact ⟨_, s.timer_setTimer_same t _, .inr ⟨i, .inl rfl⟩⟩
        | exact ⟨_, s.timer_setTimer_same t _, .inr ⟨i, .inr rfl⟩⟩
        | skip
      rw [drawnCapture_timer, if_pos rfl]
      cases Config.freeDraw s.draws
      · exact ⟨_, rfl, .inr ⟨i, .inl rfl⟩⟩
      · exact ⟨_, rfl, .inr ⟨i, .inr rfl⟩⟩

/-- What a ghost capture does to its timer (R172). -/
theorem raceGhostStep_timers (t : TimerId) (n : ChanId) (s : State) :
    timersAfter s (raceGhostStep t n s) t fun T =>
      match chanOf n with
      | none => T
      | some i => (T.capture i).modChan i fun C => { C with polrace := false } := by
  unfold raceGhostStep
  cases chanOf n with
  | none => exact timersAfter_id t (fun _ _ => rfl) fun _ => rfl
  | some i => exact timersAfter_onTimer s t _

end Sys2Proof.Machine
end

