-- ==== Sys2Proof/Laws/Decode.lean ====
section
/-! SUPPORT. The header's fields, read back from the header the encoder builds, and the selector codes
read back from their codes (spec 30_encoding.md R80, R85 to R87). -/

namespace Sys2Proof

/-! ### Fields of a built header -/

@[simp] theorem opField_header (o : BitVec 8) (t : TimerId) (n : ChanId) (s : BitVec 8) :
    opField (header o t n s) = o := by
  apply BitVec.eq_of_getLsbD_eq
  intro i hi
  simp only [opField, header, BitVec.getLsbD_extractLsb', BitVec.getLsbD_append]
  have h1 : ¬ 24 + i < 8 := by omega
  have h2 : ¬ 24 + i - 8 < 8 := by omega
  have h3 : ¬ 24 + i - 8 - 8 < 4 := by omega
  have h4 : ¬ 24 + i - 8 - 8 - 4 < 4 := by omega
  have h5 : 24 + i - 8 - 8 - 4 - 4 = i := by omega
  simp [hi, h1, h2, h3, h4, h5]

@[simp] theorem tmrField_header (o : BitVec 8) (t : TimerId) (n : ChanId) (s : BitVec 8) :
    tmrField (header o t n s) = t := by
  apply BitVec.eq_of_getLsbD_eq
  intro i hi
  simp only [tmrField, header, BitVec.getLsbD_extractLsb', BitVec.getLsbD_append]
  have h1 : ¬ 20 + i < 8 := by omega
  have h2 : ¬ 20 + i - 8 < 8 := by omega
  have h3 : ¬ 20 + i - 8 - 8 < 4 := by omega
  have h4 : 20 + i - 8 - 8 - 4 < 4 := by omega
  have h5 : 20 + i - 8 - 8 - 4 = i := by omega
  simp [hi, h1, h2, h3, h5]

@[simp] theorem chField_header (o : BitVec 8) (t : TimerId) (n : ChanId) (s : BitVec 8) :
    chField (header o t n s) = n := by
  apply BitVec.eq_of_getLsbD_eq
  intro i hi
  simp only [chField, header, BitVec.getLsbD_extractLsb', BitVec.getLsbD_append]
  have h1 : ¬ 16 + i < 8 := by omega
  have h2 : ¬ 16 + i - 8 < 8 := by omega
  have h5 : 16 + i - 8 - 8 = i := by omega
  simp [hi, h1, h2, h5]

/-- A field inside `sel`, at bit `k` of it. -/
theorem selField_header (o : BitVec 8) (t : TimerId) (n : ChanId) (s : BitVec 8) (k w : Nat)
    (hk : k + w ≤ 8) : (header o t n s).extractLsb' (8 + k) w = s.extractLsb' k w := by
  apply BitVec.eq_of_getLsbD_eq
  intro i hi
  simp only [header, BitVec.getLsbD_extractLsb', BitVec.getLsbD_append]
  have h1 : ¬ 8 + k + i < 8 := by omega
  have h2 : 8 + k + i - 8 < 8 := by omega
  have h5 : 8 + k + i - 8 = k + i := by omega
  simp [hi, h1, h5, show k + i < 8 by omega]

@[simp] theorem dirField_header (o : BitVec 8) (t : TimerId) (n : ChanId) (s : BitVec 8) :
    dirField (header o t n s) = s.extractLsb' 0 1 := selField_header o t n s 0 1 (by omega)

@[simp] theorem modeField_header (o : BitVec 8) (t : TimerId) (n : ChanId) (s : BitVec 8) :
    modeField (header o t n s) = s.extractLsb' 0 4 := selField_header o t n s 0 4 (by omega)

@[simp] theorem polField_header (o : BitVec 8) (t : TimerId) (n : ChanId) (s : BitVec 8) :
    polField (header o t n s) = s.extractLsb' 4 2 := selField_header o t n s 4 2 (by omega)

/-! ### Selector codes -/

@[simp] theorem dirOf_selDir (d : Direction) : dirOf ((selDir d).extractLsb' 0 1) = d := by
  cases d <;> decide

@[simp] theorem modeOf_selModePol (m : OutputMode) (p : BitVec 2) :
    modeOf ((selModePol (modeCode m) p).extractLsb' 0 4) = some m := by
  revert p; cases m <;> decide

@[simp] theorem polOf_selModePol (m : BitVec 4) (p : Polarity) :
    polOf ((selModePol m (polCode p)).extractLsb' 4 2) = some p := by
  revert m; cases p <;> decide

@[simp] theorem opOf_code (o : Op) : opOf o.code = some o := by cases o <;> rfl

end Sys2Proof
end

