-- ==== Sys2Proof/Laws/Frame.lean ====
section
/-! SUPPORT. What a command and an interrupt entry leave alone outside the timers, said once. -/

namespace Sys2Proof.Machine

/-- What every command leaves of a state outside the timers and the sequencer, and how its lists grow. -/
structure Frame (s s' : State) : Prop where
  cfg : s'.cfg = s.cfg
  boot : s'.boot = s.boot
  loop : s'.loop = s.loop
  sched : s'.sched = s.sched
  picks : s'.picks = s.picks
  draws : s'.draws = s.draws
  mode : s'.ctx.mode = s.ctx.mode
  refused : s'.ctx.refused = s.ctx.refused
  results : ∃ l, s'.ctx.results = s.ctx.results ++ l
  trace : ∃ l, s'.ctx.trace = s.ctx.trace ++ l
  faults : ∃ l, s'.ctx.faults = s.ctx.faults ++ l

theorem Frame.refl (s : State) : Frame s s :=
  ⟨rfl, rfl, rfl, rfl, rfl, rfl, rfl, rfl, ⟨[], by simp⟩, ⟨[], by simp⟩, ⟨[], by simp⟩⟩

theorem Frame.trans {a b c : State} (h : Frame a b) (k : Frame b c) : Frame a c := by
  obtain ⟨r1, h1⟩ := h.results; obtain ⟨r2, h2⟩ := h.trace; obtain ⟨r3, h3⟩ := h.faults
  obtain ⟨k1, e1⟩ := k.results; obtain ⟨k2, e2⟩ := k.trace; obtain ⟨k3, e3⟩ := k.faults
  exact ⟨k.cfg.trans h.cfg, k.boot.trans h.boot, k.loop.trans h.loop, k.sched.trans h.sched,
    k.picks.trans h.picks, k.draws.trans h.draws, k.mode.trans h.mode, k.refused.trans h.refused,
    ⟨r1 ++ k1, by rw [e1, h1, List.append_assoc]⟩, ⟨r2 ++ k2, by rw [e2, h2, List.append_assoc]⟩,
    ⟨r3 ++ k3, by rw [e3, h3, List.append_assoc]⟩⟩

/-- A state that differs in its timers and its sequencer alone. -/
theorem Frame.of_ctx {s s' : State} (hc : s'.cfg = s.cfg) (hb : s'.boot = s.boot) (hl : s'.loop = s.loop)
    (hs : s'.sched = s.sched) (hp : s'.picks = s.picks) (hd : s'.draws = s.draws) (hx : s'.ctx = s.ctx) :
    Frame s s' :=
  ⟨hc, hb, hl, hs, hp, hd, by rw [hx], by rw [hx], ⟨[], by rw [hx]; simp⟩, ⟨[], by rw [hx]; simp⟩,
    ⟨[], by rw [hx]; simp⟩⟩

theorem Frame.complete (s : State) : Frame s s.complete := by
  refine ⟨by simp, by simp, by simp, by simp, by simp, by simp, by simp, by simp, ⟨[], by simp⟩, ⟨[], by simp⟩, ⟨[], by simp⟩⟩

theorem Frame.result (s : State) (v : Int) : Frame s (s.result v) :=
  ⟨rfl, rfl, rfl, rfl, rfl, rfl, rfl, rfl, ⟨[v], rfl⟩, ⟨[], by simp⟩, ⟨[], by simp⟩⟩

theorem Frame.raise (s : State) (r : FaultReason) : Frame s (s.raise r) :=
  ⟨rfl, rfl, rfl, rfl, rfl, rfl, rfl, rfl, ⟨[], by simp [State.raise]⟩, ⟨[], by simp [State.raise]⟩, ⟨_, rfl⟩⟩

theorem Frame.emit (s : State) (e : Event) : Frame s (s.emit e) :=
  ⟨rfl, rfl, rfl, rfl, rfl, rfl, rfl, rfl, ⟨[], by simp⟩, ⟨[e], rfl⟩, ⟨[], by simp⟩⟩

theorem Frame.setTimer (s : State) (t : TimerId) (T : Timer) : Frame s (s.setTimer t T) :=
  .of_ctx rfl rfl rfl rfl rfl rfl rfl

theorem Frame.onTimer (s : State) (t : TimerId) (f : Timer → Timer) : Frame s (s.onTimer t f) :=
  .of_ctx (by simp) (by simp) (by simp) (by simp) (by simp) (by simp) (by simp)

theorem Frame.onChan (s : State) (t : TimerId) (n : ChanId) (f : Timer → ChanIdx → Timer) : Frame s (s.onChan t n f) :=
  .of_ctx (by simp) (by simp) (by simp) (by simp) (by simp) (by simp) (by simp)

theorem Frame.modSeq (s : State) (f : Seq → Seq) : Frame s (s.modSeq f) :=
  .of_ctx rfl rfl rfl rfl rfl rfl rfl

theorem ccmpEffect_frame (t : TimerId) (n : ChanId) (m : OutputMode) (b : Word) (s : State) :
    Frame s (ccmpEffect t n m b s) ∧ (ccmpEffect t n m b s).seq = s.seq := by
  unfold ccmpEffect
  repeat' split
  all_goals first
    | exact ⟨.refl s, rfl⟩
    | exact ⟨(Frame.emit s _).trans (.onChan _ t n _), by simp; rfl⟩

theorem alertEffect_frame (d : Word) (s : State) : Frame s (alertEffect d s) := by
  unfold alertEffect
  repeat' split
  · exact .onTimer s _ _
  · exact .onTimer s _ _
  · exact .refl s

/-- The refresh after a command touches timers alone (R180). -/
theorem refreshAfter_frame (i : Instr) (s : State) :
    Frame s (s.refreshAfter i) ∧ (s.refreshAfter i).seq = s.seq ∧ (s.refreshAfter i).ctx = s.ctx := by
  unfold State.refreshAfter
  split
  · split
    · exact ⟨.refl s, rfl, rfl⟩
    · exact ⟨.onTimer s _ _, by simp, by simp⟩
  · exact ⟨.onChan s _ _ _, by simp, by simp⟩
  · exact ⟨.onChan s _ _ _, by simp, by simp⟩
  all_goals exact ⟨.refl s, rfl, rfl⟩

@[simp] theorem State.seq_refreshAfter (i : Instr) (s : State) : (s.refreshAfter i).seq = s.seq :=
  (refreshAfter_frame i s).2.1
@[simp] theorem State.ctx_refreshAfter (i : Instr) (s : State) : (s.refreshAfter i).ctx = s.ctx :=
  (refreshAfter_frame i s).2.2
@[simp] theorem State.cfg_refreshAfter (i : Instr) (s : State) : (s.refreshAfter i).cfg = s.cfg :=
  (refreshAfter_frame i s).1.cfg
@[simp] theorem State.boot_refreshAfter (i : Instr) (s : State) : (s.refreshAfter i).boot = s.boot :=
  (refreshAfter_frame i s).1.boot
@[simp] theorem State.loop_refreshAfter (i : Instr) (s : State) : (s.refreshAfter i).loop = s.loop :=
  (refreshAfter_frame i s).1.loop

/-- What a command leaves outside the timers: the parameters, the program, the queue and the mode, what the
lists held, and, but for `RPOLL`, the sequencer. -/
theorem exec_frame (i : Instr) (s s' : State) (h : exec i s = .next s') :
    Frame s s' ∧ (i ≠ .rpoll → s'.seq = s.seq) := by
  have seqof (x : State) (e : exec i s = .next x) (hf : Frame s x) (hq : x.seq = s.seq) :
      Frame s s' ∧ (i ≠ .rpoll → s'.seq = s.seq) := by
    cases Host.Outcome.next.inj (e.symm.trans h); exact ⟨hf, fun _ => hq⟩
  cases i with
  | tcfg t d p q =>
    refine seqof _ rfl (.trans ?_ (.complete _)) ?_ <;> unfold tcfgEffect <;> split
    · exact .refl s
    · exact .onTimer s t _
    · simp
    · simp
  | ten t => exact seqof _ rfl ((Frame.onTimer s t _).trans (.complete _)) (by simp [tenEffect])
  | tdis t => exact seqof _ rfl ((Frame.onTimer s t _).trans (.complete _)) (by simp [tdisEffect])
  | tug t => exact seqof _ rfl ((Frame.onTimer s t _).trans (.complete _)) (by simp [tugEffect])
  | ccap t n b =>
    refine seqof _ rfl (.trans ?_ (.complete _)) ?_ <;> unfold ccapEffect <;> split
    · exact (Frame.emit s _).trans (.onChan _ t n _)
    · exact .refl s
    · simp; rfl
    · simp
  | ccmp t n m b =>
    exact seqof _ rfl ((ccmpEffect_frame t n m b s).1.trans (.complete _))
      (by simpa using (ccmpEffect_frame t n m b s).2)
  | cpol t n k => exact seqof _ rfl ((Frame.onChan s t n _).trans (.complete _)) (by simp [cpolEffect])
  | cpwm t n m k d b =>
    exact seqof _ rfl (((ccmpEffect_frame t n _ b s).1.trans (.onChan _ t n _)).trans (.complete _))
      (by simpa [cpwmEffect] using (ccmpEffect_frame t n _ b s).2)
  | cduty t n d => exact seqof _ rfl ((Frame.onChan s t n _).trans (.complete _)) (by simp [cdutyEffect])
  | crd t n =>
    have : (crdEffect t n s).2 = _ := crdEffect_state t n s
    refine seqof _ rfl ((Frame.trans ?_ (.result _ _)).trans (.complete _)) ?_
    · rw [this]; exact .onChan s t n _
    · rw [this]; simp [State.result]
  | cien t n =>
    refine seqof _ rfl (.trans ?_ (.complete _)) ?_ <;> unfold cienEffect <;> split
    · exact .refl s
    · exact .onTimer s t _
    · simp
    · simp
  | cidis t n => exact seqof _ rfl ((Frame.onChan s t n _).trans (.complete _)) (by simp [cidisEffect])
  | cclr t n => exact seqof _ rfl ((Frame.onChan s t n _).trans (.complete _)) (by simp [cclrEffect])
  | trdc t =>
    simp only [exec, execTrdc] at h
    split at h <;> cases Host.Outcome.next.inj h
    · exact ⟨.raise s _, fun _ => rfl⟩
    · exact ⟨(Frame.result s _).trans (.complete _), fun _ => by simp [State.result]⟩
  | tdly t =>
    simp only [exec, execTdly] at h
    split at h
    · cases Host.Outcome.next.inj h; exact ⟨.raise s _, fun _ => rfl⟩
    · cases Host.Outcome.next.inj h; exact ⟨.raise s _, fun _ => rfl⟩
    · split at h <;> cases Host.Outcome.next.inj h
      · exact ⟨(Frame.setTimer s t _).trans (.complete _), fun _ => by simp⟩
      · exact ⟨.refl s, fun _ => rfl⟩
  | cwait t n =>
    simp only [exec, execCwait] at h
    split at h
    · cases Host.Outcome.next.inj h; exact ⟨.raise s _, fun _ => rfl⟩
    · cases Host.Outcome.next.inj h; exact ⟨.raise s _, fun _ => rfl⟩
    · cases Host.Outcome.next.inj h; exact ⟨.raise s _, fun _ => rfl⟩
    · split at h <;> cases Host.Outcome.next.inj h
      · exact ⟨.complete s, fun _ => by simp⟩
      · exact ⟨.refl s, fun _ => rfl⟩
  | rreg t off =>
    simp only [exec, execRreg] at h
    split at h
    · cases Host.Outcome.next.inj h; exact ⟨.raise s _, fun _ => rfl⟩
    · cases Host.Outcome.next.inj h; exact ⟨.raise s _, fun _ => rfl⟩
    · split at h <;> cases Host.Outcome.next.inj h
      · exact ⟨((Frame.setTimer s t _).trans (.result _ _)).trans (.complete _), fun _ => by simp [State.result]⟩
      · exact ⟨(Frame.result s _).trans (.complete _), fun _ => by simp [State.result]⟩
  | rpoll =>
    refine ⟨?_, fun h => absurd rfl h⟩
    simp only [exec, execRpoll] at h
    split at h <;> cases Host.Outcome.next.inj h
    · exact .raise s _
    · exact .complete s
    · exact .complete s
    · refine .trans ?_ (.complete _)
      unfold measurePhase
      exact (((Frame.modSeq s _).trans (.emit _ _)).trans (alertEffect_frame _ _)).trans (.modSeq _ _)
    · unfold triggerPhase
      cases hp : s.seq.ph <;> simp only [State.hold_eq]
      · exact (Frame.emit s _).trans (.modSeq _ _)
      · split
        · exact .refl s
        · exact .modSeq s _
      · exact (Frame.onTimer s _ _).trans (.modSeq _ _)
      · exact (Frame.modSeq s _).trans (.emit _ _)
      · split
        · exact .modSeq s _
        · exact .refl s
      · exact (Frame.modSeq s _).trans (.emit _ _)
      · refine .trans ?_ (.modSeq _ _)
        unfold cienEffect
        split
        · exact .refl s
        · exact .onTimer s _ _
      · exact (Frame.modSeq s _).trans (.complete _)

/-- What the handler body leaves: the whole context but a recorded fault, and, of the sequencer, all but the
state and the two counts (R28, R212, R253). -/
theorem handlerOf_frame (t : TimerId) (s : State) :
    Frame s (handlerOf t s) ∧ (handlerOf t s).ctx.pc = s.ctx.pc ∧
      (handlerOf t s).ctx.results = s.ctx.results ∧ (handlerOf t s).ctx.trace = s.ctx.trace ∧
      ∃ st r f, (handlerOf t s).seq = { s.seq with state := st, rising := r, falling := f } := by
  unfold handlerOf
  split
  · have hf : Frame s (crdEffect s.cfg.echoTimer s.cfg.echoCh s).2 := by
      rw [crdEffect_state]; exact .onChan s _ _ _
    have hx : (crdEffect s.cfg.echoTimer s.cfg.echoCh s).2.ctx = s.ctx := by
      rw [crdEffect_state]; simp
    have hq : (crdEffect s.cfg.echoTimer s.cfg.echoCh s).2.seq = s.seq := by
      rw [crdEffect_state]; simp
    rcases onCaptureEdge_cases s with ⟨hs, e⟩ | ⟨hs, e⟩ | ⟨hs, e⟩ <;> rw [e]
    · refine ⟨((hf.trans (.modSeq _ _)).trans (.onChan _ _ _ _)).trans (.modSeq _ _), ?_⟩
      simp only [State.modSeq, cpolEffect, State.ctx_onChan, State.seq_onChan, hx, hq]
      exact ⟨trivial, trivial, trivial, _, _, _, rfl⟩
    · refine ⟨(((hf.trans (.modSeq _ _)).trans (.onChan _ _ _ _)).trans (.onChan _ _ _ _)).trans
        (.modSeq _ _), ?_⟩
      simp only [State.modSeq, cidisEffect, cpolEffect, State.ctx_onChan, State.seq_onChan, hx, hq]
      exact ⟨trivial, trivial, trivial, _, _, _, rfl⟩
    · exact ⟨hf, by rw [hx], by rw [hx], by rw [hx], s.seq.state, s.seq.rising, s.seq.falling, hq⟩
  · exact ⟨.raise s _, rfl, rfl, rfl, s.seq.state, s.seq.rising, s.seq.falling, rfl⟩

/-- What an interrupt entry leaves: as `handlerOf_frame`, with the CPU back in Main (R254). -/
theorem irqStep_frame (t : TimerId) (s : State) :
    (irqStep t s).cfg = s.cfg ∧ (irqStep t s).boot = s.boot ∧ (irqStep t s).loop = s.loop ∧
      (irqStep t s).sched = s.sched ∧ (irqStep t s).ctx.mode = .main ∧
      (irqStep t s).ctx.refused = s.ctx.refused ∧ (irqStep t s).ctx.pc = s.ctx.pc ∧
      (irqStep t s).ctx.results = s.ctx.results ∧ (irqStep t s).ctx.trace = s.ctx.trace ∧
      (∃ l, (irqStep t s).ctx.faults = s.ctx.faults ++ l) ∧
      ∃ st r f, (irqStep t s).seq = { s.seq with state := st, rising := r, falling := f } := by
  obtain ⟨hf, hp, hr, ht, hq⟩ := handlerOf_frame t (s.enterIrq t)
  refine ⟨?_, ?_, ?_, ?_, ?_, ?_, ?_, ?_, ?_, ?_, ?_⟩ <;> unfold irqStep State.takeIrq
  · simp [hf.cfg]
  · simp [hf.boot]
  · simp [hf.loop]
  · simp [hf.sched]
  · simp
  · simp [hf.refused]
  · simp [hp]
  · simp [hr]
  · simp [ht]
  · simpa using hf.faults
  · simpa using hq

end Sys2Proof.Machine
end

