-- ==== Sys2Proof/Laws/Fate.lean ====
section
/-! SUPPORT. What one step of the machine can do to one timer, said once: its fate (`timer_fate`), and the
relations of timers that every step keeps (`Prims`). A whole-machine rule about a field of a timer is an
instance of `Prims` and one case of `Timer.clkCycle_rel`. -/

namespace Sys2Proof.Machine

/-- What one step from `s` leaves of the timer `T` that stood at `t`. -/
inductive TimerFate (s : State) (t : TimerId) (T : Timer) : Timer → Prop
  /-- The pick is not enabled. -/
  | stutter : s.enabled s.pick = false → TimerFate s t T T
  /-- A step other than an `Irq` step that does not touch it. -/
  | latched : TimerFate s t T T.latch
  /-- A command (or a phase of `RPOLL`) whose target it is, and the refresh after it. -/
  | cmd (i j : Instr) (c : Cmd) : s.pick = .main → s.fetch = some c → decode c = .ok i →
      (j = i ∨ (i = .rpoll ∧ j ∈ pollCommands s)) → cmdTarget j = some t →
      TimerFate s t T (refreshOp i (cmdTimer j s.takePick T)).latch
  /-- An interrupt entry of another timer. -/
  | irqOther (u : TimerId) : u ≠ t → s.pick = .irq u → TimerFate s t T T
  /-- Its own interrupt entry. -/
  | irq : s.pick = .irq t → TimerFate s t T (irqOp s.takePick t T)
  /-- Its own clock cycle. -/
  | clk : s.pick = .clk t → T.clkEn = true → TimerFate s t T T.clkCycle.latch
  /-- An input change without a capture. -/
  | tin (i : ChanIdx) (v : Bool) : (∃ n, s.pick = .setInput t n v) →
      TimerFate s t T (T.modChan i fun C => { C with tin := v }).latch
  /-- An input change with a capture. -/
  | cap (i : ChanIdx) (v : Bool) : (∃ n, s.pick = .setInput t n v) →
      TimerFate s t T ((T.modChan i fun C => { C with tin := v }).capture i).latch
  /-- A ghost capture. -/
  | ghost (i : ChanIdx) (n : ChanId) : s.pick = .raceGhost t n → T.clkEn = true →
      TimerFate s t T ((T.capture i).modChan i fun C => { C with polrace := false }).latch

/-- Every timer's fate in one step. -/
theorem timer_fate (s s' : State) (t : TimerId) (T : Timer) (h : step s = .next s')
    (hT : s.timer t = some T) :
    ∃ T', s'.timer t = some T' ∧ TimerFate s t T T' := by
  have hT' : s.takePick.timer t = some T := by simpa using hT
  obtain ⟨hf, h⟩ := step_cases h
  rcases h with ⟨he, rfl⟩ | ⟨hp, he, c, hc, ⟨r, hd, rfl⟩ | ⟨i, s1, hd, hx, rfl⟩⟩ |
    ⟨u, hp, he, rfl⟩ | ⟨u, hp, he, rfl⟩ | ⟨u, n, v, hp, he, rfl⟩ | ⟨u, n, hp, he, rfl⟩ | ⟨hp, he, rfl⟩
  · exact ⟨T, by simpa using hT, .stutter he⟩
  · exact ⟨T.latch, by rw [State.timer_latchAll]; exact congrArg (Option.map _) hT', .latched⟩
  · obtain ⟨j, u, hj, ht, hs⟩ := exec_timers_all i _ _ hx
    have hj' : j = i ∨ (i = .rpoll ∧ j ∈ pollCommands s) := by simpa [pollCommands] using hj
    have hs2 : timersAfter s1 (s1.refreshAfter i) u (refreshOp i) := by
      rcases hj with rfl | ⟨rfl, _⟩
      · exact refreshAfter_timers _ u s1 ht
      · exact timersAfter_id u (fun T _ => rfl) fun _ => rfl
    have := timersAfter_trans hs hs2 t
    rw [hT'] at this
    by_cases hu : t = u
    · subst hu
      exact ⟨_, by rw [State.timer_latchAll, this, if_pos rfl]; rfl, .cmd i j c hp hc hd hj' ht⟩
    · exact ⟨T.latch, by rw [State.timer_latchAll, this, if_neg hu]; rfl, .latched⟩
  · have := irqStep_timers u s.takePick t
    rw [hT'] at this
    by_cases hu : t = u
    · subst hu; exact ⟨_, by rw [this, if_pos rfl]; rfl, .irq hp⟩
    · exact ⟨_, by rw [this, if_neg hu], .irqOther u (Ne.symm hu) hp⟩
  · have := State.timer_onTimer s.takePick u t Timer.clkCycle
    rw [hT'] at this
    by_cases hu : t = u
    · subst hu
      refine ⟨_, by rw [State.timer_latchAll, clkStep, this, if_pos rfl]; rfl, .clk hp ?_⟩
      simpa [State.enabled, hT, hf] using he
    · exact ⟨T.latch, by rw [State.timer_latchAll, clkStep, this, if_neg hu]; rfl, .latched⟩
  · obtain ⟨h1, h2⟩ := setInputStep_timer u n v s.takePick
    by_cases hu : t = u
    · subst hu
      obtain ⟨T', e, hT2⟩ := h2 T hT'
      refine ⟨T'.latch, by rw [State.timer_latchAll, e]; rfl, ?_⟩
      rcases hT2 with rfl | ⟨i, rfl | rfl⟩
      · exact .latched
      · exact .tin i v ⟨n, hp⟩
      · exact .cap i v ⟨n, hp⟩
    · exact ⟨T.latch, by rw [State.timer_latchAll, h1 t hu, hT']; rfl, .latched⟩
  · have := raceGhostStep_timers u n s.takePick t
    rw [hT'] at this
    by_cases hu : t = u
    · subst hu
      rw [if_pos rfl] at this
      simp [State.enabled, hT, hf] at he
      cases hn : chanOf n with
      | none => simp [hn] at he
      | some i =>
        simp [hn] at this he
        refine ⟨_, by rw [State.timer_latchAll, this]; rfl, .ghost i n hp ?_⟩
        simp [Timer.canCapture] at he; tauto
    · exact ⟨T.latch, by rw [State.timer_latchAll, this, if_neg hu]; rfl, .latched⟩
  · exact ⟨T.latch, by rw [State.timer_latchAll]; simp [delayDoneStep]; exact ⟨T, hT, rfl⟩, .latched⟩

/-- A reflexive and transitive relation of timers that the primitive writes keep: it then relates a
timer before and after every command, every interrupt entry, and every step but a clock cycle. -/
structure Prims (P : Timer → Timer → Prop) : Prop where
  refl : ∀ T, P T T
  trans : ∀ {A B C}, P A B → P B C → P A C
  pend : ∀ T b, P T { T with irqPend := b }
  en : ∀ T, P T { T with irqEn := true }
  cen : ∀ T b, P T { T with cen := b }
  arpe : ∀ T, P T { T with arpe := true }
  chans : ∀ (T : Timer) c, P T { T with ch := c }
  conf : ∀ (T : Timer) d p q, P T (T.configure d p q)
  upd : ∀ T, T.clkEn = true → P T (T.updateEvent .software)

/-- The relation over this operation. -/
theorem Prims.of_modChan {P} (h : Prims P) (T : Timer) (i f) : P T (T.modChan i f) := h.chans T _

/-- The relation over this operation. -/
theorem Prims.of_refreshOutputs {P} (h : Prims P) (T : Timer) : P T T.refreshOutputs := h.chans T _

/-- The relation over this operation. -/
theorem Prims.of_refreshOp {P} (h : Prims P) (i : Instr) (T : Timer) : P T (refreshOp i T) := by
  rcases refreshOp_cases i T with e | e <;> rw [e]
  · exact h.refl T
  · exact h.of_refreshOutputs T

/-- The relation over this operation. -/
theorem Prims.of_latch {P} (h : Prims P) (T : Timer) : P T T.latch := h.pend T _

/-- The relation over this operation. -/
theorem Prims.of_chanOp {P} (h : Prims P) (n f) (hf : ∀ T i, P T (f T i)) (T : Timer) :
    P T (chanOp n f T) := by
  unfold chanOp; split; exact h.refl T; split; exact hf T _; exact h.refl T

/-- The relation over this operation. -/
theorem Prims.of_compareOp {P} (h : Prims P) (n m) (T : Timer) : P T (compareOp n m T) := by
  unfold compareOp; split; exact h.refl T
  exact h.of_chanOp _ _ (fun T i => h.trans (h.of_modChan T i _) (h.of_refreshOutputs _)) T

/-- The relation over this operation. -/
theorem Prims.of_polarityOp {P} (h : Prims P) (n k) (T : Timer) : P T (polarityOp n k T) :=
  h.of_chanOp _ _ (fun T i => by
    unfold Timer.setPolarity
    dsimp only
    split
    · exact h.trans (h.of_modChan T i _) (h.of_refreshOutputs _)
    · exact h.of_modChan T i _) T

/-- The relation over this operation. -/
theorem Prims.of_afterRead {P} (h : Prims P) (r) (T : Timer) : P T (T.afterRead r) := by
  cases r <;> first | exact h.refl T | exact h.of_modChan T _ _

/-- The relation over this operation. -/
theorem Prims.of_toPwm {P} (h : Prims P) (T : Timer) (i k d) : P T (T.toPwm i k d) :=
  h.trans (h.trans (h.of_modChan T i _) (h.arpe _)) (h.of_refreshOutputs _)

/-- The relation over this operation. -/
theorem Prims.of_setDuty {P} (h : Prims P) (T : Timer) (i d) : P T (T.setDuty i d) := by
  unfold Timer.setDuty
  split
  · split
    · exact h.of_modChan T i _
    · exact h.trans (h.of_modChan T i _) (h.of_refreshOutputs _)
  · exact h.refl T

/-- The relation over this operation. -/
theorem Prims.of_enableOp {P} (h : Prims P) (n) (T : Timer) : P T (enableOp n T) := by
  unfold enableOp
  split
  · exact h.refl T
  · unfold Timer.enableIrq
    dsimp only
    split
    · exact h.trans (h.of_modChan T _ _) (h.en _)
    · exact h.en T

/-- The relation over this operation. -/
theorem Prims.of_cmdTimer {P} (h : Prims P) (i s T)
    (hu : ∀ t, i = .tdly t → ∀ T : Timer, P T { T with uif := false }) : P T (cmdTimer i s T) := by
  cases i <;> simp only [cmdTimer]
  case tcfg => split; exact h.refl T; exact h.conf T _ _ _
  case ten => split; exact h.cen T _; exact h.refl T
  case tdis => split; exact h.cen T _; exact h.refl T
  case tug => split; exact h.upd T ‹_›; exact h.refl T
  case trdc => exact h.refl T
  case tdly => split; exact hu _ rfl T; exact h.refl T
  case ccap => exact h.of_chanOp _ _ (fun T i => h.of_modChan T i _) T
  case ccmp => exact h.of_compareOp _ _ T
  case cpol => exact h.of_polarityOp _ _ T
  case cpwm => exact h.trans (h.of_compareOp _ _ T) (h.of_chanOp _ _ (fun T i => h.of_toPwm T i _ _) _)
  case cduty => exact h.of_chanOp _ _ (fun T i => h.of_setDuty T i _) T
  case cwait => exact h.refl T
  case crd => exact h.of_chanOp _ _ (fun T i => h.of_modChan T i _) T
  case cien => exact h.of_enableOp _ T
  case cidis => exact h.of_chanOp _ _ (fun T i => h.of_modChan T i _) T
  case cclr => exact h.of_chanOp _ _ (fun T i => h.of_modChan T i _) T
  case rreg => split; exact h.refl T; split; exact h.of_afterRead _ T; exact h.refl T
  case rpoll => exact h.refl T

/-- The relation over this operation. -/
theorem Prims.of_handlerOp {P} (h : Prims P) (s t T) : P T (handlerOp s t T) := by
  unfold handlerOp
  have h0 : ∀ T, P T (chanOp s.cfg.echoCh (fun T i => T.modChan i Channel.afterRead) T) :=
    h.of_chanOp _ _ (fun T i => h.of_modChan T i _)
  split
  · dsimp only
    split
    · exact h.trans (h0 T) (h.of_polarityOp _ _ _)
    · exact h.trans (h.trans (h0 T) (h.of_polarityOp _ _ _)) (h.of_chanOp _ _
          (fun T i => h.of_modChan T i _) _)
    · exact h0 T
    · exact h0 T
  · exact h.refl T

/-- The relation over this operation. -/
theorem Prims.of_irqOp {P} (h : Prims P) (s t T) : P T (irqOp s t T) :=
  h.trans (h.trans (h.pend T false) (h.of_handlerOp s t _)) (h.pend _ _)

/-- The relation over one step, but for a clock cycle and the `TDLY` that clears the update flag. -/
theorem Prims.fate {P} (h : Prims P) {s t T T'} (hf : TimerFate s t T T')
    (hc : s.pick = .clk t → T.clkEn = true → P T T.clkCycle)
    (hu : ∀ c, s.pick = .main → s.fetch = some c → decode c = .ok (.tdly t) →
      ∀ T : Timer, P T { T with uif := false }) : P T T' := by
  cases hf with
  | latched => exact h.of_latch T
  | cmd i j c hp hc hd hj ht =>
    refine h.trans (h.trans (h.of_cmdTimer j _ T fun u e => ?_) (h.of_refreshOp i _)) (h.of_latch _)
    subst e
    rcases hj with rfl | ⟨rfl, hj⟩
    · cases ht; exact hu c hp hc hd
    · exact absurd hj (tdly_not_mem_pollCommands s u)
  | irqOther => exact h.refl T
  | irq => exact h.of_irqOp _ _ _
  | clk hp he => exact h.trans (hc hp he) (h.of_latch _)
  | tin i v => exact h.trans (h.of_modChan T i _) (h.of_latch _)
  | cap i v => exact h.trans (h.trans (h.of_modChan T i _) (h.of_modChan _ i _)) (h.of_latch _)
  | ghost i => exact h.trans (h.trans (h.of_modChan T i _) (h.of_modChan _ i _)) (h.of_latch _)
  | stutter => exact h.refl T

/-- A relation of timers through one input-clock cycle. -/
theorem Timer.clkCycle_rel {P : Timer → Timer → Prop} (htr : ∀ {A B C}, P A B → P B C → P A C)
    (hch : ∀ (T : Timer) c, P T { T with ch := c }) (hpc : ∀ (T : Timer) b, P T { T with pscCnt := b })
    (hct : ∀ T : Timer, P T T.count) (T : Timer) : P T T.clkCycle := by
  unfold Timer.clkCycle
  dsimp only
  split
  · refine htr (B := T.mapChans fun C => { C with polrace := false }) (hch T _) ?_
    unfold Timer.prescale
    split
    · exact htr (htr (htr (hpc _ _) (hct _)) (hch _ _)) (hch _ _)
    · exact hpc _ _
  · exact hch T _

/-- The step of an enabled interrupt entry. -/
theorem step_of_irq (s : State) (t : TimerId) (hp : s.pick = .irq t) (he : s.enabled (.irq t) = true) :
    step s = .next (irqStep t s.takePick) := by
  have hf : s.ctx.faults = [] := by simp [State.enabled] at he; exact he.1
  rw [step_of_noFault s hf, hp, he]; rfl

end Sys2Proof.Machine
end

