-- ==== Sys2Proof/Laws/Outputs.lean ====
section
/-! SUPPORT. When the output references are up to date (spec 41_capture_compare.md R180): refreshing twice is
refreshing once, and what a command and the refresh after it leave is refreshed, or writes none of the fields
an output reference depends on. -/

namespace Sys2Proof.Machine

/-- Refreshing a refreshed timer changes nothing. -/
@[simp] theorem Timer.refreshOutputs_idem (T : Timer) : T.refreshOutputs.refreshOutputs = T.refreshOutputs :=
  Timer.ext_chan _ _ rfl fun i => by simp

/-- A tick ends refreshed (R111). -/
@[simp] theorem Timer.refreshOutputs_tick (T : Timer) : T.tick.refreshOutputs = T.tick :=
  T.count.compare.refreshOutputs_idem

/-- An update event ends refreshed (R112). -/
@[simp] theorem Timer.refreshOutputs_updateEvent (T : Timer) (src : UpdateSrc) :
    (T.updateEvent src).refreshOutputs = T.updateEvent src :=
  Timer.refreshOutputs_idem _

/-- The latch takes no part in a refresh. -/
theorem Timer.refreshOutputs_latch {T : Timer} (h : T.refreshOutputs = T) : T.latch.refreshOutputs = T.latch := by
  conv_rhs => rw [← h]
  exact Timer.ext_chan _ _ (by rw [h]; rfl) fun i => by simp

/-- `T'` has the direction of `T` and every channel's sub-mode, active compare value and `ccp`. -/
def Timer.sameDrive (T T' : Timer) : Prop :=
  T'.dir = T.dir ∧ ∀ i, (T'.chan i).ocm = (T.chan i).ocm ∧ (T'.chan i).ccrSh = (T.chan i).ccrSh ∧
    (T'.chan i).ccp = (T.chan i).ccp

/-- A change of one channel that keeps the three fields. -/
theorem Timer.sameDrive_modChan (T : Timer) (i : ChanIdx) (f : Channel → Channel)
    (h : ∀ C, (f C).ocm = C.ocm ∧ (f C).ccrSh = C.ccrSh ∧ (f C).ccp = C.ccp) : T.sameDrive (T.modChan i f) := by
  refine ⟨rfl, fun j => ?_⟩
  rw [Timer.chan_modChan]
  split
  · exact h _
  · exact ⟨rfl, rfl, rfl⟩

/-- A channel operation leaves the timer as it was or does its part. -/
theorem chanOp_cases (n : ChanId) (f : Timer → ChanIdx → Timer) (T : Timer) :
    chanOp n f T = T ∨ ∃ i, chanOf n = some i ∧ T.clkEn = true ∧ chanOp n f T = f T i := by
  unfold chanOp
  split
  · exact .inl rfl
  · split
    · exact .inr ⟨_, ‹_›, ‹_›, rfl⟩
    · exact .inl rfl

/-- What a command and the refresh after it leave of the timer it names is refreshed, or none of the fields an
output reference depends on was written (R180). -/
theorem refreshOp_cmdTimer (i : Instr) (s : State) (T : Timer) :
    (refreshOp i (cmdTimer i s T)).refreshOutputs = refreshOp i (cmdTimer i s T) ∨
      T.sameDrive (refreshOp i (cmdTimer i s T)) := by
  have same : ∀ T' : Timer, T' = T → T'.refreshOutputs = T' ∨ T.sameDrive T' :=
    fun T' e => .inr (e ▸ ⟨rfl, fun _ => ⟨rfl, rfl, rfl⟩⟩)
  have chan (n f) (h : ∀ i, (f T i).refreshOutputs = f T i ∨ T.sameDrive (f T i)) :
      (chanOp n f T).refreshOutputs = chanOp n f T ∨ T.sameDrive (chanOp n f T) := by
    rcases chanOp_cases n f T with e | ⟨i, _, _, e⟩
    · exact same _ e
    · rw [e]; exact h i
  have after (n f) (h : ∀ i, (f T i).clkEn = T.clkEn) :
      ∀ N, N = chanOp n (fun T _ => T.refreshOutputs) (chanOp n f T) →
        N.refreshOutputs = N ∨ T.sameDrive N := by
    rintro N rfl
    rcases chanOp_cases n f T with e | ⟨i, hi, hc, e⟩
    · rw [e]; exact chan n _ fun i => .inl (Timer.refreshOutputs_idem _)
    · refine .inl ?_
      rw [e, chanOp, hi]
      simp [h i, hc]
  cases i <;> simp only [cmdTimer, refreshOp]
  case tcfg =>
    split
    · exact same _ rfl
    · exact .inl (by simp [Timer.configure])
  case ten => split <;> exact .inr ⟨rfl, fun _ => ⟨rfl, rfl, rfl⟩⟩
  case tdis => split <;> exact .inr ⟨rfl, fun _ => ⟨rfl, rfl, rfl⟩⟩
  case tug =>
    split
    · exact .inl (by simp)
    · exact same _ rfl
  case tdly => split <;> exact .inr ⟨rfl, fun _ => ⟨rfl, rfl, rfl⟩⟩
  case ccap => exact after _ _ (fun i => rfl) _ rfl
  case cpol => exact after _ _ (fun i => by unfold Timer.setPolarity; dsimp only; split <;> rfl) _ rfl
  case ccmp t n m b =>
    unfold compareOp
    split
    · exact same _ rfl
    · exact chan _ _ fun i => .inl (Timer.refreshOutputs_idem _)
  case cpwm t n m k d b =>
    rcases chanOp_cases n (fun T i => T.toPwm i k d) (compareOp n (pwmModeOf m) T) with e | ⟨i, _, _, e⟩
    · rw [e]
      unfold compareOp
      split
      · exact same _ rfl
      · exact chan _ _ fun i => .inl (Timer.refreshOutputs_idem _)
    · rw [e]; exact .inl (Timer.refreshOutputs_idem _)
  case cduty =>
    refine chan _ _ fun i => ?_
    unfold Timer.setDuty
    split
    · split
      · exact .inr (T.sameDrive_modChan i _ fun _ => ⟨rfl, rfl, rfl⟩)
      · exact .inl (Timer.refreshOutputs_idem _)
    · exact same _ rfl
  case crd =>
    refine chan _ _ fun i => .inr (T.sameDrive_modChan i _ fun C => ?_)
    unfold Channel.afterRead
    split <;> exact ⟨rfl, rfl, rfl⟩
  case cien =>
    unfold enableOp Timer.enableIrq
    dsimp only
    split
    · exact same _ rfl
    · split
      · exact .inr (T.sameDrive_modChan _ (fun C => { C with ccie := true }) fun _ => ⟨rfl, rfl, rfl⟩)
      · exact .inr ⟨rfl, fun _ => ⟨rfl, rfl, rfl⟩⟩
  case cidis => exact chan _ _ fun i => .inr (T.sameDrive_modChan i _ fun _ => ⟨rfl, rfl, rfl⟩)
  case cclr => exact chan _ _ fun i => .inr (T.sameDrive_modChan i _ fun _ => ⟨rfl, rfl, rfl⟩)
  case rreg =>
    split
    · exact same _ rfl
    · split
      · rename_i r _ _
        cases r <;> first
          | exact same _ rfl
          | (refine .inr (T.sameDrive_modChan _ _ fun C => ?_)
             unfold Channel.afterRead
             split <;> exact ⟨rfl, rfl, rfl⟩)
      · exact same _ rfl
  all_goals exact same _ rfl

end Sys2Proof.Machine
end

