-- ==== Sys2Proof/Laws/PerInstr.lean ====
section
/-! SUPPORT. The family `HeaderMatch`, one lemma per command: the header the encoder builds for it
carries the match word of its opcode under the opcode's mask (spec 30_encoding.md R89). -/

namespace Sys2Proof.Laws.HeaderMatch

/-- The opcode of a command (R84). -/
def opcodeOf : Instr → Op
  | .tcfg _ _ _ _ => .tcfg
  | .ten _ => .ten
  | .tdis _ => .tdis
  | .tug _ => .tug
  | .trdc _ => .trdc
  | .tdly _ => .tdly
  | .ccap _ _ _ => .ccap
  | .ccmp _ _ _ _ => .ccmp
  | .cpol _ _ _ => .cpol
  | .cpwm _ _ _ _ _ _ => .cpwm
  | .cduty _ _ _ => .cduty
  | .cwait _ _ => .cwait
  | .crd _ _ => .crd
  | .cien _ _ => .cien
  | .cidis _ _ => .cidis
  | .cclr _ _ => .cclr
  | .rreg _ _ => .rreg
  | .rpoll => .rpoll

/-- The header of the command's encoding, masked, is the match word of its opcode (R89). -/
def Statement (i : Instr) : Prop :=
  (encode i).w0 &&& (opcodeOf i).mask = (opcodeOf i).matchWord

/-- Masking acts on the two parts of a concatenation. -/
theorem append_masked {a b : Nat} (x x' : BitVec a) (y y' : BitVec b) :
    (x ++ y) &&& (x' ++ y') = (x &&& x') ++ (y &&& y') := by
  apply BitVec.eq_of_getLsbD_eq
  intro i _
  simp only [BitVec.getLsbD_and, BitVec.getLsbD_append]
  split <;> rfl

/-- A header under a mask, field by field. -/
theorem header_masked (o mo : BitVec 8) (t mt : TimerId) (n mn : ChanId) (s ms mr : BitVec 8) :
    header o t n s &&& (mo ++ mt ++ mn ++ ms ++ mr : Word) =
      ((o &&& mo) ++ (t &&& mt) ++ (n &&& mn) ++ (s &&& ms) ++ 0#8 : Word) := by
  show ((o ++ t ++ n ++ s ++ 0#8) &&& (mo ++ mt ++ mn ++ ms ++ mr) : BitVec (8 + 4 + 4 + 8 + 8)) = _
  rw [append_masked, append_masked, append_masked, append_masked, BitVec.zero_and]

theorem tcfg (t : TimerId) (d : Direction) (p q : Word) : Statement (.tcfg t d p q) := by
  have hm : Op.mask .tcfg = (0xFF#8 ++ 0#4 ++ 0xF#4 ++ 0xFE#8 ++ 0xFF#8 : Word) := by decide
  simp only [Statement, encode, opcodeOf]
  rw [hm, header_masked]
  cases d <;> simp [selDir, dirCode] <;> decide

theorem ten (t : TimerId) : Statement (.ten t) := by
  have hm : Op.mask .ten = (0xFF#8 ++ 0#4 ++ 0xF#4 ++ 0xFF#8 ++ 0xFF#8 : Word) := by decide
  simp only [Statement, encode, opcodeOf]
  rw [hm, header_masked]
  simp
  decide

theorem tdis (t : TimerId) : Statement (.tdis t) := by
  have hm : Op.mask .tdis = (0xFF#8 ++ 0#4 ++ 0xF#4 ++ 0xFF#8 ++ 0xFF#8 : Word) := by decide
  simp only [Statement, encode, opcodeOf]
  rw [hm, header_masked]
  simp
  decide

theorem tug (t : TimerId) : Statement (.tug t) := by
  have hm : Op.mask .tug = (0xFF#8 ++ 0#4 ++ 0xF#4 ++ 0xFF#8 ++ 0xFF#8 : Word) := by decide
  simp only [Statement, encode, opcodeOf]
  rw [hm, header_masked]
  simp
  decide

theorem trdc (t : TimerId) : Statement (.trdc t) := by
  have hm : Op.mask .trdc = (0xFF#8 ++ 0#4 ++ 0xF#4 ++ 0xFF#8 ++ 0xFF#8 : Word) := by decide
  simp only [Statement, encode, opcodeOf]
  rw [hm, header_masked]
  simp
  decide

theorem tdly (t : TimerId) : Statement (.tdly t) := by
  have hm : Op.mask .tdly = (0xFF#8 ++ 0#4 ++ 0xF#4 ++ 0xFF#8 ++ 0xFF#8 : Word) := by decide
  simp only [Statement, encode, opcodeOf]
  rw [hm, header_masked]
  simp
  decide

theorem ccap (t : TimerId) (n : ChanId) (b : Word) : Statement (.ccap t n b) := by
  have hm : Op.mask .ccap = (0xFF#8 ++ 0#4 ++ 0#4 ++ 0xFF#8 ++ 0xFF#8 : Word) := by decide
  simp only [Statement, encode, opcodeOf]
  rw [hm, header_masked]
  simp
  decide

theorem ccmp (t : TimerId) (n : ChanId) (m : OutputMode) (b : Word) : Statement (.ccmp t n m b) := by
  have hm : Op.mask .ccmp = (0xFF#8 ++ 0#4 ++ 0#4 ++ 0xF0#8 ++ 0xFF#8 : Word) := by decide
  simp only [Statement, encode, opcodeOf]
  rw [hm, header_masked]
  cases m <;> simp [selModePol, modeCode] <;> decide

theorem cpol (t : TimerId) (n : ChanId) (k : Polarity) : Statement (.cpol t n k) := by
  have hm : Op.mask .cpol = (0xFF#8 ++ 0#4 ++ 0#4 ++ 0xCF#8 ++ 0xFF#8 : Word) := by decide
  simp only [Statement, encode, opcodeOf]
  rw [hm, header_masked]
  cases k <;> simp [selModePol, polCode] <;> decide

theorem cpwm (t : TimerId) (n : ChanId) (m : OutputMode) (k : Polarity) (d b : Word) : Statement (.cpwm t n m k d b) := by
  have hm : Op.mask .cpwm = (0xFF#8 ++ 0#4 ++ 0#4 ++ 0xC0#8 ++ 0xFF#8 : Word) := by decide
  simp only [Statement, encode, opcodeOf]
  rw [hm, header_masked]
  cases m <;> cases k <;> simp [selModePol, modeCode, polCode] <;> decide

theorem cduty (t : TimerId) (n : ChanId) (d : Word) : Statement (.cduty t n d) := by
  have hm : Op.mask .cduty = (0xFF#8 ++ 0#4 ++ 0#4 ++ 0xFF#8 ++ 0xFF#8 : Word) := by decide
  simp only [Statement, encode, opcodeOf]
  rw [hm, header_masked]
  simp
  decide

theorem cwait (t : TimerId) (n : ChanId) : Statement (.cwait t n) := by
  have hm : Op.mask .cwait = (0xFF#8 ++ 0#4 ++ 0#4 ++ 0xFF#8 ++ 0xFF#8 : Word) := by decide
  simp only [Statement, encode, opcodeOf]
  rw [hm, header_masked]
  simp
  decide

theorem crd (t : TimerId) (n : ChanId) : Statement (.crd t n) := by
  have hm : Op.mask .crd = (0xFF#8 ++ 0#4 ++ 0#4 ++ 0xFF#8 ++ 0xFF#8 : Word) := by decide
  simp only [Statement, encode, opcodeOf]
  rw [hm, header_masked]
  simp
  decide

theorem cien (t : TimerId) (n : ChanId) : Statement (.cien t n) := by
  have hm : Op.mask .cien = (0xFF#8 ++ 0#4 ++ 0#4 ++ 0xFF#8 ++ 0xFF#8 : Word) := by decide
  simp only [Statement, encode, opcodeOf]
  rw [hm, header_masked]
  simp
  decide

theorem cidis (t : TimerId) (n : ChanId) : Statement (.cidis t n) := by
  have hm : Op.mask .cidis = (0xFF#8 ++ 0#4 ++ 0#4 ++ 0xFF#8 ++ 0xFF#8 : Word) := by decide
  simp only [Statement, encode, opcodeOf]
  rw [hm, header_masked]
  simp
  decide

theorem cclr (t : TimerId) (n : ChanId) : Statement (.cclr t n) := by
  have hm : Op.mask .cclr = (0xFF#8 ++ 0#4 ++ 0#4 ++ 0xFF#8 ++ 0xFF#8 : Word) := by decide
  simp only [Statement, encode, opcodeOf]
  rw [hm, header_masked]
  simp
  decide

theorem rreg (t : TimerId) (off : Word) : Statement (.rreg t off) := by
  have hm : Op.mask .rreg = (0xFF#8 ++ 0#4 ++ 0xF#4 ++ 0xFF#8 ++ 0xFF#8 : Word) := by decide
  simp only [Statement, encode, opcodeOf]
  rw [hm, header_masked]
  simp
  decide

theorem rpoll : Statement (.rpoll) := by
  simp only [Statement, encode, opcodeOf]
  decide

end Sys2Proof.Laws.HeaderMatch
end

