-- ==== Sys2Proof/Laws/Runs.lean ====
section
/-! SUPPORT. What a run under a schedule is made of, said once (spec 00_scope.md R14): its states record no
fault, and each of its steps is the scheduled agent's or changes nothing; and what keeps a pending latch. -/

namespace Sys2Proof.Machine

/-! ### A scheduled pick -/

@[simp] theorem State.pick_scheduled (s : State) (a : Agent) : (s.scheduled a).pick = a := rfl
@[simp] theorem State.takePick_scheduled (s : State) (a : Agent) : (s.scheduled a).takePick = s := rfl
@[simp] theorem State.timer_scheduled (s : State) (a : Agent) (t : TimerId) :
    (s.scheduled a).timer t = s.timer t := rfl
@[simp] theorem State.seq_scheduled (s : State) (a : Agent) : (s.scheduled a).seq = s.seq := rfl
@[simp] theorem State.ctx_scheduled (s : State) (a : Agent) : (s.scheduled a).ctx = s.ctx := rfl

/-- What is enabled does not depend on the scheduler's picks. -/
@[simp] theorem State.enabled_scheduled (s : State) (a b : Agent) :
    (s.scheduled a).enabled b = s.enabled b := rfl

/-! ### The steps of a run -/

/-- No state of a run records a fault (R241). -/
theorem IsRun.noFault {sch : Nat → Agent} {run : Nat → State} (h : IsRun sch run) (n : Nat) :
    (run n).ctx.faults = [] :=
  (step_cases (h n)).1

/-- Each step of a run is the scheduled agent's, or its pick is not enabled and it changes nothing. -/
theorem IsRun.step_or_stutter {sch : Nat → Agent} {run : Nat → State} (h : IsRun sch run) (n : Nat) :
    ((run n).enabled (sch n) = true ∧ agentStep (sch n) (run n) = .next (run (n + 1))) ∨
      ((run n).enabled (sch n) = false ∧ run (n + 1) = run n) := by
  have hs := h n
  rw [step_of_noFault _ (by simpa using h.noFault n)] at hs
  cases he : (run n).enabled (sch n) with
  | true => exact .inl ⟨rfl, by simpa [he] using hs⟩
  | false => exact .inr ⟨rfl, by simpa [he, eq_comm] using hs⟩

/-- A timer of a run is there at every later state, with the fate one step gives it. -/
theorem IsRun.timer_fate {sch : Nat → Agent} {run : Nat → State} (h : IsRun sch run) (n : Nat) {t : TimerId}
    {T : Timer} (hT : (run n).timer t = some T) :
    ∃ T', (run (n + 1)).timer t = some T' ∧ TimerFate ((run n).scheduled (sch n)) t T T' :=
  Machine.timer_fate _ _ t T (h n) (by simpa using hT)

/-! ### What keeps a pending latch (R251) -/

/-- The refresh after a command keeps the latch. -/
@[simp] theorem irqPend_refreshOp (i : Instr) (T : Timer) : (refreshOp i T).irqPend = T.irqPend := by
  rcases refreshOp_cases i T with e | e <;> rw [e]; rfl

/-- A channel operation that keeps the latch. -/
theorem chanOp_irqPend (n : ChanId) (f : Timer → ChanIdx → Timer) (hf : ∀ T i, (f T i).irqPend = T.irqPend)
    (T : Timer) : (chanOp n f T).irqPend = T.irqPend := by
  unfold chanOp
  repeat' split
  all_goals simp [hf]

/-- No command writes the pending latch of the timer it names (R250). -/
theorem cmdTimer_irqPend (i : Instr) (s : State) (T : Timer) : (cmdTimer i s T).irqPend = T.irqPend := by
  have hcmp : ∀ n m T, (compareOp n m T).irqPend = T.irqPend := fun n m T => by
    unfold compareOp; split; rfl; refine chanOp_irqPend _ _ (fun T i => ?_) T; rfl
  cases i <;> simp only [cmdTimer]
  case tcfg => split <;> rfl
  case ten => split <;> rfl
  case tdis => split <;> rfl
  case tug => split <;> rfl
  case tdly => split <;> rfl
  case cpwm => rw [chanOp_irqPend, hcmp]; intros; rfl
  case ccmp => exact hcmp _ _ _
  case cpol =>
    refine chanOp_irqPend _ _ (fun T i => ?_) T
    unfold Timer.setPolarity
    dsimp only
    split <;> rfl
  case cduty =>
    refine chanOp_irqPend _ _ (fun T i => ?_) T
    unfold Timer.setDuty
    repeat' split
    all_goals rfl
  case cien => unfold enableOp Timer.enableIrq; dsimp only; repeat' split
               all_goals rfl
  case rreg =>
    split
    · rfl
    · split
      · rename_i r _ _; cases r <;> rfl
      · rfl
  all_goals refine chanOp_irqPend _ _ (fun T i => ?_) T; rfl

/-- No clock cycle writes the pending latch (R110). -/
theorem Timer.irqPend_clkCycle (T : Timer) : T.clkCycle.irqPend = T.irqPend :=
  Timer.clkCycle_rel (P := fun A B => B.irqPend = A.irqPend) (fun h k => k.trans h) (fun _ _ => rfl)
    (fun _ _ => rfl)
    (fun T => by rcases T.count_cases with ⟨_, _, h⟩ | ⟨_, _, h⟩ | ⟨_, _, h⟩ | ⟨_, _, h⟩ <;> rw [h] <;> rfl) T

end Sys2Proof.Machine
end

