-- ==== Sys2Proof/Laws/Wf.lean ====
section
/-! SUPPORT. The timer's part of the invariant of spec 10_state.md R27, through each operation: one lemma
per operation saying that it keeps `Timer.wf` (or `Channel.wf`). -/

namespace Sys2Proof.Machine

theorem Timer.wf_iff (T : Timer) : T.wf = true ↔
    (fits T.width T.arr = true ∧ fits T.width T.arrSh = true ∧ fits T.width T.cnt = true ∧
      T.pscCnt ≤ T.pscSh ∧ ∀ i, (T.chan i).wf T.width = true) := by
  unfold Timer.wf
  simp only [Bool.and_eq_true, decide_eq_true_eq, Vector.all_eq_true, and_assoc]
  constructor
  · rintro ⟨a, b, c, d, e⟩; exact ⟨a, b, c, d, fun i => e i.val i.isLt⟩
  · rintro ⟨a, b, c, d, e⟩; exact ⟨a, b, c, d, fun i hi => e ⟨i, hi⟩⟩

theorem fits_truncTo (w v) : fits w (truncTo w v) = true := by simp [fits, truncTo_lt]

theorem fits_zero (w) : fits w 0 = true := by cases w <;> decide

theorem Timer.wf_of_fields (T T' : Timer) (h : T.wf = true) (hw : T'.width = T.width)
    (ha : T'.arr = T.arr ∨ fits T.width T'.arr = true)
    (hb : T'.arrSh = T.arrSh ∨ T'.arrSh = T.arr ∨ fits T.width T'.arrSh = true)
    (hc : T'.cnt = T.cnt ∨ T'.cnt = T.arrSh ∨ fits T.width T'.cnt = true)
    (hp : (T'.pscCnt = T.pscCnt ∧ T'.pscSh = T.pscSh) ∨ T'.pscCnt ≤ T'.pscSh)
    (hch : ∀ i, (T.chan i).wf T.width = true → (T'.chan i).wf T.width = true) : T'.wf = true := by
  rw [Timer.wf_iff] at h ⊢
  obtain ⟨h1, h2, h3, h4, h5⟩ := h
  rw [hw]
  refine ⟨?_, ?_, ?_, ?_, fun i => hch i (h5 i)⟩
  · rcases ha with h | h; rw [h]; exact h1; exact h
  · rcases hb with h | h | h; rw [h]; exact h2; rw [h]; exact h1; exact h
  · rcases hc with h | h | h; rw [h]; exact h3; rw [h]; exact h2; exact h
  · rcases hp with ⟨h, h'⟩ | h; rw [h, h']; exact h4; exact h

theorem Channel.wf_iff (w C) : Channel.wf w C = true ↔
    (fits w C.ccr = true ∧ fits w C.ccrSh = true ∧ (C.ccs = 0 ∨ C.ccs = 1) ∧
      (C.ccs = 1 → C.ocm = 0 ∧ C.ocpe = false) ∧ (C.ccnp = true → C.ccp = true)) := by
  unfold Channel.wf
  simp only [Bool.and_eq_true, Bool.or_eq_true, beq_iff_eq, bne_iff_ne, Bool.not_eq_true', and_assoc]
  constructor
  · rintro ⟨a, b, c, d, e⟩; refine ⟨a, b, c, fun h => ?_, fun h => ?_⟩
    · rcases d with d | d; exact absurd h d; exact d
    · rcases e with e | e; rw [h] at e; exact absurd e (by decide); exact e
  · rintro ⟨a, b, c, d, e⟩; refine ⟨a, b, c, ?_, ?_⟩
    · by_cases h : C.ccs = 1; exact .inr (d h); exact .inl h
    · cases h : C.ccnp; exact .inl rfl; exact .inr (e h)

theorem Timer.wf_modChan (T : Timer) (i f) (h : T.wf = true)
    (hf : ∀ C, C.wf T.width = true → (f C).wf T.width = true) : (T.modChan i f).wf = true := by
  refine Timer.wf_of_fields T _ h rfl (.inl rfl) (.inl rfl) (.inl rfl) (.inl ⟨rfl, rfl⟩) fun j hj => ?_
  rw [Timer.chan_modChan]; split; exact hf _ hj; exact hj

theorem Timer.wf_refreshOutputs (T : Timer) (h : T.wf = true) : T.refreshOutputs.wf = true := by
  refine Timer.wf_of_fields T _ h rfl (.inl rfl) (.inl rfl) (.inl rfl) (.inl ⟨rfl, rfl⟩) fun j hj => ?_
  rw [Timer.chan_refreshOutputs]; rw [Channel.wf_iff] at hj ⊢; exact hj

theorem refreshOp_wf (i) (T : Timer) (h : T.wf = true) : (refreshOp i T).wf = true := by
  rcases refreshOp_cases i T with e | e <;> rw [e]
  · exact h
  · exact Timer.wf_refreshOutputs T h

theorem Timer.wf_updateEvent (T : Timer) (src) (h : T.wf = true) : (T.updateEvent src).wf = true := by
  refine Timer.wf_of_fields T _ h rfl (.inl rfl) ?_ ?_ (.inr ?_) fun j hj => ?_
  · simp only [Timer.arrSh_updateEvent]; split; exact .inr (.inl rfl); exact .inl rfl
  · cases src; exact .inl rfl; exact .inl rfl; exact .inr (.inr (fits_zero _))
  · simp [BitVec.le_def]
  · rw [Timer.chan_updateEvent]; rw [Channel.wf_iff] at hj ⊢
    refine ⟨hj.1, ?_, hj.2.2⟩
    simp only [Channel.loadShadow]; split; exact hj.1; exact hj.2.1

theorem chanOp_wf (n f T) (h : T.wf = true) (hf : ∀ T i, T.wf = true → (f T i).wf = true) :
    (chanOp n f T).wf = true := by
  unfold chanOp; repeat' split
  all_goals first | exact h | exact hf _ _ h

theorem Timer.wf_modChan_of (f : Channel → Channel)
    (hf : ∀ w C, Channel.wf w C = true → Channel.wf w (f C) = true) (T : Timer) (i) (h : T.wf = true) :
    (T.modChan i f).wf = true := Timer.wf_modChan T i f h (hf _)

theorem Channel.wf_setPolarity (k) : ∀ w C, Channel.wf w C = true → Channel.wf w
    (C.setPolarity k) = true := by
  intro w C h; rw [Channel.wf_iff] at h ⊢; refine ⟨h.1, h.2.1, h.2.2.1, h.2.2.2.1, ?_⟩
  cases k <;> simp [Channel.setPolarity, ccnpOf, ccpOf]

theorem Channel.wf_afterRead : ∀ w C, Channel.wf w C = true → Channel.wf w C.afterRead = true := by
  intro w C h; unfold Channel.afterRead; split; exact h; exact h

theorem polarityOp_wf (n k T) (h : T.wf = true) : (polarityOp n k T).wf = true :=
  chanOp_wf _ _ _ h fun T i h => by
    have h' := Timer.wf_modChan_of _ (Channel.wf_setPolarity k) T i h
    unfold Timer.setPolarity
    dsimp only
    split
    · exact Timer.wf_refreshOutputs _ h'
    · exact h'

theorem compareOp_wf (n m T) (h : T.wf = true) : (compareOp n m T).wf = true := by
  unfold compareOp; split
  · exact h
  · refine chanOp_wf _ _ _ h fun T i h => Timer.wf_refreshOutputs _ (Timer.wf_modChan_of _
        (fun w C h => ?_) T i h)
    rw [Channel.wf_iff] at h ⊢
    exact ⟨h.1, h.2.1, .inl rfl, fun h => by simp [Channel.toCompare] at h, h.2.2.2.2⟩

theorem Timer.wf_capture (T : Timer) (i) (h : T.wf = true) : (T.capture i).wf = true := by
  refine Timer.wf_modChan T i _ h fun C hC => ?_
  rw [Channel.wf_iff] at hC ⊢
  exact ⟨((Timer.wf_iff T).1 h).2.2.1, hC.2⟩

theorem Timer.wf_count (T : Timer) (h : T.wf = true) : T.count.wf = true := by
  rcases T.count_cases with ⟨_, _, e⟩ | ⟨_, _, e⟩ | ⟨_, _, e⟩ | ⟨hd, hc, e⟩ <;> rw [e]
  · exact Timer.wf_updateEvent _ _ (Timer.wf_of_fields T _ h rfl (.inl rfl) (.inl rfl) (.inr (.inr
        (fits_zero _))) (.inl ⟨rfl, rfl⟩) fun _ h => h)
  · exact Timer.wf_of_fields T _ h rfl (.inl rfl) (.inl rfl) (.inr (.inr (fits_truncTo _ _)))
        (.inl ⟨rfl, rfl⟩) fun _ h => h
  · exact Timer.wf_updateEvent _ _ (Timer.wf_of_fields T _ h rfl (.inl rfl) (.inl rfl) (.inr
        (.inl rfl)) (.inl ⟨rfl, rfl⟩) fun _ h => h)
  · refine Timer.wf_of_fields T _ h rfl (.inl rfl) (.inl rfl) (.inr (.inr ?_))
        (.inl ⟨rfl, rfl⟩) fun _ h => h
    have h3 := ((Timer.wf_iff T).1 h).2.2.1
    simp [fits] at h3 ⊢
    have : T.cnt.toNat ≠ 0 := fun e => hc (BitVec.eq_of_toNat_eq e)
    have := T.cnt.isLt
    omega

theorem Timer.wf_compare (T : Timer) (h : T.wf = true) : T.compare.wf = true := by
  refine Timer.wf_of_fields T _ h rfl (.inl rfl) (.inl rfl) (.inl rfl) (.inl ⟨rfl, rfl⟩) fun j hj => ?_
  rw [Timer.chan_compare, Channel.compareAt_eq]; rw [Channel.wf_iff] at hj ⊢; exact hj

theorem Timer.wf_clkCycle (T : Timer) (h : T.wf = true) : T.clkCycle.wf = true := by
  have h0 : (T.mapChans fun C => { C with polrace := false }).wf = true := by
    refine Timer.wf_of_fields T _ h rfl (.inl rfl) (.inl rfl) (.inl rfl) (.inl ⟨rfl, rfl⟩) fun j hj => ?_
    rw [Timer.chan_mapChans]; rw [Channel.wf_iff] at hj ⊢; exact hj
  unfold Timer.clkCycle; dsimp only; split
  · unfold Timer.prescale; split
    · unfold Timer.tick
      refine Timer.wf_refreshOutputs _ (Timer.wf_compare _ (Timer.wf_count _
          (Timer.wf_of_fields _ _ h0 rfl (.inl rfl) (.inl rfl) (.inl rfl) (.inr ?_) fun _ h => h)))
      simp [BitVec.le_def]
    · rename_i hne
      refine Timer.wf_of_fields _ _ h0 rfl (.inl rfl) (.inl rfl) (.inl rfl) (.inr ?_) fun _ h => h
      have hle := ((Timer.wf_iff T).1 h).2.2.2.1
      simp at hne ⊢
      rw [BitVec.le_def] at hle ⊢
      have : T.pscCnt.toNat ≠ T.pscSh.toNat := fun e => hne (BitVec.eq_of_toNat_eq e)
      rw [BitVec.toNat_add]
      have := T.pscSh.isLt
      simp; omega
  · exact h0

theorem Timer.wf_toPwm (X : Timer) (i k d) (h : X.wf = true) (h0 : (X.chan i).ccs = 0) :
    (X.toPwm i k d).wf = true := by
  have : (X.modChan i (fun C =>
      { C.setPolarity k with ocpe := true, ccr := truncTo X.width d })).wf = true := by
    refine Timer.wf_of_fields _ _ h rfl (.inl rfl) (.inl rfl) (.inl rfl) (.inl ⟨rfl, rfl⟩) fun j hj => ?_
    rw [Timer.chan_modChan]
    split
    · rename_i hji; subst hji
      have := Channel.wf_setPolarity k _ _ hj
      rw [Channel.wf_iff] at this ⊢
      refine ⟨fits_truncTo _ _, this.2.1, this.2.2.1, fun e => ?_, this.2.2.2.2⟩
      have : (X.chan j).ccs = 1 := e
      rw [h0] at this; exact absurd this (by decide)
    · exact hj
  unfold Timer.toPwm
  refine Timer.wf_refreshOutputs _ ?_
  exact Timer.wf_of_fields _ _ this rfl (.inl rfl) (.inl rfl) (.inl rfl) (.inl ⟨rfl, rfl⟩) fun _ h => h

theorem compareOp_pwm (n m) (T : Timer) : (compareOp n (pwmModeOf m) T).clkEn = T.clkEn ∧
    ∀ i, chanOf n = some i → T.clkEn = true → ((compareOp n (pwmModeOf m) T).chan i).ccs = 0 := by
  unfold compareOp
  split
  · rename_i hm; cases m <;> simp [pwmModeOf, ocmOf] at hm
  · refine ⟨?_, fun i hi hc => ?_⟩
    · unfold chanOp; split; rfl; split <;> rfl
    · simp only [chanOp, hi]; rw [if_pos hc]; simp [Channel.toCompare]

theorem cpwmOp_wf (n m k d) (T : Timer) (h : T.wf = true) :
    (chanOp n (fun T i => T.toPwm i k d) (compareOp n (pwmModeOf m) T)).wf = true := by
  have hcm := compareOp_wf n (pwmModeOf m) T h
  obtain ⟨hclk, hccs⟩ := compareOp_pwm n m T
  generalize compareOp n (pwmModeOf m) T = X at *
  unfold chanOp
  split
  · exact hcm
  · rename_i i hi
    split
    · rename_i hc
      exact Timer.wf_toPwm X i k d hcm (hccs i hi (hclk ▸ hc))
    · exact hcm

theorem cmdTimer_wf (i s T) (h : T.wf = true) : (cmdTimer i s T).wf = true := by
  have same : ∀ T' : Timer, T.wf = true → T'.width = T.width → T'.arr = T.arr → T'.arrSh = T.arrSh →
      T'.cnt = T.cnt → T'.pscCnt = T.pscCnt → T'.pscSh = T.pscSh → T'.ch = T.ch → T'.wf = true := by
    intro T' h a b c d e f g
    refine Timer.wf_of_fields T T' h a (.inl b) (.inl c) (.inl d) (.inl ⟨e, f⟩) fun i hi => ?_
    unfold Timer.chan; rw [g]; exact hi
  have mm : ∀ (f : Channel → Channel), (∀ w C, Channel.wf w C = true → Channel.wf w (f C) = true) →
      ∀ n, (chanOp n (fun T i => T.modChan i f) T).wf = true :=
    fun f hf n => chanOp_wf _ _ _ h fun T i h => Timer.wf_modChan_of f hf T i h
  cases i <;> simp only [cmdTimer]
  case tcfg t d p q =>
    split; exact h
    refine Timer.wf_of_fields T _ h rfl (.inr (fits_truncTo _ _)) ?_
        (.inr (.inr (fits_zero _))) (.inl ⟨rfl, rfl⟩) fun _ h => h
    simp only [Timer.configure]; split; exact .inl rfl; exact .inr (.inr (fits_truncTo _ _))
  case ten => split; exact same _ h rfl rfl rfl rfl rfl rfl rfl; exact h
  case tdis => split; exact same _ h rfl rfl rfl rfl rfl rfl rfl; exact h
  case tug => split; exact Timer.wf_updateEvent _ _ h; exact h
  case trdc => exact h
  case tdly => split; exact same _ h rfl rfl rfl rfl rfl rfl rfl; exact h
  case ccap =>
    refine chanOp_wf _ _ _ h fun T i h => Timer.wf_modChan_of _ (fun w C h => ?_) T i h
    rw [Channel.wf_iff] at h ⊢
    exact ⟨h.1, h.2.1, .inr rfl, fun _ => ⟨rfl, rfl⟩, fun h => by simp [Channel.toCapture] at h⟩
  case ccmp => exact compareOp_wf _ _ _ h
  case cpol => exact polarityOp_wf _ _ _ h
  case cpwm t n m k d b =>
    exact cpwmOp_wf n m k d T h
  case cduty =>
    refine chanOp_wf _ _ _ h fun T i h => ?_
    unfold Timer.setDuty
    repeat' split
    · refine Timer.wf_modChan T i _ h fun C hC => ?_
      rw [Channel.wf_iff] at hC ⊢; exact ⟨fits_truncTo _ _, hC.2⟩
    · refine Timer.wf_refreshOutputs _ (Timer.wf_modChan T i _ h fun C hC => ?_)
      rw [Channel.wf_iff] at hC ⊢; exact ⟨fits_truncTo _ _, fits_truncTo _ _, hC.2.2⟩
    · exact h
  case cwait => exact h
  case crd => exact mm _ Channel.wf_afterRead _
  case cien =>
    unfold enableOp; split; exact h
    unfold Timer.enableIrq; simp only; split
    · rename_i i0 _ _
      have := Timer.wf_modChan T i0 (fun C => { C with ccie := true }) h
          (fun C hC => by rw [Channel.wf_iff] at hC ⊢; exact hC)
      exact Timer.wf_of_fields _ _ this rfl (.inl rfl) (.inl rfl) (.inl rfl) (.inl ⟨rfl, rfl⟩) fun _ h => h
    · exact same _ h rfl rfl rfl rfl rfl rfl rfl
  case cidis => exact mm _ (fun w C hC => by rw [Channel.wf_iff] at hC ⊢; exact hC) _
  case cclr => exact mm _ (fun w C hC => by rw [Channel.wf_iff] at hC ⊢; exact hC) _
  case rreg => 
    split; exact h; split
    · rename_i r _ _; cases r <;> first | exact h | exact Timer.wf_modChan_of _ Channel.wf_afterRead T _ h
    · exact h
  case rpoll => exact h

theorem Timer.wf_irqPend (T : Timer) (b) (h : T.wf = true) :
    ({ T with irqPend := b } : Timer).wf = true :=
  Timer.wf_of_fields T _ h rfl (.inl rfl) (.inl rfl) (.inl rfl) (.inl ⟨rfl, rfl⟩) fun _ h => h

theorem handlerOp_wf (s t T) (h : T.wf = true) : (handlerOp s t T).wf = true := by
  have a : ∀ T, T.wf = true →
      (chanOp s.cfg.echoCh (fun T i => T.modChan i Channel.afterRead) T).wf = true :=
    fun T h => chanOp_wf _ _ _ h fun T i h => Timer.wf_modChan_of _ Channel.wf_afterRead T i h
  unfold handlerOp; split
  · dsimp only; split
    · exact polarityOp_wf _ _ _ (a T h)
    · exact chanOp_wf _ _ _ (polarityOp_wf _ _ _ (a T h)) fun T i h => Timer.wf_modChan_of _
          (fun w C hC => by rw [Channel.wf_iff] at hC ⊢; exact hC) T i h
    · exact a T h
    · exact a T h
  · exact h

theorem State.all_timers_wf (s : State) : s.tm.all (fun o => o.all Timer.wf) = true ↔
    ∀ t T, s.timer t = some T → T.wf = true := by
  simp only [Vector.all_eq_true, Option.all_eq_true]
  constructor
  · intro h t T hT; exact h t.toNat t.isLt T hT
  · intro h i hi T hT
    refine h (BitVec.ofNat 4 i) T ?_
    have hm : i % 16 = i := Nat.mod_eq_of_lt hi
    simpa [State.timer, hm] using hT

end Sys2Proof.Machine
end

