-- ==== Sys2Proof/Tests/Slice0.lean ====
section
/-! SUPPORT. The author's tests: decoding of words written out from spec 30_encoding.md and the vectors of
spec 95_test_vectors.md, one-step tests of the meanings, and for every statement with hypotheses a concrete
state and operands that meet them. -/

namespace Sys2Proof.Tests

open Sys2Proof Sys2Proof.Machine

/-! ### Helpers -/

/-- The command was accepted as this one. -/
def accepts (c : Cmd) (i : Instr) : Bool :=
  match decode c with
  | .ok j => decide (j = i)
  | .error _ => false

/-- The command was refused under this name. -/
def refuses (c : Cmd) (r : DecodeRefusal) : Bool :=
  match decode c with
  | .ok _ => false
  | .error q => decide (q = r)

/-- The state after a command, or the state itself where it answers none. -/
def after (i : Instr) (s : State) : State :=
  match exec i s with
  | .next s' => s'
  | _ => s

/-- The state after a step, or the state itself where it answers none. -/
def stepped (s : State) : State :=
  match step s with
  | .next s' => s'
  | _ => s

/-- The state with one pick queued. -/
def queued (a : Agent) (s : State) : State := { s with sched := [a] }

/-- TIM3 after reset. -/
def t0 : Timer := Timer.reset ⟨.w16, false⟩ (Vector.replicate 4 false)

/-- TIM3 clocked and running, counting Up to 3. -/
def tRun : Timer := { t0 with clkEn := true, cen := true, arr := 3, arrSh := 3 }

/-- TIM3 counting Down from 3. -/
def tDown : Timer := { tRun with dir := .down, cnt := 3 }

/-- A channel in input mode, RisingEdge, its race window closed. -/
def cIn : Channel := { Channel.reset false with ccs := 0b01, cce := true }

/-- The reset state with TIM3 as given. -/
def withT (T : Timer) : State := State.reset.setTimer 3 T

/-- TIM3 with channel 1 as given. -/
def withC (C : Channel) : Timer := tRun.modChan 0 fun _ => C

/-- The sequencer in a state and a phase. -/
def inSeq (q : SeqState) (p : Phase) (s : State) : State :=
  { s with seq := { s.seq with state := q, ph := p } }

/-- TIM3 clocked and running. -/
def sRun : State := withT tRun

/-- The same in the interrupt context. -/
def sHandler : State := { sRun with ctx := { sRun.ctx with mode := .handler } }

/-- TIM3 running with channel 1 in input mode. -/
def sIn : State := withT (withC cIn)

/-- The word of a register of TIM3. -/
def reg3 (off : Word) (s : State) : Option Word :=
  (s.timer 3).bind fun T => (regOf off).map T.word

/-- A state whose next step is the main context's, running the command. -/
def loaded (i : Instr) (s : State) : State := s.loadCommand (encode i)

/-! ### Well-formedness: one ill-formed term for each check (30_encoding.md R82, R92) -/

theorem test_wf_ccap : (Instr.ccap 3 1 0x00010006).wf = false := by decide
theorem test_wf_ccmp : (Instr.ccmp 3 1 .toggle 0x80000007).wf = false := by decide
theorem test_wf_cpwm : (Instr.cpwm 4 2 .pwm1 .rising 500 0x00010107).wf = false := by decide
theorem test_wf_bind_max : (Instr.ccap 3 1 0x0000FFFF).wf = true := by decide

/-! ### Decoding: a word per constructor, written out from R80, R84 to R87 (30_encoding.md) -/

theorem test_decode_tcfg : accepts ⟨0x01300000, 0x0000000F, 0x0000FFFF⟩ (.tcfg 3 .up 15 65535) := by decide
theorem test_decode_tcfg_down : accepts ⟨0x01300100, 0xFFFFFFFF, 0x64⟩ (.tcfg 3 .down (-1) 100) := by decide
theorem test_decode_ten : accepts ⟨0x02300000, 0, 0⟩ (.ten 3) := by decide
theorem test_decode_tdis : accepts ⟨0x03F00000, 0, 0⟩ (.tdis 15) := by decide
theorem test_decode_tug : accepts ⟨0x04300000, 0, 0⟩ (.tug 3) := by decide
theorem test_decode_trdc : accepts ⟨0x05300000, 0, 0⟩ (.trdc 3) := by decide
theorem test_decode_tdly : accepts ⟨0x06300000, 0, 0⟩ (.tdly 3) := by decide
theorem test_decode_ccap : accepts ⟨0x10310000, 0, 6⟩ (.ccap 3 1 6) := by decide
theorem test_decode_ccmp : accepts ⟨0x11310800, 0, 6⟩ (.ccmp 3 1 .none 6) := by decide
theorem test_decode_cpol : accepts ⟨0x12313000, 0, 0⟩ (.cpol 3 1 .both) := by decide
theorem test_decode_cpwm : accepts ⟨0x13430700, 0x64, 0x203⟩
    (.cpwm 4 3 .pwm2 .rising 100 0x203) := by decide
theorem test_decode_cpwm_none : accepts ⟨0x13423800, 0, 0⟩ (.cpwm 4 2 .none .both 0 0) := by decide
theorem test_decode_cduty : accepts ⟨0x14420000, 4, 0⟩ (.cduty 4 2 4) := by decide
theorem test_decode_cwait : accepts ⟨0x15310000, 0, 0⟩ (.cwait 3 1) := by decide
theorem test_decode_crd : accepts ⟨0x16F50000, 0, 0⟩ (.crd 15 5) := by decide
theorem test_decode_cien : accepts ⟨0x17310000, 0, 0⟩ (.cien 3 1) := by decide
theorem test_decode_cidis : accepts ⟨0x18340000, 0, 0⟩ (.cidis 3 4) := by decide
theorem test_decode_cclr : accepts ⟨0x19310000, 0, 0⟩ (.cclr 3 1) := by decide
theorem test_decode_rreg : accepts ⟨0x1A300000, 0x20, 0⟩ (.rreg 3 0x20) := by decide
theorem test_decode_rpoll : accepts ⟨0x20000000, 0, 0⟩ .rpoll := by decide

/-- The refusals of L2.1 (spec 95_test_vectors.md). -/
theorem test_refuse_header :
    refuses ⟨0x01310000, 0, 0⟩ .nonZeroReserved ∧ refuses ⟨0x01300200, 0, 0⟩ .nonZeroReserved ∧
    refuses ⟨0x01300001, 0, 0⟩ .nonZeroReserved ∧ refuses ⟨0x11311300, 0, 0⟩ .nonZeroReserved ∧
    refuses ⟨0x12311100, 0, 0⟩ .nonZeroReserved ∧ refuses ⟨0x20100000, 0, 0⟩ .nonZeroReserved := by decide
theorem test_refuse_opcode :
    refuses ⟨0x00000000, 0, 0⟩ .reservedOpcode ∧ refuses ⟨0x07300000, 0, 0⟩ .reservedOpcode ∧
    refuses ⟨0x21000000, 0, 0⟩ .reservedOpcode := by decide
theorem test_refuse_operand :
    refuses ⟨0x02300000, 1, 0⟩ .nonZeroOperand ∧ refuses ⟨0x10310000, 0, 0x00010006⟩ .nonZeroOperand ∧
    refuses ⟨0x11310900, 0, 0⟩ .reservedOutputMode ∧ refuses ⟨0x12312000, 0, 0⟩ .reservedPolarity := by
  decide
theorem test_table_word :
    decodeTableWord 96 0x0000FFFF0000000F01300000 = some (.tcfg 3 .up 15 65535) := by decide

/-! ### One step of each command (L1, L2 of spec 95_test_vectors.md) -/

/-- T2: the prescaler and the period are reduced. -/
theorem test_tcfg_reduces : (after (.tcfg 3 .up 65536 70000) State.reset).timer 3 =
    some { t0 with clkEn := true, arr := 4464, arrSh := 4464 } := by decide
/-- T1, T5. -/
theorem test_tcfg_negative : after (.tcfg 3 .up (-1) 100) State.reset = State.reset ∧
    after (.tcfg 2 .up 0 0xFFFFFFFF) State.reset = State.reset := by decide
/-- T6. -/
theorem test_ten : after (.ten 3) State.reset = State.reset ∧
    (after (.ten 3) (withT { tRun with cen := false })).timer 3 = some tRun := by decide
/-- T19. -/
theorem test_tdis : (after (.tdis 3) (withT { tRun with cnt := 2 })).timer 3 =
    some { tRun with cen := false, cnt := 2 } := by decide
/-- T12. -/
theorem test_tug : (after (.tug 3) (withT { tRun with cen := false, psc := 9, pscCnt := 5, cnt :=
    50 })).timer 3 =
    some { tRun with cen := false, psc := 9, pscSh := 9, pscCnt := 0, cnt := 0, uif := true } := by decide
/-- T14, T15. -/
theorem test_trdc : (after (.trdc 2) State.reset).ctx.results = [0] ∧
    (after (.trdc 9) State.reset).ctx.faults = [(.unknownTimer, ⟨.loop, 0⟩)] := by decide
/-- T16, T17. -/
theorem test_tdly : (after (.tdly 3) (withT { tRun with uif := true })).timer 3 = some tRun ∧
    after (.tdly 3) sRun = sRun := by decide
/-- T18. -/
theorem test_tdly_handler : (after (.tdly 3) sHandler).ctx.faults =
    [(.blockingInHandler, ⟨.loop, 0⟩)] := by decide
/-- CC3. -/
theorem test_ccap : reg3 0x1C (after (.ccap 3 3 0x100) sRun) = some 0x00000001 ∧
    reg3 0x20 (after (.ccap 3 3 0x100) sRun) = some 0x00000100 ∧
    (after (.ccap 3 3 0x100) sRun).ctx.trace = [.pinBind 3 3 1 0] := by decide
/-- CC1. -/
theorem test_ccap_unclocked : (after (.ccap 3 1 6) State.reset).timer 3 = some t0 ∧
    (after (.ccap 3 1 6) State.reset).ctx.trace = [.pinBind 3 1 0 6] := by decide
/-- CC5. -/
theorem test_ccmp : reg3 0x18 (after (.ccmp 3 2 .toggle 7) sIn) = some 0x00003001 ∧
    reg3 0x20 (after (.ccmp 3 2 .toggle 7) sIn) = some 0x00000011 := by decide
/-- CC6, CC7. -/
theorem test_ccmp_nothing : after (.ccmp 3 2 .none 7) sRun = sRun ∧
    after (.ccmp 3 5 .toggle 7) sRun = sRun := by decide
/-- CC4. -/
theorem test_cpol : reg3 0x20 (after (.cpol 3 1 .both) sIn) = some 0x0000000B := by decide
/-- R180: the step of `TCFG`, `CPOL` and `CCAP` ends with a refresh of every output of the timer: a PWM1
channel beside the input channel named becomes active as its duty says. R100, R140, R144: the commands
themselves leave it. -/
theorem test_refresh_after : ∀ i ∈ [Instr.tcfg 3 .up 0 9, .cpol 3 2 .falling, .ccap 3 2 6],
    let s := withT ((withC { Channel.reset false with cce := true, ocm := 0b110, ccrSh := 2 }).modChan 1
      fun _ => cIn)
    ((stepped (loaded i s)).timer 3).map (·.out 0) = some (.driven true) ∧
      ((after i s).timer 3).map (·.out 0) = some (.driven false) := by
  simp only [List.mem_cons, List.not_mem_nil, or_false, forall_eq_or_imp, forall_eq]
  refine ⟨⟨rfl, rfl⟩, ⟨rfl, rfl⟩, rfl, rfl⟩
/-- R60: CCR1 of TIM3 at the default base. -/
theorem test_registerAddress : State.reset.registerAddress 3 0x34 = some 0x40000434 ∧
    State.reset.registerAddress 9 0x34 = none := by decide
/-- P4, Boot 1: the duty is preloaded only. -/
theorem test_cpwm : ((after (.cpwm 3 2 .pwm1 .rising 2 0x107) sRun).timer 3).map
    (fun T => (T.arpe, (T.chan 1).ccr, (T.chan 1).ccrSh, T.ccmr1Word, T.out 1)) =
    some (true, 2, 0, 0x00006800, .driven false) := by decide
/-- L1.6: a duty above the period is stored. -/
theorem test_cduty : reg3 0x38 (after (.cduty 3 2 4) sRun) = some 4 := by decide
/-- CC20. -/
theorem test_cduty_input : after (.cduty 3 1 50) sIn = sIn := by decide
/-- CC26. -/
theorem test_cwait_invalid : (after (.cwait 3 5) sRun).ctx.faults =
    [(.invalidChannel, ⟨.loop, 0⟩)] := by decide
/-- CC14. -/
theorem test_crd_sentinel : (after (.crd 9 1) (after (.crd 3 0) sRun)).ctx.results = [-1, -1] := by decide
/-- CC13. -/
theorem test_crd : (after (.crd 3 1) (withT (withC { cIn with ccr := 123, ccif :=
    true }))).ctx.results = [123] ∧
    (after (.crd 3 1) (withT (withC { cIn with ccr := 123, ccif := true }))).timer 3 =
      some (withC { cIn with ccr := 123 }) := by decide
/-- CC22, and CC21's latch. -/
theorem test_cien : reg3 0x0C (after (.cien 3 4) sRun) = some 0x00000010 ∧
    ((stepped (loaded (.cien 3 1) (withT (withC { cIn with ccif := true })))).timer 3).map (·.irqPend) =
      some true := by decide
/-- CC23. -/
theorem test_cidis :
    ((after (.cidis 3 1) (withT { withC { cIn with ccie := true } with irqPend := true })).timer 3) =
      some { withC cIn with irqPend := true } := by decide
/-- CC24. -/
theorem test_cclr : (after (.cclr 3 1) (withT (withC { cIn with ccif := true }))).timer 3 =
    some (withC cIn) := by decide
/-- CC25. -/
theorem test_rreg_bad : (after (.rreg 3 0x30) sRun).ctx.faults = [(.badRegisterOffset, ⟨.loop, 0⟩)] ∧
    (after (.rreg 3 0x26) sRun).ctx.faults = [(.badRegisterOffset, ⟨.loop, 0⟩)] := by decide
/-- CC28: SR after the tick that wraps. -/
theorem test_rreg_sr : (after (.rreg 3 0x10) (stepped (queued (.clk 3) (withT { tRun with cnt :=
    3 })))).ctx.results =
    [0x1F] := by decide
/-- L1.1, L1.2. -/
theorem test_rpoll_measure : distance .w16 10 1000 1300 = 51 ∧ distance .w16 10 65530 10 = 2 ∧
    distance .w32 10 65530 10 = 74039863 ∧ distance .w16 10 1300 1000 = 11247 := by decide
/-- L1.9: the first poll of a cycle. -/
theorem test_rpoll_settle : (after .rpoll sRun).seq =
      { sRun.seq with ph := .settleWait, delayBusy := true } ∧
    (after .rpoll sRun).ctx.trace = [.settleDelay 60] := by decide

/-! ### One step of the other agents -/

/-- T8: counting Down from 0. -/
theorem test_clk_down : (stepped (queued (.clk 3) (withT { tDown with cnt := 0 }))).timer 3 =
    some { tDown with uif := true } := by decide
/-- CC8. -/
theorem test_setInput : (stepped (queued (.setInput 3 1 true) (withT { withC cIn with cnt :=
    123 }))).timer 3 =
    some { withC { cIn with tin := true, ccr := 123, ccif := true } with cnt := 123 } := by decide
/-- CC12. -/
theorem test_raceGhost : (stepped (queued (.raceGhost 3 1) (withT (withC { cIn with polrace :=
    true })))).timer 3 =
    some (withC { cIn with ccif := true }) := by decide
/-- X1. -/
theorem test_irq_unhandled : (stepped (queued (.irq 4)
    (State.reset.setTimer 4 { tRun with irqEn := true, irqPend := true }))).ctx.faults =
      [(.unhandledInterrupt, ⟨.loop, 0⟩)] := by decide
/-- The step runs a placed table word first after reset: `TRDC TIM3`. -/
theorem test_withFetchWord : (stepped
    (State.reset.withFetchWord 96 0x05300000)).ctx.results = [0] := by decide

/-! ### Witnesses: concrete states and operands meeting each statement's hypotheses

TIM0 is unrecognised, TIM3 of `State.reset` is recognised and unclocked, `tRun` is clocked; channel numbers
0 and 5 are the invalid ones next to the range 1 to 4. -/

/-- DecodeEncodeRoundTrip: every field at its greatest value. -/
theorem wit_DecodeEncodeRoundTrip :
    (Instr.cpwm 15 15 .none .both 0xFFFFFFFF 0x0000FFFF).wf = true := by decide
theorem wit_AcceptedWordIsItsEncoding :
    decode ⟨0x13430700, 0x64, 0x203⟩ = .ok (.cpwm 4 3 .pwm2 .rising 100 0x203) := rfl
/-- ReservedOpcodesRefused: both ends of each reserved range, and the opcodes next to them. -/
theorem wit_ReservedOpcodesRefused :
    (∀ op ∈ [0x00, 0x07, 0x0F, 0x1B, 0x1F, 0x21, 0xFF],
      refuses ⟨BitVec.ofNat 32 (op * 2 ^ 24), 0, 0⟩ .reservedOpcode) ∧
    (∀ op ∈ [0x01, 0x06, 0x10, 0x1A, 0x20],
      ¬ refuses ⟨BitVec.ofNat 32 (op * 2 ^ 24), 0, 0⟩ .reservedOpcode) := by decide
/-- StepRunsDecodedCommand: a step; a clocked timer, the least and the greatest accepted operands and the
channels at both ends; and commands with no refresh after them. -/
theorem wit_StepRunsDecodedCommand :
    (let s := loaded (.ten 3) State.reset
     s.ctx.faults = [] ∧ s.ctx.refused = false ∧ s.pick = .main ∧ s.fetch = some ⟨0x02300000, 0, 0⟩ ∧
       decode ⟨0x02300000, 0, 0⟩ = .ok (.ten 3)) ∧
    (sRun.timer 3 = some tRun ∧ tRun.clkEn = true ∧ 0 ≤ (0 : Word).toInt ∧ 0 ≤ (0x7FFFFFFF : Word).toInt ∧
      1 ≤ (1 : ChanId).toNat ∧ (4 : ChanId).toNat ≤ 4) ∧
    ((0x80000000 : Word).toInt < 0 ∧ 4 < (5 : ChanId).toNat ∧ (0 : ChanId).toNat = 0 ∧ sRun.timer 0 = none ∧
      State.reset.timer 3 = some t0 ∧ t0.clkEn = false) :=
  ⟨⟨rfl, rfl, rfl, rfl, rfl⟩, by decide, by decide⟩
theorem wit_RefusedWordStopsMain :
    (let s := State.reset.loadCommand ⟨0x02300000, 1, 0⟩
     s.ctx.faults = [] ∧ s.ctx.refused = false ∧ s.pick = .main ∧ s.fetch = some ⟨0x02300000, 1, 0⟩ ∧
       decode ⟨0x02300000, 1, 0⟩ = .error .nonZeroOperand) ∧
    (let s := stepped (State.reset.loadCommand ⟨0x02300000, 1, 0⟩)
     s.ctx.refused = true) := ⟨⟨rfl, rfl, rfl, rfl, rfl⟩, rfl⟩
theorem wit_FaultedStateHasNoStep :
    (State.reset.raise .unknownTimer).ctx.faults = [(.unknownTimer, ⟨.loop, 0⟩)] := by decide
/-- A state with this pointer and these two lists. -/
def atPc (pc : Pc) (boot loop : List Cmd) : State :=
  { State.reset with boot := boot, loop := loop, ctx := { State.reset.ctx with pc := pc } }
/-- CompletionAdvancesPointer: before the end, at the end, and at an empty loop. -/
theorem wit_CompletionAdvancesPointer :
    let c : Cmd := ⟨0x20000000, 0, 0⟩
    ((atPc ⟨.boot, 0⟩ [c, c] []).ctx.mode = .main ∧ (atPc ⟨.boot, 0⟩ [c, c] []).ctx.pc = ⟨.boot, 0⟩ ∧
      0 + 1 < [c, c].length) ∧
    ((atPc ⟨.boot, 1⟩ [c, c] []).ctx.pc = ⟨.boot, 1⟩ ∧ [c, c].length ≤ 1 + 1) ∧
    ((atPc ⟨.loop, 0⟩ [] [c, c]).ctx.pc = ⟨.loop, 0⟩ ∧ 0 + 1 < [c, c].length) ∧
    ((atPc ⟨.loop, 0⟩ [] [c]).ctx.pc = ⟨.loop, 0⟩ ∧ [c].length ≤ 0 + 1) ∧
    (State.reset.ctx.pc = ⟨.loop, 0⟩ ∧ State.reset.loop.length ≤ 0 + 1) := by decide
/-- TcfgProgramsTimer: the least and the greatest accepted operands, and each refusal. -/
theorem wit_TcfgProgramsTimer :
    (State.reset.timer 3 = some t0 ∧ 0 ≤ (0 : Word).toInt ∧ 0 ≤ (0x7FFFFFFF : Word).toInt) ∧
    State.reset.timer 0 = none ∧ (0xFFFFFFFF : Word).toInt < 0 ∧ (0x80000000 : Word).toInt < 0 := by decide
theorem wit_TenAndTdisWriteRunBit :
    (sRun.timer 3 = some tRun ∧ tRun.clkEn = true) ∧ sRun.timer 1 = none ∧
    (State.reset.timer 3 = some t0 ∧ t0.clkEn = false) := by decide
theorem wit_RunBitSequences : (sRun.timer 3 = some tRun ∧ tRun.clkEn = true) ∧ sRun.timer 0 = none ∧
    (State.reset.timer 3 = some t0 ∧ t0.clkEn = false) := by decide
theorem wit_TugForcesUpdate :
    (sRun.timer 3 = some tRun ∧ tRun.clkEn = true) ∧ sRun.timer 15 = none ∧
    (State.reset.timer 3 = some t0 ∧ t0.clkEn = false) := by decide
theorem wit_TrdcReturnsCounter :
    sRun.timer 0 = none ∧ (State.reset.timer 3 = some t0 ∧ t0.clkEn = false) ∧
    (sRun.timer 3 = some tRun ∧ tRun.clkEn = true) := by decide
theorem wit_TdlyPollsUpdateFlag :
    sHandler.ctx.mode = .handler ∧ (sRun.ctx.mode = .main ∧ sRun.timer 0 = none) ∧
    (let T := { tRun with uif := true }
     (withT T).ctx.mode = .main ∧ (withT T).timer 3 = some T ∧ T.clkEn = true ∧ T.uif = true) ∧
    (sRun.ctx.mode = .main ∧ sRun.timer 3 = some tRun ∧ tRun.uif = false) ∧
    (State.reset.timer 3 = some t0 ∧ t0.clkEn = false) := by decide
/-- ClkStepMovesOneTimer: stopped, between ticks, at a tick, and another timer. -/
theorem wit_ClkStepMovesOneTimer :
    (∀ T ∈ [{ tRun with cen := false }, { tRun with pscSh := 1 }, tRun],
      let s := queued (.clk 3) (withT T)
      s.ctx.faults = [] ∧ s.pick = .clk 3 ∧ s.timer 3 = some T ∧ T.clkEn = true) ∧
    ({ tRun with cen := false } : Timer).cen = false ∧
    (({ tRun with pscSh := 1 } : Timer).cen = true ∧ ({ tRun with pscSh := 1 } : Timer).pscCnt ≠ 1) ∧
    (tRun.cen = true ∧ tRun.pscCnt = tRun.pscSh) ∧ (2 : TimerId) ≠ 3 := by decide
/-- TickCountsAndWraps: at each end of the count and beside it, in each direction, with the channel's preload
on and off. -/
theorem wit_TickCountsAndWraps :
    (let T := { tRun with cnt := 3 }; T.dir = .up ∧ T.cnt = T.arrSh) ∧
    (let T := { tDown with cnt := 0 }; T.dir = .down ∧ T.cnt = 0) ∧
    (let T := { tRun with cnt := 2 }; T.dir = .up ∧ T.cnt ≠ T.arrSh) ∧
    (let T := { tDown with cnt := 1 }; T.dir = .down ∧ T.cnt ≠ 0) ∧
    (let T := { withC { Channel.reset false with ocpe := true, ccr := 2 } with cnt := 3 }
     T.dir = .up ∧ T.cnt = T.arrSh ∧ (T.chan 0).ocpe = true ∧ (T.chan 1).ocpe = false) := by decide
/-- UpdatePeriodCountingUp: prescaler 1, period 3; and prescaler 0, period 0. -/
theorem wit_UpdatePeriodCountingUp :
    (let T := { tRun with psc := 1, pscSh := 1 }
     T.cen = true ∧ T.dir = .up ∧ T.pscSh.toNat = 1 ∧ T.psc = T.pscSh ∧ T.arrSh.toNat = 3 ∧
       3 < 2 ^ T.width.bits ∧ T.arpe = false ∧ T.cnt = 0 ∧ T.pscCnt = 0 ∧ T.uif = false) ∧
    (let T := { tRun with arr := 0, arrSh := 0, arpe := true }
     T.cen = true ∧ T.dir = .up ∧ T.pscSh.toNat = 0 ∧ T.psc = T.pscSh ∧ T.arrSh.toNat = 0 ∧
       0 < 2 ^ T.width.bits ∧ T.arr = T.arrSh ∧ T.cnt = 0 ∧ T.pscCnt = 0 ∧ T.uif = false) := by decide
theorem wit_UpdatePeriodCountingDown :
    (let T := { tDown with psc := 1, pscSh := 1 }
     T.cen = true ∧ T.dir = .down ∧ T.pscSh.toNat = 1 ∧ T.psc = T.pscSh ∧ T.arrSh.toNat = 3 ∧
       T.arpe = false ∧ T.cnt = T.arrSh ∧ T.pscCnt = 0 ∧ T.uif = false) ∧
    (let T := { tDown with arr := 0, arrSh := 0, cnt := 0 }
     T.cen = true ∧ T.dir = .down ∧ T.pscSh.toNat = 0 ∧ T.psc = T.pscSh ∧ T.arrSh.toNat = 0 ∧
       T.arr = T.arrSh ∧ T.cnt = T.arrSh ∧ T.pscCnt = 0 ∧ T.uif = false) := by decide
/-- ConfigureThenResynchronise: the greatest accepted operands of a 16-bit timer, with `arpe` set. -/
theorem wit_ConfigureThenResynchronise :
    (withT { tRun with arpe := true }).timer 3 = some { tRun with arpe := true } ∧
      (0xFFFF : Word).toNat < 2 ^ 16 ∧ (0xFFFF : Word).toNat < 2 ^ tRun.width.bits ∧
      0 ≤ (0xFFFF : Word).toInt := by decide
theorem wit_ModularDifferenceCountsTicks :
    let T := { tRun with arr := 0xFFFF, arrSh := 0xFFFF, cnt := 65530 }
    T.dir = .up ∧ T.arrSh.toNat = 2 ^ T.width.bits - 1 ∧ T.arr = T.arrSh ∧
      T.cnt.toNat < 2 ^ T.width.bits := by decide
theorem wit_CcapConfiguresInput :
    (sRun.timer 3 = some tRun ∧ (3 : ChanIdx).val + 1 = (4 : ChanId).toNat ∧ tRun.clkEn = true) ∧
    (State.reset.timer 3 = some t0 ∧ (0 : ChanIdx).val + 1 = (1 : ChanId).toNat ∧ t0.clkEn = false) ∧
    sRun.timer 0 = none ∧ (0 : ChanId).toNat = 0 ∧ 4 < (5 : ChanId).toNat := by decide
theorem wit_CcmpSelectsSubMode :
    (sRun.timer 3 = some tRun ∧ (3 : ChanIdx).val + 1 = (4 : ChanId).toNat ∧ OutputMode.pwm2 ≠ .none ∧
      tRun.clkEn = true) ∧
    (State.reset.timer 3 = some t0 ∧ (0 : ChanIdx).val + 1 = (1 : ChanId).toNat ∧
      OutputMode.frozen ≠ .none ∧ t0.clkEn = false) ∧
    sRun.timer 0 = none ∧ (0 : ChanId).toNat = 0 ∧ 4 < (5 : ChanId).toNat := by decide
theorem wit_OutputModeRoundTrip :
    (∀ n ∈ [(1 : ChanId), 2, 3, 4],
      sRun.timer 3 = some tRun ∧ tRun.clkEn = true ∧ 1 ≤ n.toNat ∧ n.toNat ≤ 4 ∧
        OutputMode.pwm2 ≠ .none) ∧
    OutputMode.frozen ≠ .none ∧ modeCode .frozen = modeCode .frozen := by decide
theorem wit_CpolWritesPolarity :
    (sRun.timer 3 = some tRun ∧ (3 : ChanIdx).val + 1 = (4 : ChanId).toNat ∧ tRun.clkEn = true) ∧
    sRun.timer 0 = none ∧ (0 : ChanId).toNat = 0 ∧ 4 < (5 : ChanId).toNat ∧
    (State.reset.timer 3 = some t0 ∧ t0.clkEn = false) := by decide
theorem wit_CpwmPreloadsDuty :
    (sRun.timer 3 = some tRun ∧ (3 : ChanIdx).val + 1 = (4 : ChanId).toNat ∧ tRun.clkEn = true) ∧
    (State.reset.timer 3 = some t0 ∧ (0 : ChanIdx).val + 1 = (1 : ChanId).toNat ∧ t0.clkEn = false) ∧
    sRun.timer 0 = none ∧ (0 : ChanId).toNat = 0 ∧ 4 < (5 : ChanId).toNat := by decide
/-- CdutyStoresUnclamped: preload off, preload on, and each no-op, an input channel among them. -/
theorem wit_CdutyStoresUnclamped :
    (sRun.timer 3 = some tRun ∧ (3 : ChanIdx).val + 1 = (4 : ChanId).toNat ∧ tRun.clkEn = true ∧
      (tRun.chan 3).ccs = 0b00 ∧ (tRun.chan 3).ocpe = false) ∧
    (let T := withC { Channel.reset false with ocpe := true }
     (withT T).timer 3 = some T ∧ (0 : ChanIdx).val + 1 = (1 : ChanId).toNat ∧ T.clkEn = true ∧
       (T.chan 0).ccs = 0b00 ∧ (T.chan 0).ocpe = true) ∧
    (sIn.timer 3 = some (withC cIn) ∧ (0 : ChanIdx).val + 1 = (1 : ChanId).toNat ∧
      ((withC cIn).chan 0).ccs ≠ 0b00) ∧
    sRun.timer 0 = none ∧ (0 : ChanId).toNat = 0 ∧ 4 < (5 : ChanId).toNat ∧
    (State.reset.timer 3 = some t0 ∧ t0.clkEn = false) := by decide
theorem wit_CwaitPollsChannelFlag :
    sHandler.ctx.mode = .handler ∧ (sRun.ctx.mode = .main ∧ sRun.timer 0 = none) ∧
    (sRun.ctx.mode = .main ∧ sRun.timer 3 ≠ none ∧ (0 : ChanId).toNat = 0 ∧ 4 < (5 : ChanId).toNat) ∧
    (let T := withC { cIn with ccif := true }
     (withT T).ctx.mode = .main ∧ (withT T).timer 3 = some T ∧
       (0 : ChanIdx).val + 1 = (1 : ChanId).toNat ∧ T.clkEn = true ∧ (T.chan 0).ccif = true) ∧
    (sRun.timer 3 = some tRun ∧ (3 : ChanIdx).val + 1 = (4 : ChanId).toNat ∧ (tRun.chan 3).ccif = false) ∧
    (State.reset.ctx.mode = .main ∧ State.reset.timer 3 = some t0 ∧ t0.clkEn = false) := by decide
theorem wit_CrdReturnsCapture :
    sRun.timer 0 = none ∧ (0 : ChanId).toNat = 0 ∧ 4 < (5 : ChanId).toNat ∧
    (State.reset.timer 3 = some t0 ∧ (0 : ChanIdx).val + 1 = (1 : ChanId).toNat ∧ t0.clkEn = false) ∧
    (sIn.timer 3 = some (withC cIn) ∧ (withC cIn).clkEn = true ∧ ((withC cIn).chan 0).ccs = 0b01) ∧
    (sRun.timer 3 = some tRun ∧ (3 : ChanIdx).val + 1 = (4 : ChanId).toNat ∧ tRun.clkEn = true ∧
      (tRun.chan 3).ccs ≠ 0b01) := by decide
/-- RregReturnsWord: an offset in each gap of the map and past its end, the first and the last register,
and a read with and without the side effect. -/
theorem wit_RregReturnsWord :
    let known := [0x00, 0x0C, 0x10, 0x14, 0x18, 0x1C, 0x20, 0x24, 0x28, 0x2C, 0x34, 0x38, 0x3C, 0x40]
    sRun.timer 0 = none ∧
    (sRun.timer 3 ≠ none ∧ (0x04 : Word).toNat ∉ known ∧ (0x30 : Word).toNat ∉ known ∧ (0x44 : Word).toNat ∉ known) ∧
    (State.reset.timer 3 = some t0 ∧ t0.clkEn = false ∧ (0x00 : Word).toNat ∈ known) ∧
    (sIn.timer 3 = some (withC cIn) ∧ (withC cIn).clkEn = true ∧ (0x34 : Word).toNat ∈ known ∧
      regOf 0x34 = some (.ccr 0) ∧ ((withC cIn).chan 0).ccs = 0b01) ∧
    (sRun.timer 3 = some tRun ∧ tRun.clkEn = true ∧ (0x40 : Word).toNat ∈ known ∧
      regOf 0x40 = some (.ccr 3) ∧ (tRun.chan 3).ccs ≠ 0b01) := by
  refine ⟨?_, ⟨?_, ?_, ?_, ?_⟩, ?_, ?_, ?_⟩ <;> decide
theorem wit_CienEnablesInterrupt :
    (sRun.timer 3 = some tRun ∧ (3 : ChanIdx).val + 1 = (4 : ChanId).toNat ∧ tRun.clkEn = true) ∧
    (State.reset.timer 3 = some t0 ∧ (0 : ChanIdx).val + 1 = (1 : ChanId).toNat ∧ t0.clkEn = false) ∧
    sRun.timer 0 = none ∧ (0 : ChanId).toNat = 0 ∧ 4 < (5 : ChanId).toNat := by decide
theorem wit_CidisAndCclrClearOneBit :
    (sRun.timer 3 = some tRun ∧ (3 : ChanIdx).val + 1 = (4 : ChanId).toNat ∧ tRun.clkEn = true) ∧
    (State.reset.timer 3 = some t0 ∧ t0.clkEn = false) ∧
    sRun.timer 0 = none ∧ (0 : ChanId).toNat = 0 ∧ 4 < (5 : ChanId).toNat := by decide
/-- SetInputCapturesSelectedEdges: no edge, an edge at a channel that cannot capture, one inside the race
window, and one for each polarity. -/
theorem wit_SetInputCapturesSelectedEdges :
    (∀ C ∈ [cIn, Channel.reset false, { cIn with polrace := true }, { cIn with ccp := true },
        { cIn with ccp := true, ccnp := true }], ∀ v : Bool,
      let s := queued (.setInput 3 1 v) (withT (withC C))
      s.ctx.faults = [] ∧ s.pick = .setInput 3 1 v ∧ s.timer 3 = some (withC C) ∧
        (0 : ChanIdx).val + 1 = (1 : ChanId).toNat ∧ ((withC C).chan 0).tin = false) ∧
    ((Channel.reset false).ccs ≠ 0b01) ∧
    (cIn.ccs = 0b01 ∧ cIn.cce = true ∧ (withC cIn).clkEn = true ∧ cIn.polrace = false ∧
      cIn.ccnp = false ∧ cIn.ccp = false) := by decide
theorem wit_RaceGhostCapturesOnce :
    let T := withC { cIn with polrace := true }
    let s := queued (.raceGhost 3 1) (withT T)
    s.ctx.faults = [] ∧ s.timer 3 = some T ∧ (0 : ChanIdx).val + 1 = (1 : ChanId).toNat ∧
      s.pick = .raceGhost 3 1 ∧ s.enabled (.raceGhost 3 1) = true := by decide
/-- CompareMatchSetsFlag: a match in each sub-mode that holds state and in one that drives, no match, and an
input channel. -/
theorem wit_CompareMatchSetsFlag :
    (∀ m ∈ [(0b000 : BitVec 3), 0b001, 0b010, 0b011, 0b110],
      let T := withC { Channel.reset false with ccrSh := 1, ocm := m }
      (T.chan 0).ccs = 0b00 ∧ T.tick.cnt = (T.tick.chan 0).ccrSh ∧ (T.chan 0).ocm = m) ∧
    ((tRun.chan 0).ccs = 0b00 ∧ tRun.tick.cnt ≠ (tRun.tick.chan 0).ccrSh ∧
      (tRun.chan 0).ocm.toNat < 0b100) ∧
    ((withC cIn).chan 0).ccs ≠ 0b00 := by decide
/-- OutputLevelAfterTick: a driven channel in every sub-mode; one in input mode, one disabled, one of an
unclocked timer; each driving sub-mode in each direction after a tick; and a step of `TCFG` that turns the
direction, of `CCMP` that changes the sub-mode and of `CDUTY` that changes the active compare value. -/
theorem wit_OutputLevelAfterTick :
    (∀ m : BitVec 3, let T := withC { Channel.reset false with cce := true, ocm := m }
      (T.chan 0).ccs = 0b00 ∧ (T.chan 0).cce = true ∧ T.clkEn = true ∧ (T.chan 0).ocm = m) ∧
    (((withC cIn).chan 0).ccs ≠ 0b00 ∧ (tRun.chan 0).cce = false ∧ t0.clkEn = false) ∧
    (∀ m ∈ [(0b100 : BitVec 3), 0b101, 0b110, 0b111], ∀ d ∈ [Direction.up, .down],
      let N := ({ withC { Channel.reset false with cce := true, ocm := m } with dir := d } : Timer).tick
      (N.chan 0).ccs = 0b00 ∧ (N.chan 0).cce = true ∧ N.clkEn = true ∧ (N.chan 0).ocm = m ∧ N.dir = d) ∧
    (∀ i ∈ [Instr.tcfg 3 .down 0 9, .ccmp 3 1 .pwm1 6, .cduty 3 1 5],
      let s := loaded i sRun
      s.pick = .main ∧ s.timer 3 = some tRun ∧ ∃ s' T', step s = .next s' ∧ s'.timer 3 = some T' ∧
        (T'.dir ≠ .up ∨ (T'.chan 0).ocm ≠ 0 ∨ (T'.chan 0).ccrSh ≠ 0)) := by
  refine ⟨by decide, by decide, by decide, ?_⟩
  simp only [List.mem_cons, List.not_mem_nil, or_false, forall_eq_or_imp, forall_eq]
  exact ⟨⟨rfl, rfl, _, _, rfl, rfl, by decide⟩, ⟨rfl, rfl, _, _, rfl, rfl, by decide⟩,
    rfl, rfl, _, _, rfl, rfl, by decide⟩
theorem wit_RpollInEchoStatesCompletes :
    sHandler.ctx.mode = .handler ∧ sRun.ctx.mode = .main ∧
    (inSeq .echoRising .settleReq sRun).seq.state = .echoRising ∧
    (inSeq .echoFalling .settleReq sRun).seq.state = .echoFalling := by decide
/-- The ranging state with the alert switched on or off. -/
def sMeasure (alert : Bool) : State :=
  { inSeq .measurement .settleReq sRun with cfg := { Params.default with alertEnabled := alert } }
theorem wit_RpollMeasures : ∀ alert : Bool,
    (sMeasure alert).ctx.mode = .main ∧ (sMeasure alert).seq.state = .measurement ∧
      (sMeasure alert).timer (sMeasure alert).cfg.echoTimer = some tRun ∧
      (sMeasure alert).cfg.alertEnabled = alert := by decide
/-- RpollTriggerPhases: every phase, the delay running or not, and PulseWait at the tick count, below it
and unclocked. -/
theorem wit_RpollTriggerPhases :
    (∀ p ∈ [Phase.settleReq, .settleWait, .resync, .trigHigh, .pulseWait, .trigLow, .irqEnable, .advance],
      let s := inSeq .triggerHigh p sRun
      s.ctx.mode = .main ∧ s.seq.state = .triggerHigh ∧ s.seq.ph = p ∧ s.seq.delayBusy = false) ∧
    (after .rpoll sRun).seq.ph = .settleWait ∧ (after .rpoll sRun).seq.delayBusy = true ∧
    (let T := { tRun with cnt := 1 }
     (withT T).timer (withT T).cfg.echoTimer = some T ∧ T.clkEn = true ∧
       (withT T).cfg.trigTicks ≤ T.cnt.toNat) ∧
    (sRun.timer sRun.cfg.echoTimer = some tRun ∧ tRun.cnt.toNat < sRun.cfg.trigTicks) ∧
    (State.reset.timer State.reset.cfg.echoTimer = some t0 ∧ t0.clkEn = false) := by decide
theorem wit_RpollTriggerPhases_effects :
    (∃ s1, exec (.tug 3) (inSeq .triggerHigh .resync sRun) = .next s1) ∧
    (∃ s1, exec (.cien 3 1) (inSeq .triggerHigh .irqEnable sRun) = .next s1) := ⟨⟨_, rfl⟩, ⟨_, rfl⟩⟩
/-- A run that starts in `s` and stands in the reset state from its first step on. -/
def endRun (s : State) : Nat → State
  | 0 => s
  | _ + 1 => State.reset
/-- The schedule of `endRun`: one agent's step, then for ever the environment holding pin 1 of TIM3 low. -/
def endSch (a : Agent) : Nat → Agent
  | 0 => a
  | _ + 1 => .setInput 3 1 false
theorem endRun_isRun (s : State) (a : Agent) (h : step (s.scheduled a) = .next State.reset) :
    IsRun (endSch a) (endRun s) := fun n => match n with
  | 0 => h
  | _ + 1 => rfl
/-- In the reset state, which has no program, only the environment has a step. -/
theorem endRun_idle (kind : Agent → Prop) (s : State) (a : Agent)
    (h : ∀ b, kind b → State.reset.enabled b = false) : FairTo kind (endSch a) (endRun s) := fun n e => by
  obtain ⟨b, hb, he⟩ := e (n + 1) (Nat.le_succ n)
  exact absurd (he.symm.trans (h b hb)) (by decide)
theorem endRun_weaklyFair (s : State) (a : Agent) : WeaklyFair (endSch a) (endRun s) where
  main := endRun_idle _ s a fun b h => by subst h; rfl
  irq t := endRun_idle _ s a fun b h => by subst h; revert t; decide
  clk t := endRun_idle _ s a fun b h => by subst h; revert t; decide
  delayDone := endRun_idle _ s a fun b h => by subst h; rfl
  env n _ := ⟨n + 1, Nat.le_succ n, trivial, rfl⟩
/-- DelayDoneEndsSettleDelay: a step, and a weakly fair run that starts with the delay running. -/
theorem wit_DelayDoneEndsSettleDelay :
    (let s := queued .delayDone (after .rpoll sRun)
     s.ctx.faults = [] ∧ s.pick = .delayDone ∧ s.seq.delayBusy = true) ∧
    (let s := { State.reset with seq := { State.reset.seq with delayBusy := true } }
     IsRun (endSch .delayDone) (endRun s) ∧ WeaklyFair (endSch .delayDone) (endRun s) ∧
       (endRun s 0).seq.delayBusy = true) :=
  ⟨by decide, endRun_isRun _ _ rfl, endRun_weaklyFair _ _, rfl⟩
/-- TIM3 with a pending interrupt of channel 1. -/
def tPend : Timer :=
  { withC { cIn with ccie := true, ccif := true, ccr := 100 } with irqEn := true, irqPend := true }
/-- An interrupt entry of the echo timer in a state of the sequencer. -/
def sIrq (q : SeqState) : State := queued (.irq 3) (inSeq q .settleReq (withT tPend))
/-- EchoInterruptStoresCount: every state of the sequencer, with the echo channel in input and in output mode,
the echo timer unclocked, and the two channel numbers beside the range. -/
theorem wit_EchoInterruptStoresCount :
    (∀ q ∈ [SeqState.triggerHigh, .echoRising, .echoFalling, .measurement],
      (sIrq q).ctx.faults = [] ∧ (sIrq q).pick = .irq (sIrq q).cfg.echoTimer ∧
        (sIrq q).timer (sIrq q).cfg.echoTimer = some tPend ∧ tPend.irqPend = true ∧ tPend.clkEn = true ∧
        (0 : ChanIdx).val + 1 = (sIrq q).cfg.echoCh.toNat ∧ (tPend.chan 0).ccs = 0b01 ∧
        (sIrq q).seq.state = q) ∧
    (∀ T ∈ [{ tRun with irqPend := true }, { t0 with irqPend := true }],
      let s := queued (.irq 3) (inSeq .echoRising .settleReq (withT T))
      s.ctx.faults = [] ∧ s.pick = .irq s.cfg.echoTimer ∧ s.timer s.cfg.echoTimer = some T ∧
        T.irqPend = true ∧ (T.chan 0).ccs = 0b00 ∧ 1 ≤ s.cfg.echoCh.toNat ∧ s.cfg.echoCh.toNat ≤ 4) ∧
    t0.clkEn = false ∧
    (∀ n ∈ [(0 : ChanId), 5],
      let s := { sIrq .echoFalling with cfg := { Params.default with echoCh := n } }
      s.ctx.faults = [] ∧ s.pick = .irq s.cfg.echoTimer ∧ s.timer s.cfg.echoTimer = some tPend ∧
        (s.cfg.echoCh.toNat = 0 ∨ 4 < s.cfg.echoCh.toNat)) := by
  refine ⟨?_, ?_, ?_, ?_⟩ <;> decide
theorem wit_WrongTriggerLeavesSession :
    (∀ q ∈ [SeqState.echoRising, .echoFalling], ∃ s',
      (inSeq q .settleReq sRun).seq.state = q ∧ exec .rpoll (inSeq q .settleReq sRun) = .next s') ∧
    (∀ q ∈ [SeqState.triggerHigh, .echoRising, .echoFalling, .measurement], ∃ s',
      (sIrq q).pick = .irq 3 ∧ (sIrq q).enabled (.irq 3) = true ∧ 3 = (sIrq q).cfg.echoTimer ∧
        (sIrq q).seq.state = q ∧ step (sIrq q) = .next s') ∧
    (∀ s ∈ [sMeasure false, inSeq .triggerHigh .advance sRun], ∃ s', s.ctx.mode = .main ∧
      exec .rpoll s = .next s') ∧
    (inSeq .triggerHigh .advance sRun).seq.ph = .advance := by
  refine ⟨?_, ?_, ?_, rfl⟩ <;> simp only [List.mem_cons, List.not_mem_nil, or_false, forall_eq_or_imp, forall_eq]
  · exact ⟨⟨_, rfl, rfl⟩, _, rfl, rfl⟩
  · exact ⟨⟨_, rfl, rfl, rfl, rfl, rfl⟩, ⟨_, rfl, rfl, rfl, rfl, rfl⟩, ⟨_, rfl, rfl, rfl, rfl, rfl⟩,
      _, rfl, rfl, rfl, rfl, rfl⟩
  · exact ⟨⟨_, rfl, rfl⟩, _, rfl, rfl⟩
theorem wit_UnhandledInterruptFaults :
    let s := queued (.irq 4) (State.reset.setTimer 4 tPend)
    s.pick = .irq 4 ∧ s.enabled (.irq 4) = true ∧ 4 ≠ s.cfg.echoTimer := by decide
/-- IrqReturnsToInterruptedPoint: a timer with the latch set, one with it clear, an unrecognised one; an
entry; and a weakly fair run that starts with the latch set. -/
theorem wit_IrqReturnsToInterruptedPoint :
    ((sIrq .echoRising).ctx.faults = [] ∧ (sIrq .echoRising).timer 3 = some tPend ∧ tPend.irqPend = true ∧
      sRun.timer 3 = some tRun ∧ tRun.irqPend = false ∧ sRun.timer 0 = none) ∧
    ((sIrq .echoRising).pick = .irq 3 ∧ (sIrq .echoRising).enabled (.irq 3) = true ∧
      (∃ s', step (sIrq .echoRising) = .next s') ∧ (2 : TimerId) ≠ 3) ∧
    (let T := { t0 with irqPend := true }
     IsRun (endSch (.irq 3)) (endRun (withT T)) ∧ WeaklyFair (endSch (.irq 3)) (endRun (withT T)) ∧
       (endRun (withT T) 0).timer 3 = some T ∧ T.irqPend = true) :=
  ⟨by decide, ⟨rfl, rfl, ⟨_, rfl⟩, by decide⟩, endRun_isRun _ _ rfl, endRun_weaklyFair _ _, rfl, rfl⟩
/-- PendingLatchAfterStep: a step of the main context, with the timer in both states. -/
theorem wit_PendingLatchAfterStep :
    let s := loaded (.cien 3 1) (withT (withC { cIn with ccif := true }))
    (∃ s' T', step s = .next s' ∧ s'.timer 3 = some T') ∧ s.enabled s.pick = true ∧
      (∀ u, s.pick ≠ .irq u) ∧ s.timer 3 = some (withC { cIn with ccif := true }) :=
  ⟨⟨_, _, rfl, rfl⟩, rfl, (fun _ h => nomatch h), rfl⟩
theorem wit_StepKeepsInvariant : (sIrq .echoRising).wf = true ∧ sRun.wf = true ∧ (sMeasure true).wf = true ∧
    (inSeq .triggerHigh .pulseWait sRun).wf = true ∧ ∃ s', step (sIrq .echoRising) = .next s' :=
  ⟨by decide +kernel, by decide +kernel, by decide +kernel, by decide +kernel, _, rfl⟩
theorem wit_ResetMeetsInvariants : State.reset.timer 3 = some t0 := by decide
theorem wit_ResetValues :
    State.reset.timer 3 = some t0 ∧ TimerSet.default[3] = some ⟨.w16, false⟩ := by decide
/-- StepKeepsLinePending and StepKeepsCounterBelowPeriod: at the interrupt entry, and with the counter at
the period. -/
theorem wit_StepKeepsLinePending :
    (∀ t : TimerId, ∀ T, (sIrq .echoRising).timer t = some T → T.linePends = true) ∧
      ∃ s' T', step (sIrq .echoRising) = .next s' ∧ s'.timer 3 = some T' := by
  refine ⟨fun t T h => ?_, _, _, rfl, rfl⟩
  have : ∀ t : TimerId, ((sIrq .echoRising).timer t).all Timer.linePends = true := by decide
  simpa [h] using this t
theorem wit_StepKeepsCounterBelowPeriod :
    let s := queued (.clk 3) (withT { tRun with cnt := 3 })
    (∀ t : TimerId, ∀ T, s.timer t = some T → T.belowPeriod = true) ∧
      ∃ s' T', step s = .next s' ∧ s'.timer 3 = some T' := by
  refine ⟨fun t T h => ?_, _, _, rfl, rfl⟩
  have : ∀ t : TimerId, ((queued (.clk 3) (withT { tRun with cnt := 3 })).timer t).all Timer.belowPeriod =
      true := by decide
  have := this t
  rw [h] at this; exact this
theorem wit_StepKeepsParameters : ∃ s', step (queued (.clk 3) sRun) = .next s' := ⟨_, rfl⟩
/-- SessionHasSingleWriters: an entry that writes a count and moves the session; a poll that writes the
distance and moves it; a poll that writes the trigger level and the phase. -/
theorem wit_SessionHasSingleWriters :
    (∃ s', step (sIrq .echoRising) = .next s' ∧ s'.seq.rising ≠ (sIrq .echoRising).seq.rising ∧
      (sIrq .echoRising).seq.state = .echoRising ∧ s'.seq.state ≠ .echoRising) ∧
    (∃ s', step (loaded .rpoll (sMeasure false)) = .next s' ∧
      (loaded .rpoll (sMeasure false)).seq.state = .measurement ∧ s'.seq.state ≠ .measurement) ∧
    (∃ s', step (loaded .rpoll (inSeq .triggerHigh .trigHigh sRun)) = .next s' ∧
      s'.seq.trig ≠ false ∧ s'.seq.ph ≠ .trigHigh) :=
  ⟨⟨_, rfl, by decide, rfl, by decide⟩, ⟨_, rfl, rfl, by decide⟩, ⟨_, rfl, by decide, by decide⟩⟩
/-- RoleChangesOnlyByInit: `CCAP`, and `CCMP` and `CPWM` of an input channel. -/
theorem wit_RoleChangesOnlyByInit :
    ∀ p ∈ [(loaded (.ccap 3 1 6) sRun, tRun), (loaded (.ccmp 3 1 .toggle 6) sIn, withC cIn),
        (loaded (.cpwm 3 1 .pwm1 .rising 2 6) sIn, withC cIn)],
      ∃ s' T', step p.1 = .next s' ∧ p.1.timer 3 = some p.2 ∧ s'.timer 3 = some T' ∧
        (T'.chan 0).ccs ≠ (p.2.chan 0).ccs := by
  simp only [List.mem_cons, List.not_mem_nil, or_false, forall_eq_or_imp, forall_eq]
  exact ⟨⟨_, _, rfl, rfl, rfl, by decide⟩, ⟨_, _, rfl, rfl, rfl, by decide⟩, _, _, rfl, rfl, rfl, by decide⟩
theorem wit_OnlyTdlyClearsUpdateFlag :
    let s := loaded (.tdly 3) (withT { tRun with uif := true })
    ∃ s' T', step s = .next s' ∧ s.timer 3 = some { tRun with uif := true } ∧ s'.timer 3 = some T' ∧
      T'.uif = false := ⟨_, _, rfl, rfl, rfl, rfl⟩
/-- OnlyTheseMoveCounter: a clock cycle, `TCFG`, `TUG` and the phase Resync of `RPOLL`. -/
theorem wit_OnlyTheseMoveCounter :
    ∀ s ∈ [queued (.clk 3) (withT { tRun with cnt := 2 }), loaded (.tcfg 3 .up 0 9)
        (withT { tRun with cnt := 2 }),
        loaded (.tug 3) (withT { tRun with cnt := 2 }),
        loaded .rpoll (inSeq .triggerHigh .resync (withT { tRun with cnt := 2 }))],
      ∃ s' T', step s = .next s' ∧ s.timer 3 = some { tRun with cnt := 2 } ∧ s'.timer 3 = some T' ∧
        T'.cnt ≠ 2 := by
  simp only [List.mem_cons, List.not_mem_nil, or_false, forall_eq_or_imp, forall_eq]
  exact ⟨⟨_, _, rfl, rfl, rfl, by decide⟩, ⟨_, _, rfl, rfl, rfl, by decide⟩, ⟨_, _, rfl, rfl, rfl, by decide⟩,
    _, _, rfl, rfl, rfl, by decide⟩
theorem wit_EnablesNeverCleared :
    ∃ s' T', step (sIrq .echoFalling) = .next s' ∧ (sIrq .echoFalling).timer 3 = some tPend ∧
      s'.timer 3 = some T' ∧ tPend.clkEn = true ∧ tPend.irqEn = true := ⟨_, _, rfl, rfl, rfl, rfl, rfl⟩
/-- ObservationsOnlyGrow: a step, and a command on a state with a recorded fault that records another. -/
theorem wit_ObservationsOnlyGrow :
    (∃ s', step (loaded (.trdc 3) sRun) = .next s') ∧
    (∃ s', exec (.trdc 9) (after (.trdc 9) sRun) = .next s' ∧
      (after (.trdc 9) sRun).ctx.faults ≠ [] ∧ s'.ctx.faults.length = 2) :=
  ⟨⟨_, rfl⟩, _, rfl, by decide, by decide⟩
theorem wit_UnclockedTimerIgnoresCommands :
    ∃ s' T', exec (.cien 3 1) State.reset = .next s' ∧ State.reset.timer 3 = some t0 ∧ t0.clkEn = false ∧
      (∀ d p q, (Instr.cien 3 1) ≠ .tcfg 3 d p q) ∧ s'.timer 3 = some T' :=
  ⟨_, _, rfl, rfl, rfl, (fun _ _ _ h => nomatch h), rfl⟩

end Sys2Proof.Tests
end

section
/-! PROOFS. What the main context's step does with a decoded command (spec 00_scope.md R14, 30_encoding.md R92,
60_exceptions.md R240, R251) and the refresh of the outputs after it (41_capture_compare.md R180). -/

namespace Sys2Proof.Machine

/-! ### Every command answers a next state (R240, R241) -/

/-- Only the commands that check their operands or poll a flag have more than one outcome. -/
theorem exec_answers_next (i : Instr) (s : State) : ∃ s', exec i s = .next s' := by
  cases i with
  | tcfg | ten | tdis | tug | ccap | ccmp | cpol | cpwm | cduty | crd | cien | cidis | cclr =>
    exact ⟨_, rfl⟩
  | trdc t =>
    simp only [exec, execTrdc]
    split <;> exact ⟨_, rfl⟩
  | tdly t =>
    simp only [exec, execTdly]
    split
    · exact ⟨_, rfl⟩
    · exact ⟨_, rfl⟩
    · split <;> exact ⟨_, rfl⟩
  | cwait t n =>
    simp only [exec, execCwait]
    split
    · exact ⟨_, rfl⟩
    · exact ⟨_, rfl⟩
    · exact ⟨_, rfl⟩
    · split <;> exact ⟨_, rfl⟩
  | rreg t off =>
    simp only [exec, execRreg]
    split
    · exact ⟨_, rfl⟩
    · exact ⟨_, rfl⟩
    · split <;> exact ⟨_, rfl⟩
  | rpoll =>
    simp only [exec, execRpoll]
    split <;> exact ⟨_, rfl⟩

/-! ### The main context's step (R14, R92, R296) -/

/-- R296: with no fault, no refused word and a command at the pointer, the main context's step is enabled. -/
theorem State.enabled_main_of_fetch {s : State} {c : Cmd} (hf : s.ctx.faults = [])
    (hr : s.ctx.refused = false) (hc : s.fetch = some c) : s.enabled .main = true := by
  simp [State.enabled, State.mainHasStep, hf, hr, hc]

/-- The main context executes the command that the word at its pointer decodes to. -/
theorem mainStep_of_decode {s : State} {c : Cmd} {i : Instr} (hc : s.fetch = some c)
    (hd : decode c = .ok i) : mainStep s = onNext (State.refreshAfter i) (exec i s) := by
  simp only [mainStep, hc, hd]

/-- A picked and enabled main context steps, and the latches are taken after it (R251). -/
theorem step_of_main {s : State} (hf : s.ctx.faults = []) (hp : s.pick = .main)
    (he : s.enabled .main = true) : step s = onNext State.latchAll (mainStep s.takePick) := by
  rw [step_of_noFault s hf, hp, if_pos he, agentStep]

/-! ### The refresh after a command (R180) -/

theorem isNegative_eq_true {v : Word} : isNegative v = true ↔ v.toInt < 0 := decide_eq_true_iff

theorem State.refreshAfter_tcfg (s : State) (t : TimerId) (d : Direction) (p q : Word) :
    s.refreshAfter (.tcfg t d p q) =
      if isNegative p || isNegative q then s else s.onClocked t Timer.refreshOutputs := rfl

/-- An accepted `TCFG` is followed by the refresh of its timer. -/
theorem State.refreshAfter_tcfg_accepted (s : State) (t : TimerId) (d : Direction) {p q : Word}
    (hp : 0 ≤ p.toInt) (hq : 0 ≤ q.toInt) :
    s.refreshAfter (.tcfg t d p q) = s.onClocked t Timer.refreshOutputs := by
  simp [State.refreshAfter_tcfg, isNegative_eq_true, hp, hq]

/-- A `TCFG` with a negative operand is followed by no refresh. -/
theorem State.refreshAfter_tcfg_refused (s : State) (t : TimerId) (d : Direction) {p q : Word}
    (h : p.toInt < 0 ∨ q.toInt < 0) : s.refreshAfter (.tcfg t d p q) = s := by
  simp [State.refreshAfter_tcfg, isNegative_eq_true, h]

/-- No write to a timer that is not in `TIMERS`, or whose clock is off (R67, R240). -/
theorem State.onClocked_idle (s : State) {t : TimerId} (f : Timer → Timer)
    (h : s.timer t = none ∨ ∃ T, s.timer t = some T ∧ T.clkEn = false) : s.onClocked t f = s := by
  obtain h | ⟨T, h, hc⟩ := h
  · exact s.onClocked_none f h
  · exact s.onClocked_unclocked f h hc

/-- R180: whatever its operands, a `TCFG` of an idle timer is followed by no refresh. -/
theorem State.refreshAfter_tcfg_idle (s : State) {t : TimerId} (d : Direction) (p q : Word)
    (h : s.timer t = none ∨ ∃ T, s.timer t = some T ∧ T.clkEn = false) :
    s.refreshAfter (.tcfg t d p q) = s := by
  rw [State.refreshAfter_tcfg, s.onClocked_idle _ h, ite_self]

/-- The refresh after a command of a channel in 1..4 of a clocked timer. -/
theorem State.onChan_refreshOutputs (s : State) {t : TimerId} {n : ChanId} {T : Timer}
    (ht : s.timer t = some T) (hc : T.clkEn = true) (h1 : 1 ≤ n.toNat) (h4 : n.toNat ≤ 4) :
    s.onChan t n (fun T _ => T.refreshOutputs) = s.setTimer t T.refreshOutputs :=
  s.onChan_clocked (i := ⟨n.toNat - 1, by omega⟩) _ ht (by simp only; omega) hc

/-- No write to a channel outside 1..4, or of an idle timer (R67, R240). -/
theorem State.onChan_idle (s : State) {t : TimerId} {n : ChanId} (f : Timer → ChanIdx → Timer)
    (h : n.toNat = 0 ∨ 4 < n.toNat ∨ s.timer t = none ∨
      ∃ T, s.timer t = some T ∧ T.clkEn = false) : s.onChan t n f = s :=
  s.onChan_noEffect f (by
    obtain h | h | h | h := h
    · exact .inr (.inl h)
    · exact .inr (.inr (.inl h))
    · exact .inl h
    · exact .inr (.inr (.inr h)))

/-- Settles O5: the step of the main context is unfolded once, and the refresh of R180 is read off for the
three commands that have one. -/
theorem stepRunsDecodedCommand : Obligations.StepRunsDecodedCommand := by
  refine ⟨?run, ?refreshed, ?unrefreshed⟩
  case run =>
    intro s c i hf hr hp hc hd
    obtain ⟨s', hx⟩ := exec_answers_next i s.takePick
    have hc' : s.takePick.fetch = some c := by rw [State.fetch_takePick, hc]
    refine ⟨s', hx, ?_⟩
    rw [step_of_main hf hp (State.enabled_main_of_fetch hf hr hc), mainStep_of_decode hc' hd, hx,
      onNext_next, onNext_next]
  case refreshed =>
    intro s t T ht hclk
    refine ⟨fun d p q hp hq => ?_, fun n h1 h4 => ⟨fun b => ?_, fun k => ?_⟩⟩
    · rw [s.refreshAfter_tcfg_accepted t d hp hq, s.onClocked_clocked _ ht hclk]
    · exact s.onChan_refreshOutputs ht hclk h1 h4
    · exact s.onChan_refreshOutputs ht hclk h1 h4
  case unrefreshed =>
    intro s i idle htcfg hccap hcpol
    cases i with
    | tcfg t d p q =>
      obtain hp | hq | hidle := htcfg t d p q rfl
      · exact s.refreshAfter_tcfg_refused t d (.inl hp)
      · exact s.refreshAfter_tcfg_refused t d (.inr hq)
      · exact s.refreshAfter_tcfg_idle d p q hidle
    | ccap t n b => exact s.onChan_idle _ (hccap t n b rfl)
    | cpol t n k => exact s.onChan_idle _ (hcpol t n k rfl)
    | ten | tdis | tug | trdc | tdly | ccmp | cpwm | cduty | cwait | crd | cien | cidis | cclr | rreg
    | rpoll => rfl

end Sys2Proof.Machine
end

section
/-! PROOFS. What a run shows only grows (spec 00_scope.md R13, R15, 60_exceptions.md R241). -/

namespace Sys2Proof.Machine

/-- The results, the events and the faults of `c` stand in `c'`, in their order, before whatever was recorded
since. -/
def Ctx.GrowsTo (c c' : Ctx) : Prop :=
  (∃ l, c'.results = c.results ++ l) ∧ (∃ l, c'.trace = c.trace ++ l) ∧ ∃ l, c'.faults = c.faults ++ l

theorem Ctx.growsTo_refl (c : Ctx) : c.GrowsTo c :=
  ⟨⟨[], by simp⟩, ⟨[], by simp⟩, ⟨[], by simp⟩⟩

theorem Frame.ctx_growsTo {s s' : State} (h : Frame s s') : s.ctx.GrowsTo s'.ctx :=
  ⟨h.results, h.trace, h.faults⟩

/-! ### The steps that record nothing -/

@[simp] theorem ctx_clkStep (t : TimerId) (s : State) : (clkStep t s).ctx = s.ctx := s.ctx_onTimer t _

@[simp] theorem ctx_setInputStep (t : TimerId) (n : ChanId) (v : Bool) (s : State) :
    (setInputStep t n v s).ctx = s.ctx := by
  unfold setInputStep
  repeat' split
  all_goals rfl

@[simp] theorem ctx_raceGhostStep (t : TimerId) (n : ChanId) (s : State) :
    (raceGhostStep t n s).ctx = s.ctx := by
  unfold raceGhostStep
  split
  · rfl
  · exact s.ctx_onTimer t _

@[simp] theorem ctx_delayDoneStep (s : State) : (delayDoneStep s).ctx = s.ctx := s.ctx_modSeq _

/-! ### The steps that may record something -/

/-- An interrupt entry records at most a fault (R253). -/
theorem irqStep_growsTo (t : TimerId) (s : State) : s.ctx.GrowsTo (irqStep t s).ctx := by
  obtain ⟨-, -, -, -, -, -, -, hresults, htrace, hfaults, -⟩ := irqStep_frame t s
  exact ⟨⟨[], by rw [hresults, List.append_nil]⟩, ⟨[], by rw [htrace, List.append_nil]⟩, hfaults⟩

theorem exec_growsTo {i : Instr} {s s' : State} (h : exec i s = .next s') : s.ctx.GrowsTo s'.ctx :=
  (exec_frame i s s' h).1.ctx_growsTo

/-- Only a command and an interrupt entry record anything: taking the pick, the refresh, the latches and the
steps of the other agents leave the context, and a refused word sets its flag alone. -/
theorem step_growsTo {s s' : State} (h : step s = .next s') : s.ctx.GrowsTo s'.ctx := by
  obtain ⟨-, ⟨-, rfl⟩ | ⟨-, -, c, -, ⟨r, -, rfl⟩ | ⟨i, s1, -, hx, rfl⟩⟩ | ⟨t, -, -, rfl⟩ | ⟨t, -, -, rfl⟩ |
    ⟨t, n, v, -, -, rfl⟩ | ⟨t, n, -, -, rfl⟩ | ⟨-, -, rfl⟩⟩ := step_cases h
  · -- the pick is not enabled
    simpa using s.ctx.growsTo_refl
  · -- a refused word
    exact s.ctx.growsTo_refl
  · -- a command
    simpa using exec_growsTo hx
  · -- an interrupt entry
    simpa using irqStep_growsTo t s.takePick
  · -- `Clk`
    simpa using s.ctx.growsTo_refl
  · -- `SetInput`
    simpa using s.ctx.growsTo_refl
  · -- `RaceGhost`
    simpa using s.ctx.growsTo_refl
  · -- `DelayDone`
    simpa using s.ctx.growsTo_refl

/-- Settles O59: steps by the cases of `step`, commands and interrupt entries by their frames. -/
theorem observationsOnlyGrow : Obligations.ObservationsOnlyGrow :=
  ⟨fun _ _ h => step_growsTo h, fun _ _ _ h => exec_growsTo h, irqStep_growsTo⟩

end Sys2Proof.Machine
end

section
/-! PROOFS. What the state keeps in every step (spec 10_state.md R22, R27, R28, 20_memory.md R72). -/

namespace Sys2Proof.Machine

/-! ### The environment's steps, outside the timers -/

/-- A level driven on a pin reaches its timer and the model's count of draws alone (R170). -/
theorem setInputStep_eq (t : TimerId) (n : ChanId) (v : Bool) (s : State) :
    ∃ tm draws, setInputStep t n v s = { s with tm := tm, draws := draws } := by
  unfold setInputStep
  repeat' split
  all_goals exact ⟨_, _, rfl⟩

/-- A ghost capture reaches its timer alone (R172). -/
theorem raceGhostStep_eq (t : TimerId) (n : ChanId) (s : State) :
    ∃ tm, raceGhostStep t n s = { s with tm := tm } := by
  unfold raceGhostStep State.onTimer
  repeat' split
  all_goals exact ⟨_, rfl⟩

/-! ### What every step keeps (R22, R72) -/

/-- Every step keeps the parameters and the main program, and a step from Main ends in Main (R254). -/
theorem step_keeps {s s' : State} (h : step s = .next s') :
    s'.cfg = s.cfg ∧ s'.boot = s.boot ∧ s'.loop = s.loop ∧ (s.ctx.mode = .main → s'.ctx.mode = .main) := by
  obtain ⟨-, ⟨-, rfl⟩ | ⟨-, -, c, -, ⟨r, -, rfl⟩ | ⟨i, s1, -, hx, rfl⟩⟩ | ⟨t, -, -, rfl⟩ | ⟨t, -, -, rfl⟩ |
    ⟨t, n, v, -, -, rfl⟩ | ⟨t, n, -, -, rfl⟩ | ⟨-, -, rfl⟩⟩ := step_cases h
  · -- the pick is not enabled
    simp
  · -- a refused word
    simp
  · -- a command
    have hf : Frame s.takePick s1 := (exec_frame i _ _ hx).1
    simp [hf.cfg, hf.boot, hf.loop, hf.mode]
  · -- an interrupt entry
    obtain ⟨hcfg, hboot, hloop, -, hmode, -⟩ := irqStep_frame t s.takePick
    simp [hcfg, hboot, hloop, hmode]
  · -- `Clk`
    simp [clkStep]
  · -- `SetInput`
    obtain ⟨tm, draws, e⟩ := setInputStep_eq t n v s.takePick
    simp [e]
  · -- `RaceGhost`
    obtain ⟨tm, e⟩ := raceGhostStep_eq t n s.takePick
    simp [e]
  · -- `DelayDone`
    simp [delayDoneStep]

/-- A change of one timer adds none. -/
theorem timersAfter_timer_none {s s' : State} {t u : TimerId} {f : Timer → Timer} (h : timersAfter s s' u f)
    (hn : s.timer t = none) : s'.timer t = none := by
  rw [h t, hn]
  split <;> rfl

/-- A level driven on a pin adds no timer. -/
theorem setInputStep_timer_none {s : State} {t : TimerId} (u : TimerId) (n : ChanId) (v : Bool)
    (hn : s.timer t = none) : (setInputStep u n v s).timer t = none := by
  by_cases hu : t = u
  · subst hu
    simp only [setInputStep, hn]
  · rw [(setInputStep_timer u n v s).1 t hu, hn]

/-- The refresh after a command adds no timer. -/
theorem refreshAfter_timer_none {s : State} {t : TimerId} (i : Instr) (hn : s.timer t = none) :
    (s.refreshAfter i).timer t = none := by
  cases ht : cmdTarget i with
  | some u => exact timersAfter_timer_none (refreshAfter_timers i u s ht) hn
  | none =>
    cases i with
    | rpoll => exact hn
    | _ => exact nomatch ht

/-- The latches add no timer. -/
theorem latchAll_timer_none {s : State} {t : TimerId} (hn : s.timer t = none) : s.latchAll.timer t = none := by
  rw [State.timer_latchAll, hn, Option.map_none]

/-- No step adds a timer (R22). -/
theorem step_timer_none {s s' : State} {t : TimerId} (h : step s = .next s') (hn : s.timer t = none) :
    s'.timer t = none := by
  have hp : s.takePick.timer t = none := by rw [State.timer_takePick, hn]
  obtain ⟨-, ⟨-, rfl⟩ | ⟨-, -, c, -, ⟨r, -, rfl⟩ | ⟨i, s1, -, hx, rfl⟩⟩ | ⟨u, -, -, rfl⟩ | ⟨u, -, -, rfl⟩ |
    ⟨u, n, v, -, -, rfl⟩ | ⟨u, n, -, -, rfl⟩ | ⟨-, -, rfl⟩⟩ := step_cases h
  · -- the pick is not enabled
    exact hp
  · -- a refused word
    exact latchAll_timer_none hp
  · -- a command
    obtain ⟨j, u, -, -, hs⟩ := exec_timers_all i _ _ hx
    exact latchAll_timer_none (refreshAfter_timer_none i (timersAfter_timer_none hs hp))
  · -- an interrupt entry
    exact timersAfter_timer_none (irqStep_timers u s.takePick) hp
  · -- `Clk`
    exact latchAll_timer_none (timersAfter_timer_none (timersAfter_onTimer _ u _) hp)
  · -- `SetInput`
    exact latchAll_timer_none (setInputStep_timer_none u n v hp)
  · -- `RaceGhost`
    exact latchAll_timer_none (timersAfter_timer_none (raceGhostStep_timers u n s.takePick) hp)
  · -- `DelayDone`
    exact latchAll_timer_none hp

/-- A timer after a step is what the step left of the timer that stood there. -/
theorem timer_fate_of_next {s s' : State} {t : TimerId} {T' : Timer} (h : step s = .next s')
    (hT' : s'.timer t = some T') : ∃ T, s.timer t = some T ∧ TimerFate s t T T' := by
  cases hT : s.timer t with
  | none => exact nomatch (step_timer_none h hT).symm.trans hT'
  | some T =>
    obtain ⟨T1, hT1, hfate⟩ := timer_fate s s' t T h hT
    cases hT1.symm.trans hT'
    exact ⟨T, rfl, hfate⟩

/-! ### The widths -/

/-- The count keeps the width. -/
@[simp] theorem Timer.width_count (T : Timer) : T.count.width = T.width := by
  obtain ⟨-, -, e⟩ | ⟨-, -, e⟩ | ⟨-, -, e⟩ | ⟨-, -, e⟩ := T.count_cases <;> rw [e] <;> rfl

/-- Every primitive write to a timer keeps its width (R7). -/
theorem Prims.width : Prims fun T T' => T'.width = T.width where
  refl _ := rfl
  trans h k := k.trans h
  pend _ _ := rfl
  en _ := rfl
  cen _ _ := rfl
  arpe _ := rfl
  chans _ _ := rfl
  conf _ _ _ _ := rfl
  upd _ _ := rfl

/-- A clock cycle keeps the width (R7). -/
@[simp] theorem Timer.width_clkCycle (T : Timer) : T.clkCycle.width = T.width :=
  Timer.clkCycle_rel (P := fun T T' => T'.width = T.width) (fun h k => k.trans h) (fun _ _ => rfl)
    (fun _ _ => rfl) Timer.width_count T

/-- No step re-sizes a timer (R7). -/
theorem TimerFate.width {s : State} {t : TimerId} {T T' : Timer} (h : TimerFate s t T T') :
    T'.width = T.width :=
  Prims.width.fate h (fun _ _ => T.width_clkCycle) fun _ _ _ _ _ => rfl

/-- Settles O53: outside the timers by `step_keeps`, and a timer by its fate. -/
theorem stepKeepsParameters : Obligations.StepKeepsParameters := by
  intro s s' h
  obtain ⟨hcfg, hboot, hloop, -⟩ := step_keeps h
  refine ⟨hcfg, hboot, hloop, fun t => ?_⟩
  cases hT : s.timer t with
  | none => rw [step_timer_none h hT]
  | some T =>
    obtain ⟨T', hT', hfate⟩ := timer_fate s s' t T h hT
    rw [hT', Option.map_some, Option.map_some, hfate.width]

end Sys2Proof.Machine
end

section
/-! PROOFS. What one step can do to the ranging session, said once: its fate (spec 10_state.md R27(d), R28,
42_ranging_sequencer.md R206, R207, R210, R212). -/

namespace Sys2Proof.Machine

/-- The step is `RPOLL`'s: the main context runs the command at its pointer, and it is `RPOLL`. -/
def State.polls (s : State) : Prop := s.pick = .main ∧ ∃ c, s.fetch = some c ∧ decode c = .ok .rpoll

/-! ### The operations on the session -/

/-- The alert writes timers alone (R210). -/
@[simp] theorem seq_alertEffect (d : Word) (s : State) : (alertEffect d s).seq = s.seq := by
  unfold alertEffect tenEffect tdisEffect
  repeat' split
  all_goals simp

@[simp] theorem seq_tugEffect (t : TimerId) (s : State) : (tugEffect t s).seq = s.seq := s.seq_onClocked t _

@[simp] theorem seq_cienEffect (t : TimerId) (n : ChanId) (s : State) : (cienEffect t n s).seq = s.seq := by
  unfold cienEffect
  split <;> simp

/-- `Measure()` writes the distance and starts over (R210). -/
theorem seq_measurePhase (s : State) :
    (measurePhase s).seq =
      { s.seq with
        dist := distance s.echoWidth s.cfg.tickUs s.seq.rising s.seq.falling
        state := .triggerHigh } := by
  simp [measurePhase]

/-- A phase of `TriggerPhase()` stays in TriggerHigh, or, as the last one, moves to EchoRising with the phase
reset; the counts and the distance stand (R206). -/
theorem seq_triggerPhase (s : State) :
    (∃ ph busy trig, (triggerPhase s).seq = { s.seq with ph := ph, delayBusy := busy, trig := trig }) ∨
      (triggerPhase s).seq = { s.seq with state := .echoRising, ph := .settleReq } := by
  unfold triggerPhase
  cases s.seq.ph with
  | advance => exact .inr (by simp)
  | settleWait | pulseWait =>
    refine .inl ?_
    simp only [State.hold_eq]
    split <;> exact ⟨_, _, _, rfl⟩
  | resync => exact .inl ⟨.trigHigh, s.seq.delayBusy, s.seq.trig, by simp⟩
  | irqEnable => exact .inl ⟨.advance, s.seq.delayBusy, s.seq.trig, by simp⟩
  | settleReq | trigHigh | trigLow => exact .inl ⟨_, _, _, rfl⟩

/-- What `RPOLL` leaves of the session, by its state (R205). -/
theorem seq_execRpoll {s s' : State} (h : exec .rpoll s = .next s') :
    s'.seq = s.seq ∨
    (s.seq.state = .measurement ∧ s'.seq = (measurePhase s).seq) ∨
    (s.seq.state = .triggerHigh ∧ s'.seq = (triggerPhase s).seq) := by
  simp only [exec, execRpoll] at h
  split at h <;> cases Host.Outcome.next.inj h
  · exact .inl (by simp)
  · exact .inl (by simp)
  · exact .inl (by simp)
  · exact .inr (.inl ⟨‹_›, by simp⟩)
  · exact .inr (.inr ⟨‹_›, rfl⟩)

@[simp] theorem seq_crdEffect (t : TimerId) (n : ChanId) (s : State) : (crdEffect t n s).2.seq = s.seq := by
  rw [crdEffect_state, State.seq_onChan]

/-- What the handler body leaves of the session: the echo timer's stores a count and moves on in the two echo
states, and every other writes nothing (R212, R253). -/
theorem seq_handlerOf (t : TimerId) (s : State) :
    (handlerOf t s).seq = s.seq ∨
    (t = s.cfg.echoTimer ∧ s.seq.state = .echoRising ∧
      ∃ v, (handlerOf t s).seq = { s.seq with rising := v, state := .echoFalling }) ∨
    (t = s.cfg.echoTimer ∧ s.seq.state = .echoFalling ∧
      ∃ v, (handlerOf t s).seq = { s.seq with falling := v, state := .measurement }) := by
  unfold handlerOf
  by_cases ht : t = s.cfg.echoTimer
  · rw [if_pos ht]
    let v := (crdEffect s.cfg.echoTimer s.cfg.echoCh s).1
    obtain ⟨hs, e⟩ | ⟨hs, e⟩ | ⟨-, e⟩ := onCaptureEdge_cases s
    · exact .inr (.inl ⟨ht, hs, v, by simp [e, v, cpolEffect]⟩)
    · exact .inr (.inr ⟨ht, hs, v, by simp [e, v, cpolEffect, cidisEffect]⟩)
    · exact .inl (by simp [e])
  · rw [if_neg ht]
    exact .inl rfl

/-- An interrupt entry writes the session in its handler body alone (R254). -/
theorem seq_irqStep (t : TimerId) (s : State) : (irqStep t s).seq = (handlerOf t (s.enterIrq t)).seq :=
  State.seq_returnIrq _ t

/-! ### The fate of the session -/

/-- What one step from `s` leaves of the session. -/
inductive SeqFate (s : State) : Seq → Prop
  /-- Any step that does not touch it. -/
  | kept : SeqFate s s.seq
  /-- The end of the settle delay. -/
  | delayDone : SeqFate s { s.seq with delayBusy := false }
  /-- The echo timer's interrupt entry in EchoRising. -/
  | rising (v : Word) : s.pick = .irq s.cfg.echoTimer → s.seq.state = .echoRising →
      SeqFate s { s.seq with rising := v, state := .echoFalling }
  /-- The echo timer's interrupt entry in EchoFalling. -/
  | falling (v : Word) : s.pick = .irq s.cfg.echoTimer → s.seq.state = .echoFalling →
      SeqFate s { s.seq with falling := v, state := .measurement }
  /-- A phase of `RPOLL` in TriggerHigh but the last. -/
  | phase (ph : Phase) (busy trig : Bool) : s.polls → s.seq.state = .triggerHigh →
      SeqFate s { s.seq with ph := ph, delayBusy := busy, trig := trig }
  /-- The last phase of `RPOLL` in TriggerHigh. -/
  | advance : s.polls → s.seq.state = .triggerHigh →
      SeqFate s { s.seq with state := .echoRising, ph := .settleReq }
  /-- `RPOLL` in Measurement. -/
  | measured (d : Word) : s.polls → s.seq.state = .measurement →
      SeqFate s { s.seq with dist := d, state := .triggerHigh }

/-- The fate of a session that a poll leaves as `q`. -/
theorem seqFate_of_poll {s s1 : State} (hp : s.polls) (hx : exec .rpoll s.takePick = .next s1) :
    SeqFate s s1.seq := by
  have hq : s.takePick.seq = s.seq := s.seq_takePick
  obtain e | ⟨hs, e⟩ | ⟨hs, e⟩ := seq_execRpoll hx <;> rw [e]
  · rw [hq]
    exact .kept
  · rw [seq_measurePhase, hq]
    exact .measured _ hp (hq ▸ hs)
  · obtain ⟨ph, busy, trig, e⟩ | e := seq_triggerPhase s.takePick <;> rw [e, hq]
    · exact .phase ph busy trig hp (hq ▸ hs)
    · exact .advance hp (hq ▸ hs)

/-- The fate of the session in an interrupt entry. -/
theorem seqFate_of_irq {s : State} {t : TimerId} (hp : s.pick = .irq t) :
    SeqFate s (irqStep t s.takePick).seq := by
  have hq : (s.takePick.enterIrq t).seq = s.seq := by simp
  have hc : (s.takePick.enterIrq t).cfg = s.cfg := by simp
  rw [seq_irqStep]
  obtain e | ⟨ht, hs, v, e⟩ | ⟨ht, hs, v, e⟩ := seq_handlerOf t (s.takePick.enterIrq t) <;> rw [e, hq]
  · exact .kept
  · exact .rising v (by rw [hp, ht, hc]) (hq ▸ hs)
  · exact .falling v (by rw [hp, ht, hc]) (hq ▸ hs)

/-- The fate of the session in one step. -/
theorem seq_fate {s s' : State} (h : step s = .next s') : SeqFate s s'.seq := by
  obtain ⟨-, ⟨-, rfl⟩ | ⟨hp, -, c, hc, ⟨r, -, rfl⟩ | ⟨i, s1, hd, hx, rfl⟩⟩ | ⟨t, hp, -, rfl⟩ | ⟨t, -, -, rfl⟩ |
    ⟨t, n, v, -, -, rfl⟩ | ⟨t, n, -, -, rfl⟩ | ⟨-, -, rfl⟩⟩ := step_cases h
  · -- the pick is not enabled
    simpa using SeqFate.kept
  · -- a refused word
    simpa using SeqFate.kept
  · -- a command
    rw [State.seq_latchAll, State.seq_refreshAfter]
    by_cases hi : i = .rpoll
    · subst hi
      exact seqFate_of_poll ⟨hp, c, hc, hd⟩ hx
    · rw [(exec_frame i _ _ hx).2 hi, State.seq_takePick]
      exact .kept
  · -- an interrupt entry
    exact seqFate_of_irq hp
  · -- `Clk`
    simpa [clkStep] using SeqFate.kept
  · -- `SetInput`
    obtain ⟨tm, draws, e⟩ := setInputStep_eq t n v s.takePick
    simpa [e] using SeqFate.kept
  · -- `RaceGhost`
    obtain ⟨tm, e⟩ := raceGhostStep_eq t n s.takePick
    simpa [e] using SeqFate.kept
  · -- `DelayDone`
    simpa [delayDoneStep] using SeqFate.delayDone

/-- Settles O54: each way a step can write the session names its writer. -/
theorem sessionHasSingleWriters : Obligations.SessionHasSingleWriters := by
  intro s s' h
  change _ ∧ (_ → s.polls)
  generalize hq : s'.seq = q
  have hfate := seq_fate h
  rw [hq] at hfate
  cases hfate with
  | kept => simp
  | delayDone => simp
  | rising v hp hs => simp [hp, hs]
  | falling v hp hs => simp [hp, hs]
  | phase ph busy trig hp hs => simp [hp]
  | advance hp hs => simp [hp, hs]
  | measured d hp hs => simp [hp, hs]

end Sys2Proof.Machine
end

section
/-! PROOFS. Every step keeps the invariant of the state (spec 10_state.md R27). -/

namespace Sys2Proof.Machine

/-- R27(d): a phase other than SettleReq only in TriggerHigh. -/
def Seq.phaseOk (q : Seq) : Bool := q.ph == .settleReq || q.state == .triggerHigh

theorem Seq.phaseOk_iff (q : Seq) : q.phaseOk = true ↔ q.ph = .settleReq ∨ q.state = .triggerHigh := by
  simp [Seq.phaseOk]

/-- The invariant, part by part. -/
theorem State.wf_iff (s : State) : s.wf = true ↔
    (∀ t T, s.timer t = some T → T.wf = true) ∧ s.ctx.mode = .main ∧ s.seq.phaseOk = true := by
  rw [← State.all_timers_wf]
  simp [State.wf, Seq.phaseOk, and_assoc]

/-- An interrupt entry keeps the invariant of its timer. -/
theorem irqOp_wf (s : State) (t : TimerId) (T : Timer) (h : T.wf = true) : (irqOp s t T).wf = true :=
  Timer.wf_irqPend _ _ (handlerOp_wf s t _ (Timer.wf_irqPend T false h))

theorem Timer.wf_latch (T : Timer) (h : T.wf = true) : T.latch.wf = true := Timer.wf_irqPend T _ h

/-- A pin level is in no part of the invariant. -/
theorem Timer.wf_setTin (T : Timer) (i : ChanIdx) (v : Bool) (h : T.wf = true) :
    (T.modChan i fun C => { C with tin := v }).wf = true :=
  Timer.wf_modChan T i _ h fun _ hC => hC

/-- No step breaks the invariant of a timer. -/
theorem TimerFate.wf {s : State} {t : TimerId} {T T' : Timer} (h : TimerFate s t T T') (hT : T.wf = true) :
    T'.wf = true := by
  cases h with
  | stutter => exact hT
  | latched => exact T.wf_latch hT
  | cmd i j => exact Timer.wf_latch _ (refreshOp_wf i _ (cmdTimer_wf j _ T hT))
  | irqOther => exact hT
  | irq => exact irqOp_wf _ t T hT
  | clk => exact Timer.wf_latch _ (T.wf_clkCycle hT)
  | tin i v => exact Timer.wf_latch _ (T.wf_setTin i v hT)
  | cap i v => exact Timer.wf_latch _ (Timer.wf_capture _ i (T.wf_setTin i v hT))
  | ghost i => exact Timer.wf_latch _ (Timer.wf_modChan _ i _ (T.wf_capture i hT) fun _ hC => hC)

/-- No step leaves TriggerHigh in a phase other than SettleReq. -/
theorem SeqFate.phaseOk {s : State} {q : Seq} (h : SeqFate s q) (hq : s.seq.phaseOk = true) :
    q.phaseOk = true := by
  rw [Seq.phaseOk_iff] at hq ⊢
  cases h with
  | kept => exact hq
  | delayDone => exact hq
  | rising v hp hs => exact .inl (hq.resolve_right (by simp [hs]))
  | falling v hp hs => exact .inl (hq.resolve_right (by simp [hs]))
  | phase ph busy trig hp hs => exact .inr hs
  | advance => exact .inl rfl
  | measured => exact .inr rfl

/-- Settles O48: each part of the invariant by what one step can do to that part of the state. -/
theorem stepKeepsInvariant : Obligations.StepKeepsInvariant := by
  intro s s' hwf h
  rw [State.wf_iff] at hwf ⊢
  obtain ⟨htimers, hmode, hphase⟩ := hwf
  obtain ⟨-, -, -, keepsMode⟩ := step_keeps h
  refine ⟨fun t T' hT' => ?_, keepsMode hmode, (seq_fate h).phaseOk hphase⟩
  obtain ⟨T, hT, hfate⟩ := timer_fate_of_next h hT'
  exact hfate.wf (htimers t T hT)

end Sys2Proof.Machine
end

section
/-! PROOFS. The bits and the fields of the register words (spec 10_state.md R30 to R38). -/

namespace Sys2Proof.Machine

/-! ### The registers at their offsets (R30) -/

/-- The compare registers stand at consecutive words from 0x34. -/
theorem regOf_ccr (i : ChanIdx) : regOf (BitVec.ofNat 32 (0x34 + 4 * i.val)) = some (.ccr i) := by
  revert i; decide

/-- CCMR1 holds channels 1 and 2, CCMR2 channels 3 and 4. -/
def ccmrOf (i : ChanIdx) : Reg := if i.val < 2 then .ccmr1 else .ccmr2

theorem regOf_ccmr (i : ChanIdx) : regOf (if i.val < 2 then 0x18 else 0x1C) = some (ccmrOf i) := by
  revert i; decide

/-! ### Bits of CR1, DIER and SR (R31, R32, R33) -/

/-- A one-bit field holds its bit. -/
theorem getLsbD_bit (b : Bool) (j : Nat) : (bit b).getLsbD j = (decide (j = 0) && b) := by
  cases b <;> simp [bit]

theorem dirBit_eq (d : Direction) : dirBit d = (d == .down) := by cases d <;> rfl

theorem Timer.getLsbD_cr1Word (T : Timer) (j : Nat) :
    T.cr1Word.getLsbD j = match j with | 0 => T.cen | 4 => T.dir == .down | 7 => T.arpe | _ => false := by
  simp only [Timer.cr1Word, BitVec.getLsbD_append, getLsbD_bit, dirBit_eq]
  match j with
  | 0 | 1 | 2 | 3 | 4 | 5 | 6 | 7 => simp
  | k + 8 => simp

theorem Timer.getLsbD_dierWord (T : Timer) (j : Nat) :
    T.dierWord.getLsbD j = match j with
      | 1 => (T.chan 0).ccie | 2 => (T.chan 1).ccie | 3 => (T.chan 2).ccie
      | 4 => (T.chan 3).ccie | _ => false := by
  simp only [Timer.dierWord, BitVec.getLsbD_append, getLsbD_bit]
  match j with
  | 0 | 1 | 2 | 3 | 4 => simp
  | k + 5 => simp

theorem Timer.getLsbD_srWord (T : Timer) (j : Nat) :
    T.srWord.getLsbD j = match j with
      | 0 => T.uif
      | 1 => (T.chan 0).ccif | 2 => (T.chan 1).ccif | 3 => (T.chan 2).ccif
      | 4 => (T.chan 3).ccif | _ => false := by
  simp only [Timer.srWord, BitVec.getLsbD_append, getLsbD_bit]
  match j with
  | 0 | 1 | 2 | 3 | 4 => simp
  | k + 5 => simp

/-- Settles O31: the register at each offset, then its bits or its value. -/
theorem registerWordsByOffset : Obligations.RegisterWordsByOffset := by
  intro T j
  refine ⟨?cr1, ?dier, ?sr, ?egr, ?cnt, ?psc, ?arr, fun i => ?ccr⟩
  case cr1 => exact congrArg some (T.getLsbD_cr1Word j)
  case dier => exact congrArg some (T.getLsbD_dierWord j)
  case sr => exact congrArg some (T.getLsbD_srWord j)
  case psc => exact congrArg some (BitVec.ofNat_toNat 32 T.psc).symm
  case ccr => rw [regOf_ccr, Option.map_some, Timer.word]
  case egr | cnt | arr => rfl

/-! ### A part of a word and the fields in it -/

section
variable {w m k : Nat} {x : BitVec w} {y : BitVec m}

/-- A bit of a part of a word. -/
theorem getLsbD_of_extractLsb' (h : x.extractLsb' k m = y) {j : Nat} (hj : j < m) :
    x.getLsbD (k + j) = y.getLsbD j := by
  simp [← h, hj]

/-- A field in a part of a word. -/
theorem extractLsb'_of_extractLsb' (h : x.extractLsb' k m = y) {j n : Nat} (hj : j + n ≤ m) :
    x.extractLsb' (k + j) n = y.extractLsb' j n := by
  apply BitVec.eq_of_getLsbD_eq
  intro b hb
  simp only [BitVec.getLsbD_extractLsb', Nat.add_assoc]
  rw [getLsbD_of_extractLsb' h (by omega)]

end

/-- A word whose upper half reads 0 is below `2^16`. -/
theorem toNat_lt_of_upper_half {x : Word} (h : x.extractLsb' 16 16 = 0#16) : x.toNat < 2 ^ 16 := by
  have hx : x.toNat >>> 16 % 2 ^ 16 = 0 := by rw [← BitVec.extractLsb'_toNat, h, BitVec.toNat_zero]
  omega

/-! ### Channel control (R35, R36) -/

/-- The fields of a channel's byte (R35). -/
theorem Channel.ccmrByte_fields (C : Channel) :
    C.ccmrByte.extractLsb' 0 2 = C.ccs ∧ C.ccmrByte.getLsbD 2 = false ∧ C.ccmrByte.getLsbD 3 = C.ocpe ∧
      C.ccmrByte.extractLsb' 4 3 = C.ocm ∧ C.ccmrByte.getLsbD 7 = false := by
  refine ⟨?ccs, ?two, ?ocpe, ?ocm, ?seven⟩
  case ccs | ocm =>
    simp (disch := decide) only [Channel.ccmrByte, BitVec.extractLsb'_append_eq_of_le,
      BitVec.extractLsb'_append_eq_of_add_le, Nat.reduceSub, BitVec.extractLsb'_eq_self]
  case two | ocpe | seven =>
    simp only [Channel.ccmrByte, BitVec.getLsbD_append, getLsbD_bit]
    simp

/-- The bits of a channel's nibble (R36). -/
theorem Channel.ccerNibble_bits (C : Channel) :
    C.ccerNibble.getLsbD 0 = C.cce ∧ C.ccerNibble.getLsbD 1 = C.ccp ∧ C.ccerNibble.getLsbD 2 = false ∧
      C.ccerNibble.getLsbD 3 = C.ccnp := by
  simp only [Channel.ccerNibble, BitVec.getLsbD_append, getLsbD_bit]
  simp

/-- The parts of a word of two bytes under a half of zeros. -/
theorem extractLsb'_two_bytes (hi lo : BitVec 8) :
    (0#16 ++ hi ++ lo : Word).extractLsb' 0 8 = lo ∧ (0#16 ++ hi ++ lo : Word).extractLsb' 8 8 = hi ∧
      (0#16 ++ hi ++ lo : Word).extractLsb' 16 16 = 0#16 := by
  simp (disch := decide) only [BitVec.extractLsb'_append_eq_of_le, BitVec.extractLsb'_append_eq_of_add_le,
    Nat.reduceSub, BitVec.extractLsb'_eq_self, and_self]

/-- The parts of a word of four nibbles under a half of zeros. -/
theorem extractLsb'_four_nibbles (a b c d : BitVec 4) :
    (0#16 ++ d ++ c ++ b ++ a : Word).extractLsb' 0 4 = a ∧
      (0#16 ++ d ++ c ++ b ++ a : Word).extractLsb' 4 4 = b ∧
      (0#16 ++ d ++ c ++ b ++ a : Word).extractLsb' 8 4 = c ∧
      (0#16 ++ d ++ c ++ b ++ a : Word).extractLsb' 12 4 = d ∧
      (0#16 ++ d ++ c ++ b ++ a : Word).extractLsb' 16 16 = 0#16 := by
  simp (disch := decide) only [BitVec.extractLsb'_append_eq_of_le, BitVec.extractLsb'_append_eq_of_add_le,
    Nat.reduceSub, BitVec.extractLsb'_eq_self, and_self]

/-- The register of a channel holds its byte, and zeros in its upper half (R35). -/
theorem Timer.ccmrWord_parts (T : Timer) (i : ChanIdx) :
    (T.word (ccmrOf i)).extractLsb' (8 * (i.val % 2)) 8 = (T.chan i).ccmrByte ∧
      (T.word (ccmrOf i)).extractLsb' 16 16 = 0#16 := by
  obtain ⟨byte0, byte1, upper1⟩ := extractLsb'_two_bytes (T.chan 1).ccmrByte (T.chan 0).ccmrByte
  obtain ⟨byte2, byte3, upper2⟩ := extractLsb'_two_bytes (T.chan 3).ccmrByte (T.chan 2).ccmrByte
  match i with
  | 0 => exact ⟨byte0, upper1⟩
  | 1 => exact ⟨byte1, upper1⟩
  | 2 => exact ⟨byte2, upper2⟩
  | 3 => exact ⟨byte3, upper2⟩

/-- CCER holds the nibble of each channel, and zeros in its upper half (R36). -/
theorem Timer.ccerWord_parts (T : Timer) (i : ChanIdx) :
    T.ccerWord.extractLsb' (4 * i.val) 4 = (T.chan i).ccerNibble ∧ T.ccerWord.extractLsb' 16 16 = 0#16 := by
  obtain ⟨nibble0, nibble1, nibble2, nibble3, upper⟩ := extractLsb'_four_nibbles
    (T.chan 0).ccerNibble (T.chan 1).ccerNibble (T.chan 2).ccerNibble (T.chan 3).ccerNibble
  match i with
  | 0 => exact ⟨nibble0, upper⟩
  | 1 => exact ⟨nibble1, upper⟩
  | 2 => exact ⟨nibble2, upper⟩
  | 3 => exact ⟨nibble3, upper⟩

/-- Settles O32: a field of a register is a field of the channel's part of it. -/
theorem channelControlFields : Obligations.ChannelControlFields := by
  intro T i
  refine ⟨⟨ccmrOf i, regOf_ccmr i, ?ccmr⟩, ⟨.ccer, rfl, ?ccer⟩⟩
  case ccmr =>
    obtain ⟨byte, upper⟩ := T.ccmrWord_parts i
    obtain ⟨ccs, two, ocpe, ocm, seven⟩ := (T.chan i).ccmrByte_fields
    exact ⟨(extractLsb'_of_extractLsb' byte (j := 0) (by decide)).trans ccs,
      (getLsbD_of_extractLsb' byte (by decide)).trans two,
      (getLsbD_of_extractLsb' byte (by decide)).trans ocpe,
      (extractLsb'_of_extractLsb' byte (by decide)).trans ocm,
      (getLsbD_of_extractLsb' byte (by decide)).trans seven, toNat_lt_of_upper_half upper⟩
  case ccer =>
    obtain ⟨nibble, upper⟩ := T.ccerWord_parts i
    obtain ⟨cce, ccp, two, ccnp⟩ := (T.chan i).ccerNibble_bits
    exact ⟨(getLsbD_of_extractLsb' nibble (j := 0) (by decide)).trans cce,
      (getLsbD_of_extractLsb' nibble (by decide)).trans ccp,
      (getLsbD_of_extractLsb' nibble (by decide)).trans two,
      (getLsbD_of_extractLsb' nibble (by decide)).trans ccnp, toNat_lt_of_upper_half upper⟩

end Sys2Proof.Machine
end

section
/-! PROOFS. The command pointer after a completed command (spec 10_state.md R45). -/

namespace Sys2Proof.Machine

theorem Pc.next_boot (i n m : Nat) :
    Pc.next ⟨.boot, i⟩ n m = if i + 1 < n then ⟨.boot, i + 1⟩ else ⟨.loop, 0⟩ := rfl

theorem Pc.next_loop (i n m : Nat) :
    Pc.next ⟨.loop, i⟩ n m = if i + 1 < m then ⟨.loop, i + 1⟩ else ⟨.loop, 0⟩ := rfl

/-- In the main context, completion changes the pointer alone. -/
theorem State.complete_main (s : State) (h : s.ctx.mode = .main) :
    s.complete = { s with ctx := { s.ctx with pc := s.complete.ctx.pc } } := by
  unfold State.complete
  rw [h]

/-- Settles O9: the two lists, each before its last command and at it. -/
theorem completionAdvancesPointer : Obligations.CompletionAdvancesPointer := by
  intro s i hm
  have hpc : s.complete.ctx.pc = s.ctx.pc.next s.boot.length s.loop.length := s.ctx_pc_complete_main hm
  refine ⟨fun e h => ?_, fun e h => ?_, fun e h => ?_, fun e h => ?_, s.complete_main hm⟩
  · rw [hpc, e, Pc.next_boot, if_pos h]
  · rw [hpc, e, Pc.next_boot, if_neg (Nat.not_lt.mpr h)]
  · rw [hpc, e, Pc.next_loop, if_pos h]
  · rw [hpc, e, Pc.next_loop, if_neg (Nat.not_lt.mpr h)]

end Sys2Proof.Machine
end

section
/-! PROOFS. A command other than `TCFG` leaves an unclocked timer as it is, the interrupt controller's enable
apart (spec 20_memory.md R67, 41_capture_compare.md R154). -/

namespace Sys2Proof.Machine

section
variable {T : Timer} (hclk : T.clkEn = false)
include hclk

/-- A write to a channel waits for the clock (R67). -/
theorem chanOp_unclocked (n : ChanId) (f : Timer → ChanIdx → Timer) : chanOp n f T = T := by
  unfold chanOp
  split
  · rfl
  · simp [hclk]

theorem compareOp_unclocked (n : ChanId) (m : OutputMode) : compareOp n m T = T := by
  unfold compareOp
  split
  · rfl
  · exact chanOp_unclocked hclk n _

/-- The controller's enable is the one field that does not wait for the clock (R154). -/
theorem enableOp_unclocked (n : ChanId) : enableOp n T = T ∨ enableOp n T = { T with irqEn := true } := by
  unfold enableOp
  split
  · exact .inl rfl
  · simp [Timer.enableIrq, hclk]

/-- All that a command other than `TCFG` can do to an unclocked timer (R67, R154). -/
theorem cmdTimer_unclocked {j : Instr} (s : State) (hj : ∀ t d p q, j ≠ .tcfg t d p q) :
    cmdTimer j s T = T ∨ cmdTimer j s T = { T with irqEn := true } := by
  cases j with
  | tcfg t d p q => exact absurd rfl (hj t d p q)
  | cien t n => exact enableOp_unclocked hclk n
  | ccmp t n m b => exact .inl (compareOp_unclocked hclk n m)
  | cpwm t n m k d b => simp [cmdTimer, compareOp_unclocked hclk, chanOp_unclocked hclk]
  | ccap | cpol | cduty | crd | cidis | cclr => simp [cmdTimer, polarityOp, chanOp_unclocked hclk]
  | ten | tdis | tug | tdly => simp [cmdTimer, hclk]
  | rreg t off => cases hr : regOf off <;> simp [cmdTimer, hr, hclk]
  | trdc | cwait | rpoll => exact .inl rfl

end

/-- No phase of the poll has the effect of a `TCFG`. -/
theorem tcfg_not_mem_pollCommands (s : State) (t : TimerId) (d : Direction) (p q : Word) :
    .tcfg t d p q ∉ pollCommands s := by
  unfold pollCommands
  split <;> simp

/-- Settles O60: a timer the command does not name stays, and the one it names by `cmdTimer_unclocked`. -/
theorem unclockedTimerIgnoresCommands : Obligations.UnclockedTimerIgnoresCommands := by
  intro i s s' t T T' hx hT hclk hi hT'
  obtain ⟨j, u, hj, hu, hs⟩ := exec_timers_all i s s' hx
  have hst := hs t
  rw [hT, hT'] at hst
  by_cases htu : t = u
  · have hjt : ∀ v d p q, j ≠ .tcfg v d p q := by
      rintro v d p q rfl
      obtain rfl | ⟨-, hpoll⟩ := hj
      · cases hu
        exact hi d p q (by rw [htu])
      · exact tcfg_not_mem_pollCommands s v d p q hpoll
    rw [if_pos htu] at hst
    cases hst
    obtain e | e := cmdTimer_unclocked hclk s hjt <;> rw [e]
  · rw [if_neg htu] at hst
    cases hst
    rfl

end Sys2Proof.Machine
end

section
/-! PROOFS. The read of a register word with its side effect and its faults (spec 20_memory.md R63, R64,
41_capture_compare.md R152). -/

namespace Sys2Proof.Machine

/-! ### The side effect of a read (R64) -/

theorem Timer.modChan_congr (T : Timer) (i : ChanIdx) {f g : Channel → Channel}
    (h : f (T.chan i) = g (T.chan i)) : T.modChan i f = T.modChan i g := by
  unfold Timer.modChan
  rw [h]

theorem Channel.afterRead_of_input {C : Channel} (h : C.ccs = 0b01) :
    C.afterRead = { C with ccif := false } :=
  if_pos (beq_iff_eq.mpr h)

theorem Channel.afterRead_of_not_input {C : Channel} (h : C.ccs ≠ 0b01) : C.afterRead = C :=
  if_neg fun hin => h (beq_iff_eq.mp hin)

/-- A read of CCRc of a channel in input mode clears the channel's flag. -/
theorem Timer.afterRead_ccr_of_input (T : Timer) {i : ChanIdx} (h : (T.chan i).ccs = 0b01) :
    T.afterRead (.ccr i) = T.modChan i fun C => { C with ccif := false } :=
  T.modChan_congr i (Channel.afterRead_of_input h)

/-- Every other read changes nothing. -/
theorem Timer.afterRead_eq_self (T : Timer) {r : Reg} (h : ∀ i, r = .ccr i → (T.chan i).ccs ≠ 0b01) :
    T.afterRead r = T := by
  cases r with
  | ccr i => exact T.modChan_self i _ (Channel.afterRead_of_not_input (h i rfl))
  | cr1 | dier | sr | egr | ccmr1 | ccmr2 | ccer | cnt | psc | arr => rfl

/-! ### The known offsets (R30) -/

/-- The offsets of the registers of R30. -/
def knownOffsets : List Nat :=
  [0x00, 0x0C, 0x10, 0x14, 0x18, 0x1C, 0x20, 0x24, 0x28, 0x2C, 0x34, 0x38, 0x3C, 0x40]

/-- An offset has a register exactly when it is known. -/
theorem regOf_isSome (off : Word) : (regOf off).isSome = true ↔ off.toNat ∈ knownOffsets := by
  unfold regOf knownOffsets
  split <;> simp_all

/-! ### `RREG` by its checks (R152) -/

section
variable {s : State} {t : TimerId} {off : Word} {T : Timer} {r : Reg}

theorem exec_rreg_of_unrecognised (ht : s.timer t = none) :
    exec (.rreg t off) s = .next (s.raise .unknownTimer) := by
  simp only [exec, execRreg, ht]

theorem exec_rreg_of_reserved (ht : s.timer t = some T) (hr : regOf off = none) :
    exec (.rreg t off) s = .next (s.raise .badRegisterOffset) := by
  simp only [exec, execRreg, ht, hr]

theorem exec_rreg_of_unclocked (ht : s.timer t = some T) (hr : regOf off = some r)
    (hclk : T.clkEn = false) : exec (.rreg t off) s = .next (s.result 0).complete := by
  simp [exec, execRreg, ht, hr, hclk]

theorem exec_rreg_of_clocked (ht : s.timer t = some T) (hr : regOf off = some r) (hclk : T.clkEn = true) :
    exec (.rreg t off) s = .next ((s.setTimer t (T.afterRead r)).result (T.word r).toNat).complete := by
  simp [exec, execRreg, ht, hr, hclk]

end

/-- Settles O30: the checks in their order, then the word with the side effect of its read. -/
theorem rregReturnsWord : Obligations.RregReturnsWord := by
  intro s t off
  refine ⟨exec_rreg_of_unrecognised, fun ht hoff => ?reserved, fun T ht hoff => ?known⟩
  case reserved =>
    obtain ⟨T, ht⟩ := Option.ne_none_iff_exists'.mp ht
    have hr : regOf off = none := by
      rw [← Option.not_isSome_iff_eq_none, regOf_isSome]
      exact hoff
    exact exec_rreg_of_reserved ht hr
  case known =>
    obtain ⟨r, hr⟩ := Option.isSome_iff_exists.mp ((regOf_isSome off).mpr hoff)
    refine ⟨exec_rreg_of_unclocked ht hr, fun hclk => ⟨r, hr, ?flagged, fun hother => ?plain⟩⟩
    case flagged =>
      rintro i rfl hin
      rw [exec_rreg_of_clocked ht hr hclk, T.afterRead_ccr_of_input hin]
    case plain =>
      rw [exec_rreg_of_clocked ht hr hclk, T.afterRead_eq_self hother, s.setTimer_self ht]

end Sys2Proof.Machine
end

section
/-! PROOFS. The decoder and the encoder are inverse on the words the encoding admits (spec 30_encoding.md R80,
R84 to R90, R92, R93), the words with a reserved opcode, and the examples of R95. -/

namespace Sys2Proof

open Laws.HeaderMatch (opcodeOf)

/-! ### The two remaining fields of a header (R80) -/

/-- `sel`, bits 15:8. -/
def selField (w : Word) : BitVec 8 := w.extractLsb' 8 8

/-- `rsv`, bits 7:0. -/
def rsvField (w : Word) : BitVec 8 := w.extractLsb' 0 8

/-- The five fields tile the header word. -/
theorem fields_append (w : Word) :
    (opField w ++ tmrField w ++ chField w ++ selField w ++ rsvField w : Word) = w := by
  have h₁ : opField w ++ tmrField w = w.extractLsb' 20 12 :=
    BitVec.extractLsb'_append_extractLsb'_eq_extractLsb' rfl
  have h₂ : w.extractLsb' 20 12 ++ chField w = w.extractLsb' 16 16 :=
    BitVec.extractLsb'_append_extractLsb'_eq_extractLsb' rfl
  have h₃ : w.extractLsb' 16 16 ++ selField w = w.extractLsb' 8 24 :=
    BitVec.extractLsb'_append_extractLsb'_eq_extractLsb' rfl
  have h₄ : w.extractLsb' 8 24 ++ rsvField w = w.extractLsb' 0 32 :=
    BitVec.extractLsb'_append_extractLsb'_eq_extractLsb' rfl
  rw [h₁, h₂, h₃, h₄, BitVec.extractLsb'_eq_self]

/-- A word whose reserved byte is 0 is the header of its fields. -/
theorem header_fields {w : Word} (h : rsvField w = 0) :
    header (opField w) (tmrField w) (chField w) (selField w) = w := by
  conv_rhs => rw [← fields_append w, h]
  rfl

/-- `sel` with no bit above the direction code is the selector of the direction it names (R85). -/
theorem selField_eq_selDir {w : Word} (h : w.extractLsb' 9 7 = 0) :
    selField w = selDir (dirOf (dirField w)) := by
  have hsel : w.extractLsb' 9 7 ++ dirField w = selField w :=
    BitVec.extractLsb'_append_extractLsb'_eq_extractLsb' rfl
  have hdir : ∀ k : BitVec 1, dirCode (dirOf k) = k := by decide
  rw [selDir, hdir, ← hsel, h]
  rfl

/-- `sel` with its top two bits 0 is the selector of its mode and polarity codes (R86, R87). -/
theorem selField_eq_selModePol {w : Word} (h : w.extractLsb' 14 2 = 0) :
    selField w = selModePol (modeField w) (polField w) := by
  have hhigh : w.extractLsb' 14 2 ++ polField w = w.extractLsb' 12 4 :=
    BitVec.extractLsb'_append_extractLsb'_eq_extractLsb' rfl
  have hsel : w.extractLsb' 12 4 ++ modeField w = selField w :=
    BitVec.extractLsb'_append_extractLsb'_eq_extractLsb' rfl
  rw [← hsel, ← hhigh, h]
  rfl

/-- The code of the mode a code names is that code (R86). -/
theorem modeCode_of_modeOf {k : BitVec 4} {m : OutputMode} (h : modeOf k = some m) : modeCode m = k := by
  unfold modeOf at h
  split at h <;> cases h
  all_goals exact BitVec.eq_of_toNat_eq (Eq.symm ‹_›)

/-- The code of the polarity a code names is that code (R87). -/
theorem polCode_of_polOf {k : BitVec 2} {p : Polarity} (h : polOf k = some p) : polCode p = k := by
  unfold polOf at h
  split at h <;> cases h
  all_goals exact BitVec.eq_of_toNat_eq (Eq.symm ‹_›)

/-! ### The decoder by its checks (R92) -/

theorem readMode_eq_ok {c : Cmd} {k : OutputMode → Except DecodeRefusal Instr} {i : Instr} :
    readMode c k = .ok i ↔ ∃ m, modeOf (modeField c.w0) = some m ∧ k m = .ok i := by
  unfold readMode
  split <;> simp_all

theorem readPol_eq_ok {c : Cmd} {k : Polarity → Except DecodeRefusal Instr} {i : Instr} :
    readPol c k = .ok i ↔ ∃ p, polOf (polField c.w0) = some p ∧ k p = .ok i := by
  unfold readPol
  split <;> simp_all

theorem readBind_eq_ok {c : Cmd} {i j : Instr} : readBind c j = .ok i ↔ bindOk c.b = true ∧ j = i := by
  unfold readBind
  split <;> simp_all

/-- R81, R92: the unused operand words are 0. -/
theorem Op.badOperand_eq_false {o : Op} {c : Cmd} :
    o.badOperand c = false ↔ (o.usesA = false → c.a = 0) ∧ (o.usesB = false → c.b = 0) := by
  cases ha : o.usesA <;> cases hb : o.usesB <;> simp [Op.badOperand, ha, hb]

/-- The decoder accepts what passes its checks in turn. -/
theorem decode_eq_ok {c : Cmd} {i : Instr} :
    decode c = .ok i ↔ ∃ o, opOf (opField c.w0) = some o ∧ c.w0 &&& o.mask = o.matchWord ∧
      o.badOperand c = false ∧ o.build c = .ok i := by
  unfold decode
  cases opOf (opField c.w0) with
  | none => simp
  | some o =>
    simp only [Option.some.injEq, exists_eq_left']
    split
    · simp_all
    · split <;> simp_all

/-! ### An encoding passes every check (R93) -/

/-- R89, over all commands. -/
theorem encode_matches (i : Instr) : (encode i).w0 &&& (opcodeOf i).mask = (opcodeOf i).matchWord := by
  cases i with
  | tcfg t d p q => exact Laws.HeaderMatch.tcfg t d p q
  | ten t => exact Laws.HeaderMatch.ten t
  | tdis t => exact Laws.HeaderMatch.tdis t
  | tug t => exact Laws.HeaderMatch.tug t
  | trdc t => exact Laws.HeaderMatch.trdc t
  | tdly t => exact Laws.HeaderMatch.tdly t
  | ccap t n b => exact Laws.HeaderMatch.ccap t n b
  | ccmp t n m b => exact Laws.HeaderMatch.ccmp t n m b
  | cpol t n k => exact Laws.HeaderMatch.cpol t n k
  | cpwm t n m k d b => exact Laws.HeaderMatch.cpwm t n m k d b
  | cduty t n d => exact Laws.HeaderMatch.cduty t n d
  | cwait t n => exact Laws.HeaderMatch.cwait t n
  | crd t n => exact Laws.HeaderMatch.crd t n
  | cien t n => exact Laws.HeaderMatch.cien t n
  | cidis t n => exact Laws.HeaderMatch.cidis t n
  | cclr t n => exact Laws.HeaderMatch.cclr t n
  | rreg t off => exact Laws.HeaderMatch.rreg t off
  | rpoll => exact Laws.HeaderMatch.rpoll

theorem opField_encode (i : Instr) : opField (encode i).w0 = (opcodeOf i).code := by
  cases i <;> exact opField_header ..

theorem badOperand_encode (i : Instr) : (opcodeOf i).badOperand (encode i) = false := by
  rw [Op.badOperand_eq_false]
  cases i <;> simp [opcodeOf, Op.usesA, Op.usesB, encode]

/-- The fields of an encoding are the operands it was made of. -/
theorem build_encode {i : Instr} (h : i.wf = true) : (opcodeOf i).build (encode i) = .ok i := by
  cases i with
  | tcfg | ten | tdis | tug | trdc | tdly | cduty | cwait | crd | cien | cidis | cclr | rreg | rpoll =>
    simp [opcodeOf, Op.build, encode]
  | ccap t n b => simpa [opcodeOf, Op.build, encode, readBind_eq_ok, Instr.wf] using h
  | ccmp t n m b => simpa [opcodeOf, Op.build, encode, readMode_eq_ok, readBind_eq_ok, Instr.wf] using h
  | cpol t n k => simp [opcodeOf, Op.build, encode, readPol_eq_ok]
  | cpwm t n m k d b =>
    simpa [opcodeOf, Op.build, encode, readMode_eq_ok, readPol_eq_ok, readBind_eq_ok, Instr.wf] using h

/-- Settles O1: the encoding passes the decoder's checks one by one, and its fields read back. -/
theorem decodeEncodeRoundTrip : Obligations.DecodeEncodeRoundTrip := by
  intro i hwf
  have hop : opOf (opField (encode i).w0) = some (opcodeOf i) := by rw [opField_encode, opOf_code]
  exact decode_eq_ok.mpr ⟨opcodeOf i, hop, encode_matches i, badOperand_encode i, build_encode hwf⟩

/-! ### An accepted word is an encoding (R89, R92) -/

section
variable {o : Op} {w : Word}

/-- Where the mask is all ones, the word has the bits of the match word. -/
theorem extractLsb'_of_match (h : w &&& o.mask = o.matchWord) {s n : Nat}
    (hm : o.mask.extractLsb' s n = BitVec.allOnes n) :
    w.extractLsb' s n = o.matchWord.extractLsb' s n := by
  rw [← h, BitVec.extractLsb'_and, hm, BitVec.and_allOnes]

/-- R89: below the opcode, what the mask covers is 0. -/
theorem extractLsb'_eq_zero_of_match (h : w &&& o.mask = o.matchWord) {s n : Nat}
    (hm : s + n ≤ 24 ∧ o.mask.extractLsb' s n = BitVec.allOnes n) : w.extractLsb' s n = 0 := by
  obtain ⟨hs, hm⟩ := hm
  rw [extractLsb'_of_match h hm]
  apply BitVec.eq_of_getLsbD_eq
  intro j hj
  have hlow : s + j < 24 := by omega
  simp only [Op.matchWord, BitVec.getLsbD_extractLsb', BitVec.getLsbD_append, hlow, if_true]
  simp

/-- Every mask covers the opcode and the reserved byte, so a matching word is the header of its opcode's code
and its other fields. -/
theorem header_of_match (h : w &&& o.mask = o.matchWord) {t : TimerId} {n : ChanId} {s : BitVec 8}
    (ht : tmrField w = t) (hn : chField w = n) (hs : selField w = s) : header o.code t n s = w := by
  have hop : opField w = o.code := by
    have hw := extractLsb'_of_match h (s := 24) (n := 8) (by cases o <;> decide)
    exact hw.trans (by cases o <;> decide)
  have hrsv : rsvField w = 0 := extractLsb'_eq_zero_of_match h (by cases o <;> decide)
  rw [← hop, ← ht, ← hn, ← hs, header_fields hrsv]

end

/-- A command triple by its words. -/
theorem Cmd.mk_eq {c : Cmd} {w a b : Word} (hw : w = c.w0) (ha : a = c.a) (hb : b = c.b) :
    Cmd.mk w a b = c := by
  cases c
  simp [hw, ha, hb]

/-- What is built from a checked triple is well-formed and encodes to the triple: each header field is either
covered by the mask, hence 0 on both sides, or an operand of the command. -/
theorem Op.encode_of_build {o : Op} {c : Cmd} {i : Instr} (hm : c.w0 &&& o.mask = o.matchWord)
    (hu : o.badOperand c = false) (h : o.build c = .ok i) : i.wf = true ∧ encode i = c := by
  obtain ⟨ha, hb⟩ := Op.badOperand_eq_false.mp hu
  have covered {s n : Nat} (hc : s + n ≤ 24 ∧ o.mask.extractLsb' s n = BitVec.allOnes n) :
      c.w0.extractLsb' s n = 0 := extractLsb'_eq_zero_of_match hm hc
  cases o with
  | tcfg =>
    cases h
    have hn : chField c.w0 = 0 := covered (by decide)
    have hs := selField_eq_selDir (covered (s := 9) (n := 7) (by decide))
    exact ⟨rfl, Cmd.mk_eq (header_of_match hm rfl hn hs) rfl rfl⟩
  | ten | tdis | tug | trdc | tdly =>
    cases h
    have hn : chField c.w0 = 0 := covered (by decide)
    have hs : selField c.w0 = 0 := covered (by decide)
    exact ⟨rfl, Cmd.mk_eq (header_of_match hm rfl hn hs) (ha rfl).symm (hb rfl).symm⟩
  | rreg =>
    cases h
    have hn : chField c.w0 = 0 := covered (by decide)
    have hs : selField c.w0 = 0 := covered (by decide)
    exact ⟨rfl, Cmd.mk_eq (header_of_match hm rfl hn hs) rfl (hb rfl).symm⟩
  | cwait | crd | cien | cidis | cclr =>
    cases h
    have hs : selField c.w0 = 0 := covered (by decide)
    exact ⟨rfl, Cmd.mk_eq (header_of_match hm rfl rfl hs) (ha rfl).symm (hb rfl).symm⟩
  | cduty =>
    cases h
    have hs : selField c.w0 = 0 := covered (by decide)
    exact ⟨rfl, Cmd.mk_eq (header_of_match hm rfl rfl hs) rfl (hb rfl).symm⟩
  | ccap =>
    obtain ⟨hbind, rfl⟩ := readBind_eq_ok.mp h
    have hs : selField c.w0 = 0 := covered (by decide)
    exact ⟨hbind, Cmd.mk_eq (header_of_match hm rfl rfl hs) (ha rfl).symm rfl⟩
  | ccmp =>
    obtain ⟨m, hmode, h⟩ := readMode_eq_ok.mp h
    obtain ⟨hbind, rfl⟩ := readBind_eq_ok.mp h
    have hp : polField c.w0 = 0 := covered (by decide)
    have hs : selField c.w0 = selModePol (modeCode m) 0 := by
      rw [selField_eq_selModePol (covered (by decide)), modeCode_of_modeOf hmode, hp]
    exact ⟨hbind, Cmd.mk_eq (header_of_match hm rfl rfl hs) (ha rfl).symm rfl⟩
  | cpol =>
    obtain ⟨p, hpol, h⟩ := readPol_eq_ok.mp h
    cases h
    have hk : modeField c.w0 = 0 := covered (by decide)
    have hs : selField c.w0 = selModePol 0 (polCode p) := by
      rw [selField_eq_selModePol (covered (by decide)), polCode_of_polOf hpol, hk]
    exact ⟨rfl, Cmd.mk_eq (header_of_match hm rfl rfl hs) (ha rfl).symm (hb rfl).symm⟩
  | cpwm =>
    obtain ⟨m, hmode, h⟩ := readMode_eq_ok.mp h
    obtain ⟨p, hpol, h⟩ := readPol_eq_ok.mp h
    obtain ⟨hbind, rfl⟩ := readBind_eq_ok.mp h
    have hs : selField c.w0 = selModePol (modeCode m) (polCode p) := by
      rw [selField_eq_selModePol (covered (by decide)), modeCode_of_modeOf hmode,
        polCode_of_polOf hpol]
    exact ⟨hbind, Cmd.mk_eq (header_of_match hm rfl rfl hs) rfl rfl⟩
  | rpoll =>
    cases h
    have ht : tmrField c.w0 = 0 := covered (by decide)
    have hn : chField c.w0 = 0 := covered (by decide)
    have hs : selField c.w0 = 0 := covered (by decide)
    exact ⟨rfl, Cmd.mk_eq (header_of_match hm ht hn hs) (ha rfl).symm (hb rfl).symm⟩

/-- Settles O2: the decoder's checks, then the fields of the checked word. -/
theorem acceptedWordIsItsEncoding : Obligations.AcceptedWordIsItsEncoding := by
  intro c i h
  obtain ⟨o, -, hm, hu, hbuild⟩ := decode_eq_ok.mp h
  exact Op.encode_of_build hm hu hbuild

/-- Settles O3: each triple decodes to its command, so it is the command's encoding by O2. -/
theorem encodingExamples : Obligations.EncodingExamples := by
  intro p hp
  have hd : decode p.2 = .ok p.1 := by
    simp only [List.mem_cons, List.not_mem_nil, or_false] at hp
    obtain rfl | rfl | rfl | rfl | rfl | rfl | rfl | rfl := hp <;> rfl
  exact ⟨(acceptedWordIsItsEncoding p.2 p.1 hd).2, hd⟩

/-! ### The reserved opcodes (R90) -/

/-- The opcodes that spell no command. -/
theorem opOf_eq_none {k : BitVec 8} :
    opOf k = none ↔ k.toNat = 0x00 ∨ (0x07 ≤ k.toNat ∧ k.toNat ≤ 0x0F) ∨
      (0x1B ≤ k.toNat ∧ k.toNat ≤ 0x1F) ∨ 0x21 ≤ k.toNat := by
  unfold opOf
  split
  case h_19 =>
    -- none of the opcodes of R84
    simp only [imp_false, true_iff] at *
    omega
  all_goals simp_all

theorem opField_toNat (w : Word) : (opField w).toNat = w.toNat / 2 ^ 24 := by
  rw [opField, BitVec.extractLsb'_toNat, Nat.shiftRight_eq_div_pow]
  exact Nat.mod_eq_of_lt (Nat.div_lt_of_lt_mul w.isLt)

/-- Past the opcode, a triple is refused under another name only. -/
theorem Op.build_ne_reservedOpcode (o : Op) (c : Cmd) : o.build c ≠ .error .reservedOpcode := by
  have hbind (i : Instr) : readBind c i ≠ .error .reservedOpcode := by
    unfold readBind
    split <;> simp
  have hpol {k : Polarity → Except DecodeRefusal Instr} (hk : ∀ p, k p ≠ .error .reservedOpcode) :
      readPol c k ≠ .error .reservedOpcode := by
    unfold readPol
    split
    · exact hk _
    · simp
  have hmode {k : OutputMode → Except DecodeRefusal Instr} (hk : ∀ m, k m ≠ .error .reservedOpcode) :
      readMode c k ≠ .error .reservedOpcode := by
    unfold readMode
    split
    · exact hk _
    · simp
  cases o with
  | ccap => exact hbind _
  | ccmp => exact hmode fun _ => hbind _
  | cpol => exact hpol fun _ => nofun
  | cpwm => exact hmode fun _ => hpol fun _ => hbind _
  | tcfg | ten | tdis | tug | trdc | tdly | cduty | cwait | crd | cien | cidis | cclr | rreg | rpoll =>
    nofun

theorem decode_eq_reservedOpcode {c : Cmd} :
    decode c = .error .reservedOpcode ↔ opOf (opField c.w0) = none := by
  unfold decode
  cases opOf (opField c.w0) with
  | none => simp
  | some o =>
    simp only [reduceCtorEq, iff_false]
    split
    · simp
    · split
      · simp
      · exact o.build_ne_reservedOpcode c

/-- Settles O4: the first check is the only one that answers this name, and it reads the opcode alone. -/
theorem reservedOpcodesRefused : Obligations.ReservedOpcodesRefused := by
  intro c
  rw [decode_eq_reservedOpcode, opOf_eq_none, opField_toNat]

end Sys2Proof
end

section
/-! PROOFS. A refused word stops the main context (spec 30_encoding.md R92, 60_exceptions.md R243). -/

namespace Sys2Proof.Machine

/-- R92: a refused word sets the flag and nothing else. -/
theorem mainStep_of_refusal {s : State} {c : Cmd} {r : DecodeRefusal} (hc : s.fetch = some c)
    (hd : decode c = .error r) :
    mainStep s = .next { s with ctx := { s.ctx with refused := true } } := by
  simp only [mainStep, hc, hd]

/-- R243: after a refused word the main context has no step. -/
theorem State.enabled_main_of_refused {s : State} (h : s.ctx.refused = true) : s.enabled .main = false := by
  simp [State.enabled, State.mainHasStep, h]

/-- Settles O6: the main context's step by the decoder's answer, and its enabling by the flag. -/
theorem refusedWordStopsMain : Obligations.RefusedWordStopsMain := by
  refine ⟨fun s c r hf hr hp hc hd => ?_, fun _ => State.enabled_main_of_refused⟩
  have hc' : s.takePick.fetch = some c := by rw [State.fetch_takePick, hc]
  rw [step_of_main hf hp (State.enabled_main_of_fetch hf hr hc), mainStep_of_refusal hc' hd, onNext_next,
    State.ctx_takePick]

end Sys2Proof.Machine
end

section
/-! PROOFS. What every step keeps of a timer's counter and of its enables (spec 40_timer_engine.md R100, R115,
60_exceptions.md R250). -/

namespace Sys2Proof.Machine

/-! ### The counter below the active period (R115) -/

theorem Timer.belowPeriod_iff (T : Timer) : T.belowPeriod = true ↔ (T.dir = .up → T.cnt ≤ T.arrSh) := by
  cases hd : T.dir <;> simp [Timer.belowPeriod, hd]

theorem Timer.belowPeriod_of_zero {T : Timer} (h : T.cnt = 0) : T.belowPeriod = true := by
  rw [Timer.belowPeriod_iff, h]
  exact fun _ => Nat.zero_le T.arrSh.toNat

theorem Timer.belowPeriod_of_down {T : Timer} (h : T.dir = .down) : T.belowPeriod = true := by
  rw [Timer.belowPeriod_iff, h]
  exact nofun

/-- A counter below the period is not above it one further on, reduced to its width. -/
theorem truncTo_succ_le {w : Width} {c a : Word} (h : c ≤ a) (hne : c ≠ a) : truncTo w (c + 1) ≤ a := by
  have hlt : c.toNat < a.toNat := lt_of_le_of_ne h fun e => hne (BitVec.eq_of_toNat_eq e)
  rw [BitVec.le_def, truncTo_toNat]
  calc (c + 1).toNat % 2 ^ w.bits
      _ ≤ (c + 1).toNat := Nat.mod_le _ _
      _ ≤ a.toNat := by bv_omega

/-- R111: counting Up, the counter goes one on below the period, and to 0 at it. -/
theorem Timer.belowPeriod_count {T : Timer} (h : T.belowPeriod = true) : T.count.belowPeriod = true := by
  obtain ⟨-, -, e⟩ | ⟨hd, hc, e⟩ | ⟨hd, -, e⟩ | ⟨hd, -, e⟩ := T.count_cases <;> rw [e]
  · exact Timer.belowPeriod_of_zero rfl
  · rw [Timer.belowPeriod_iff] at h ⊢
    exact fun _ => truncTo_succ_le (h hd) hc
  · exact Timer.belowPeriod_of_down hd
  · exact Timer.belowPeriod_of_down hd

/-- A clock cycle moves the counter by the count alone (R110). -/
theorem Timer.belowPeriod_clkCycle {T : Timer} (h : T.belowPeriod = true) :
    T.clkCycle.belowPeriod = true :=
  Timer.clkCycle_rel (P := fun A B => A.belowPeriod = true → B.belowPeriod = true) (fun h k => k ∘ h)
    (fun _ _ => id) (fun _ _ => id) (fun _ => Timer.belowPeriod_count) T h

/-- Of the primitive writes, the two that reach the counter or the period zero the counter (R100, R112). -/
theorem Prims.belowPeriod : Prims fun A B => A.belowPeriod = true → B.belowPeriod = true where
  refl _ := id
  trans h k := k ∘ h
  pend _ _ := id
  en _ := id
  cen _ _ := id
  arpe _ := id
  chans _ _ := id
  conf _ _ _ _ _ := Timer.belowPeriod_of_zero rfl
  upd _ _ _ := Timer.belowPeriod_of_zero rfl

/-- Settles O52: by the fate of each timer, its clock cycle apart. -/
theorem stepKeepsCounterBelowPeriod : Obligations.StepKeepsCounterBelowPeriod := by
  intro s s' hs h t T' hT'
  obtain ⟨T, hT, hfate⟩ := timer_fate_of_next h hT'
  exact Prims.belowPeriod.fate hfate (fun _ _ => Timer.belowPeriod_clkCycle) (fun _ _ _ _ _ => id) (hs t T hT)

/-! ### The clock and the controller's enable (R100, R250) -/

/-- The clock and the interrupt controller's enable of `T` are still on in `T'`. -/
def Timer.enablesKept (T T' : Timer) : Prop :=
  (T.clkEn = true → T'.clkEn = true) ∧ (T.irqEn = true → T'.irqEn = true)

theorem Timer.enablesKept_of_eq {T T' : Timer} (hclk : T'.clkEn = T.clkEn) (hirq : T'.irqEn = T.irqEn) :
    T.enablesKept T' :=
  ⟨fun h => hclk.trans h, fun h => hirq.trans h⟩

theorem Timer.enablesKept_trans {A B C : Timer} (h : A.enablesKept B) (k : B.enablesKept C) :
    A.enablesKept C :=
  ⟨k.1 ∘ h.1, k.2 ∘ h.2⟩

/-- Of the primitive writes, `TCFG` turns the clock on and `CIEN` the controller's enable (R100, R154). -/
theorem Prims.enablesKept : Prims Timer.enablesKept where
  refl _ := Timer.enablesKept_of_eq rfl rfl
  trans := Timer.enablesKept_trans
  pend _ _ := Timer.enablesKept_of_eq rfl rfl
  en _ := ⟨id, fun _ => rfl⟩
  cen _ _ := Timer.enablesKept_of_eq rfl rfl
  arpe _ := Timer.enablesKept_of_eq rfl rfl
  chans _ _ := Timer.enablesKept_of_eq rfl rfl
  conf _ _ _ _ := ⟨fun _ => rfl, id⟩
  upd _ _ := Timer.enablesKept_of_eq rfl rfl

theorem Timer.enablesKept_count (T : Timer) : T.enablesKept T.count := by
  obtain ⟨-, -, e⟩ | ⟨-, -, e⟩ | ⟨-, -, e⟩ | ⟨-, -, e⟩ := T.count_cases <;> rw [e] <;>
    exact Timer.enablesKept_of_eq rfl rfl

theorem Timer.enablesKept_clkCycle (T : Timer) : T.enablesKept T.clkCycle :=
  Timer.clkCycle_rel (P := Timer.enablesKept) Timer.enablesKept_trans (fun _ _ => Timer.enablesKept_of_eq rfl rfl)
    (fun _ _ => Timer.enablesKept_of_eq rfl rfl) Timer.enablesKept_count T

/-- Settles O58: by the fate of the timer. -/
theorem enablesNeverCleared : Obligations.EnablesNeverCleared := by
  intro s s' t T T' h hT hT'
  obtain ⟨T1, hT1, hfate⟩ := timer_fate s s' t T h hT
  cases hT1.symm.trans hT'
  exact Prims.enablesKept.fate hfate (fun _ _ => T.enablesKept_clkCycle)
    fun _ _ _ _ _ => Timer.enablesKept_of_eq rfl rfl

end Sys2Proof.Machine
end

section
/-! PROOFS. The commands of the timer engine, by their checks (spec 40_timer_engine.md R100 to R108, R114). -/

namespace Sys2Proof.Machine

/-! ### `TCFG` (R100) -/

theorem truncTo_eq_ofNat (w : Width) (v : Word) : truncTo w v = BitVec.ofNat 32 (v.toNat % 2 ^ w.bits) := by
  apply BitVec.eq_of_toNat_eq
  rw [truncTo_toNat, BitVec.toNat_ofNat, Nat.mod_eq_of_lt (lt_of_le_of_lt (Nat.mod_le _ _) v.isLt)]

theorem isNegative_eq_false {v : Word} : isNegative v = false ↔ 0 ≤ v.toInt := by
  simp [isNegative]

theorem exec_tcfg_of_accepted {s : State} {t : TimerId} {T : Timer} {p q : Word} (d : Direction)
    (ht : s.timer t = some T) (hp : 0 ≤ p.toInt) (hq : 0 ≤ q.toInt) :
    exec (.tcfg t d p q) s = .next (s.setTimer t (T.configure d p q)).complete := by
  simp [exec, execTcfg, tcfgEffect, isNegative_eq_false.mpr hp, isNegative_eq_false.mpr hq, s.onTimer_some _ ht]

theorem exec_tcfg_of_refused {s : State} {t : TimerId} {p q : Word} (d : Direction)
    (h : p.toInt < 0 ∨ q.toInt < 0) : exec (.tcfg t d p q) s = .next s.complete := by
  simp [exec, execTcfg, tcfgEffect, isNegative_eq_true, h]

theorem exec_tcfg_of_unrecognised {s : State} {t : TimerId} (d : Direction) (p q : Word)
    (ht : s.timer t = none) : exec (.tcfg t d p q) s = .next s.complete := by
  simp [exec, execTcfg, tcfgEffect, s.onTimer_none _ ht]

/-- Settles O10: the check of the operands, then the timer. -/
theorem tcfgProgramsTimer : Obligations.TcfgProgramsTimer := by
  refine fun s t d p q => ⟨fun T ht hp hq => ?accepted, fun h => ?silent⟩
  case accepted =>
    rw [exec_tcfg_of_accepted d ht hp hq, Timer.configure, truncTo_eq_ofNat]
    rfl
  case silent =>
    obtain ht | h := h
    · exact exec_tcfg_of_unrecognised d p q ht
    · exact exec_tcfg_of_refused d h

/-! ### `TEN` and `TDIS` (R101, R102) -/

/-- The command that writes the run bit: `TEN` for true, `TDIS` for false. -/
def runBitCommand (t : TimerId) (e : Bool) : Instr := if e then .ten t else .tdis t

theorem exec_runBitCommand (t : TimerId) (e : Bool) (s : State) :
    exec (runBitCommand t e) s = .next (s.onClocked t fun T => { T with cen := e }).complete := by
  cases e <;> rfl

theorem exec_runBitCommand_of_clocked {s : State} {t : TimerId} {T : Timer} (e : Bool)
    (ht : s.timer t = some T) (hclk : T.clkEn = true) :
    exec (runBitCommand t e) s = .next (s.setTimer t { T with cen := e }).complete := by
  rw [exec_runBitCommand, s.onClocked_clocked _ ht hclk]

theorem exec_runBitCommand_of_idle {s : State} {t : TimerId} (e : Bool)
    (h : s.timer t = none ∨ ∃ T, s.timer t = some T ∧ T.clkEn = false) :
    exec (runBitCommand t e) s = .next s.complete := by
  rw [exec_runBitCommand, s.onClocked_idle _ h]

/-- Settles O11: `TEN` and `TDIS` are the two commands of the run bit. -/
theorem tenAndTdisWriteRunBit : Obligations.TenAndTdisWriteRunBit := fun _ _ =>
  ⟨fun _ ht hclk => ⟨exec_runBitCommand_of_clocked true ht hclk, exec_runBitCommand_of_clocked false ht hclk⟩,
    fun h => ⟨exec_runBitCommand_of_idle true h, exec_runBitCommand_of_idle false h⟩⟩

/-! ### Sequences of commands -/

theorem runCommands_cons_of_next {i : Instr} {s s1 : State} (rest : List Instr) (h : exec i s = .next s1) :
    runCommands (i :: rest) s = runCommands rest (s1.refreshAfter i) := by
  simp only [runCommands, h]

/-- The state with the command pointer at `pc`. -/
def State.withPc (s : State) (pc : Pc) : State := { s with ctx := { s.ctx with pc := pc } }

@[simp] theorem State.timer_withPc (s : State) (pc : Pc) (t : TimerId) : (s.withPc pc).timer t = s.timer t := rfl
@[simp] theorem State.withPc_withPc (s : State) (pc pc' : Pc) : (s.withPc pc).withPc pc' = s.withPc pc' := rfl
@[simp] theorem State.setTimer_withPc (s : State) (pc : Pc) (t : TimerId) (T : Timer) :
    (s.withPc pc).setTimer t T = (s.setTimer t T).withPc pc := rfl

/-- Completion moves the pointer and nothing else, in either context (R45). -/
theorem State.complete_eq_withPc (s : State) : s.complete = s.withPc s.complete.ctx.pc := by
  cases hm : s.ctx.mode with
  | main => exact s.complete_main hm
  | handler => rw [s.complete_handler hm]; rfl

/-- A command of the run bit is followed by no refresh (R180). -/
theorem State.refreshAfter_runBitCommand (s : State) (t : TimerId) (e : Bool) :
    s.refreshAfter (runBitCommand t e) = s := by
  cases e <;> rfl

theorem runCommands_runBitCommand_of_clocked {s : State} {t : TimerId} {T : Timer} (e : Bool)
    (rest : List Instr) (ht : s.timer t = some T) (hclk : T.clkEn = true) :
    ∃ pc, runCommands (runBitCommand t e :: rest) s =
      runCommands rest ((s.setTimer t { T with cen := e }).withPc pc) := by
  rw [runCommands_cons_of_next rest (exec_runBitCommand_of_clocked e ht hclk),
    State.refreshAfter_runBitCommand, State.complete_eq_withPc]
  exact ⟨_, rfl⟩

theorem runCommands_runBitCommand_of_idle {s : State} {t : TimerId} (e : Bool) (rest : List Instr)
    (h : s.timer t = none ∨ ∃ T, s.timer t = some T ∧ T.clkEn = false) :
    ∃ pc, runCommands (runBitCommand t e :: rest) s = runCommands rest (s.withPc pc) := by
  rw [runCommands_cons_of_next rest (exec_runBitCommand_of_idle e h), State.refreshAfter_runBitCommand,
    State.complete_eq_withPc]
  exact ⟨_, rfl⟩

/-- On a clocked timer the last command of a sequence leaves the run bit. -/
theorem runCommands_runBits_of_clocked (l : List Bool) (b : Bool) {t : TimerId} :
    ∀ {s : State} {T : Timer}, s.timer t = some T → T.clkEn = true →
      ∃ pc, runCommands ((l ++ [b]).map (runBitCommand t)) s =
        .next ((s.setTimer t { T with cen := b }).withPc pc) := by
  induction l with
  | nil => exact fun ht hclk => runCommands_runBitCommand_of_clocked b [] ht hclk
  | cons e l ih =>
    intro s T ht hclk
    obtain ⟨pc, hrun⟩ := runCommands_runBitCommand_of_clocked e ((l ++ [b]).map (runBitCommand t)) ht hclk
    obtain ⟨pc', hrest⟩ := ih (s := (s.setTimer t { T with cen := e }).withPc pc)
      (T := { T with cen := e }) (by simp) hclk
    exact ⟨pc', hrun.trans (by simpa using hrest)⟩

/-- On an idle timer no command of a sequence writes anything but the pointer. -/
theorem runCommands_runBits_of_idle (l : List Bool) {t : TimerId} :
    ∀ {s : State}, (s.timer t = none ∨ ∃ T, s.timer t = some T ∧ T.clkEn = false) →
      ∃ pc, runCommands (l.map (runBitCommand t)) s = .next (s.withPc pc) := by
  induction l with
  | nil => exact fun _ => ⟨_, rfl⟩
  | cons e l ih =>
    intro s h
    obtain ⟨pc, hrun⟩ := runCommands_runBitCommand_of_idle e (l.map (runBitCommand t)) h
    obtain ⟨pc', hrest⟩ := ih (s := s.withPc pc) h
    exact ⟨pc', hrun.trans hrest⟩

/-- Settles O12: by induction on the sequence. -/
theorem runBitSequences : Obligations.RunBitSequences := by
  refine fun l b s t => ⟨fun T ht hclk => ?_, fun h => ?_⟩
  · obtain ⟨pc, hrun⟩ := runCommands_runBits_of_clocked l b ht hclk
    exact ⟨_, hrun, rfl⟩
  · obtain ⟨pc, hrun⟩ := runCommands_runBits_of_idle (l ++ [b]) h
    exact ⟨_, hrun, rfl⟩

/-! ### `TUG` (R104) -/

theorem exec_tug_of_clocked {s : State} {t : TimerId} {T : Timer} (ht : s.timer t = some T)
    (hclk : T.clkEn = true) : exec (.tug t) s = .next (s.setTimer t (T.updateEvent .software)).complete := by
  rw [exec, execTug, tugEffect, s.onClocked_clocked _ ht hclk]

theorem exec_tug_of_idle {s : State} {t : TimerId}
    (h : s.timer t = none ∨ ∃ T, s.timer t = some T ∧ T.clkEn = false) :
    exec (.tug t) s = .next s.complete := by
  rw [exec, execTug, tugEffect, s.onClocked_idle _ h]

/-- Settles O13: a software update event on a clocked timer. -/
theorem tugForcesUpdate : Obligations.TugForcesUpdate := fun _ _ =>
  ⟨fun T ht hclk => ⟨T.updateEvent .software, exec_tug_of_clocked ht hclk, rfl, T.chan_updateEvent .software⟩,
    exec_tug_of_idle⟩

/-! ### `TRDC` (R106) -/

theorem exec_trdc_of_unrecognised {s : State} {t : TimerId} (ht : s.timer t = none) :
    exec (.trdc t) s = .next (s.raise .unknownTimer) := by
  simp only [exec, execTrdc, ht]

theorem exec_trdc_of_recognised {s : State} {t : TimerId} {T : Timer} (ht : s.timer t = some T) :
    exec (.trdc t) s = .next (s.result (if T.clkEn then T.cnt.toNat else 0)).complete := by
  simp only [exec, execTrdc, ht]

/-- Settles O14: the timer, then its clock. -/
theorem trdcReturnsCounter : Obligations.TrdcReturnsCounter := by
  refine fun s t => ⟨exec_trdc_of_unrecognised, fun T ht hclk => ?_, fun T ht hclk => ?_⟩ <;>
    rw [exec_trdc_of_recognised ht, hclk] <;> rfl

/-! ### `TDLY` (R108) -/

theorem exec_tdly_of_handler {s : State} (t : TimerId) (hm : s.ctx.mode = .handler) :
    exec (.tdly t) s = .next (s.raise .blockingInHandler) := by
  simp only [exec, execTdly, hm]

theorem exec_tdly_of_unrecognised {s : State} {t : TimerId} (hm : s.ctx.mode = .main)
    (ht : s.timer t = none) : exec (.tdly t) s = .next (s.raise .unknownTimer) := by
  simp only [exec, execTdly, hm, ht]

theorem exec_tdly_of_recognised {s : State} {t : TimerId} {T : Timer} (hm : s.ctx.mode = .main)
    (ht : s.timer t = some T) :
    exec (.tdly t) s =
      if T.clkEn && T.uif then .next (s.setTimer t { T with uif := false }).complete else .next s := by
  simp only [exec, execTdly, hm, ht, State.hold_eq]

/-- Settles O15: the context, the timer, then the flag and the clock. -/
theorem tdlyPollsUpdateFlag : Obligations.TdlyPollsUpdateFlag := by
  refine fun s t => ⟨exec_tdly_of_handler t, exec_tdly_of_unrecognised, fun T hm ht hclk huif => ?completes,
    fun T hm ht h => ?holds⟩ <;> rw [exec_tdly_of_recognised hm ht]
  case completes => rw [hclk, huif]; rfl
  case holds => obtain h | h := h <;> simp [h]

/-! ### `TCFG`, then `TUG` (R114) -/

/-- A word below `2^31` is not negative as an int32. -/
theorem toInt_nonneg_of_lt {v : Word} (h : v.toNat < 2 ^ 31) : 0 ≤ v.toInt := by
  rw [BitVec.toInt_eq_toNat_of_lt (by omega)]
  exact Int.natCast_nonneg _

/-- What an accepted `TCFG`, its refresh and a `TUG` make of a timer. -/
def Timer.configureAndUpdate (T : Timer) (d : Direction) (p q : Word) : Timer :=
  (T.configure d p q).refreshOutputs.updateEvent .software

/-- Whether `arr_sh` is written by the `TCFG` or by the update event, it is the period. -/
theorem Timer.arrSh_configureAndUpdate (T : Timer) (d : Direction) (p q : Word) :
    (T.configureAndUpdate d p q).arrSh = truncTo T.width q := by
  cases harpe : T.arpe <;> simp [Timer.configureAndUpdate, Timer.configure, harpe]

theorem runCommands_tcfg_tug {s : State} {t : TimerId} {T : Timer} {p q : Word} (d : Direction)
    (ht : s.timer t = some T) (hp : 0 ≤ p.toInt) (hq : 0 ≤ q.toInt) :
    ∃ s', runCommands [.tcfg t d p q, .tug t] s = .next s' ∧
      s'.timer t = some (T.configureAndUpdate d p q) := by
  let s1 := (s.setTimer t (T.configure d p q)).complete
  have ht1 : s1.timer t = some (T.configure d p q) := by simp [s1]
  let s2 := s1.setTimer t (T.configure d p q).refreshOutputs
  have hrefresh : s1.refreshAfter (.tcfg t d p q) = s2 := by
    rw [s1.refreshAfter_tcfg_accepted t d hp hq, s1.onClocked_clocked _ ht1 rfl]
  have htug : exec (.tug t) s2 = .next (s2.setTimer t (T.configureAndUpdate d p q)).complete :=
    exec_tug_of_clocked (s1.timer_setTimer_same t _) rfl
  refine ⟨(s2.setTimer t (T.configureAndUpdate d p q)).complete, ?_, by simp⟩
  rw [runCommands_cons_of_next _ (exec_tcfg_of_accepted d ht hp hq), hrefresh, runCommands_cons_of_next _ htug]
  rfl

/-- Settles O20: the operands fit their registers, so the reductions keep them. -/
theorem configureThenResynchronise : Obligations.ConfigureThenResynchronise := by
  intro s t d p q T ht hp hqw hq
  have hperiod : (truncTo T.width q).toNat = q.toNat := by rw [truncTo_toNat, Nat.mod_eq_of_lt hqw]
  have hpsc : (p.setWidth 16).toNat = p.toNat := by rw [BitVec.toNat_setWidth, Nat.mod_eq_of_lt hp]
  have hp' : 0 ≤ p.toInt := toInt_nonneg_of_lt (by omega)
  obtain ⟨s', hrun, ht'⟩ := runCommands_tcfg_tug d ht hp' hq
  refine ⟨s', _, hrun, ht', hpsc, hpsc, hperiod, ?_, rfl, rfl, rfl, rfl⟩
  rw [Timer.arrSh_configureAndUpdate, hperiod]

end Sys2Proof.Machine
end

section
/-! PROOFS. The tick and the input-clock cycle (spec 40_timer_engine.md R110, R111, R112, R116). -/

namespace Sys2Proof.Machine

/-! ### The two kinds of tick (R111) -/

/-- The counter is where the tick wraps it with an update event. -/
def Timer.wraps (T : Timer) : Prop := (T.dir = .up ∧ T.cnt = T.arrSh) ∨ (T.dir = .down ∧ T.cnt = 0)

/-- The counter is where the tick moves it by one. -/
def Timer.moves (T : Timer) : Prop := (T.dir = .up ∧ T.cnt ≠ T.arrSh) ∨ (T.dir = .down ∧ T.cnt ≠ 0)

theorem Timer.count_of_wraps {T : Timer} (h : T.wraps) :
    ∃ c src, T.count = Timer.updateEvent { T with cnt := c } src := by
  obtain ⟨hd, hc⟩ | ⟨hd, hc⟩ := h
  · exact ⟨_, _, T.count_up_wrap hd hc⟩
  · exact ⟨_, _, T.count_down_wrap hd hc⟩

theorem Timer.count_of_moves {T : Timer} (h : T.moves) : ∃ c, T.count = { T with cnt := c } := by
  obtain ⟨hd, hc⟩ | ⟨hd, hc⟩ := h
  · exact ⟨_, T.count_up_next hd hc⟩
  · exact ⟨_, T.count_down_next hd hc⟩

theorem Timer.wraps_or_moves (T : Timer) : T.wraps ∨ T.moves := by
  obtain ⟨hd, hc, -⟩ | ⟨hd, hc, -⟩ | ⟨hd, hc, -⟩ | ⟨hd, hc, -⟩ := T.count_cases
  · exact .inl (.inl ⟨hd, hc⟩)
  · exact .inr (.inl ⟨hd, hc⟩)
  · exact .inl (.inr ⟨hd, hc⟩)
  · exact .inr (.inr ⟨hd, hc⟩)

/-! ### The timer's fields after a tick -/

/-- After the count a tick writes channels alone. -/
theorem Timer.tick_eq_count (T : Timer) : T.tick = { T.count with ch := T.tick.ch } := rfl

theorem Timer.tick_of_wraps {T : Timer} (h : T.wraps) :
    T.tick.uif = true ∧ T.tick.pscSh = T.psc ∧ T.tick.pscCnt = 0 ∧
      T.tick.arrSh = if T.arpe then T.arr else T.arrSh := by
  obtain ⟨c, src, e⟩ := Timer.count_of_wraps h
  rw [T.tick_eq_count, e]
  exact ⟨rfl, rfl, rfl, rfl⟩

theorem Timer.tick_of_moves {T : Timer} (h : T.moves) :
    T.tick.uif = T.uif ∧ T.tick.pscSh = T.pscSh ∧ T.tick.pscCnt = T.pscCnt ∧ T.tick.arrSh = T.arrSh := by
  obtain ⟨c, e⟩ := Timer.count_of_moves h
  rw [T.tick_eq_count, e]
  exact ⟨rfl, rfl, rfl, rfl⟩

/-- What a tick never writes (R111, R112). -/
theorem Timer.tick_frame (T : Timer) :
    T.tick = { T with
      cnt := T.tick.cnt, uif := T.tick.uif, pscSh := T.tick.pscSh, pscCnt := T.tick.pscCnt
      arrSh := T.tick.arrSh, ch := T.tick.ch } := by
  rw [T.tick_eq_count]
  obtain h | h := T.wraps_or_moves
  · obtain ⟨c, src, e⟩ := Timer.count_of_wraps h
    rw [e]
    rfl
  · obtain ⟨c, e⟩ := Timer.count_of_moves h
    rw [e]

@[simp] theorem Timer.width_tick (T : Timer) : T.tick.width = T.width := by rw [T.tick_frame]
@[simp] theorem Timer.dir_tick (T : Timer) : T.tick.dir = T.dir := by rw [T.tick_frame]
@[simp] theorem Timer.cen_tick (T : Timer) : T.tick.cen = T.cen := by rw [T.tick_frame]
@[simp] theorem Timer.arpe_tick (T : Timer) : T.tick.arpe = T.arpe := by rw [T.tick_frame]
@[simp] theorem Timer.psc_tick (T : Timer) : T.tick.psc = T.psc := by rw [T.tick_frame]
@[simp] theorem Timer.arr_tick (T : Timer) : T.tick.arr = T.arr := by rw [T.tick_frame]

/-! ### The counter after a tick -/

theorem Timer.cnt_tick_up_wrap {T : Timer} (hd : T.dir = .up) (h : T.cnt = T.arrSh) : T.tick.cnt = 0 := by
  rw [T.tick_eq_count, T.count_up_wrap hd h]
  rfl

theorem Timer.cnt_tick_down_wrap {T : Timer} (hd : T.dir = .down) (h : T.cnt = 0) :
    T.tick.cnt = T.arrSh := by
  rw [T.tick_eq_count, T.count_down_wrap hd h]
  rfl

theorem two_pow_bits_dvd (w : Width) : 2 ^ w.bits ∣ 2 ^ 32 :=
  Nat.pow_dvd_pow 2 (by cases w <;> decide)

theorem Timer.cnt_tick_up_next {T : Timer} (hd : T.dir = .up) (h : T.cnt ≠ T.arrSh) :
    T.tick.cnt.toNat = (T.cnt.toNat + 1) % 2 ^ T.width.bits := by
  rw [T.tick_eq_count, T.count_up_next hd h]
  calc (truncTo T.width (T.cnt + 1)).toNat
      _ = (T.cnt.toNat + 1) % 2 ^ 32 % 2 ^ T.width.bits := by rw [truncTo_toNat, BitVec.toNat_add]; rfl
      _ = (T.cnt.toNat + 1) % 2 ^ T.width.bits := Nat.mod_mod_of_dvd _ (two_pow_bits_dvd T.width)

theorem Timer.cnt_tick_down_next {T : Timer} (hd : T.dir = .down) (h : T.cnt ≠ 0) :
    T.tick.cnt.toNat + 1 = T.cnt.toNat := by
  rw [T.tick_eq_count, T.count_down_next hd h]
  change (T.cnt - 1).toNat + 1 = T.cnt.toNat
  bv_omega

/-! ### The channels after a tick -/

/-- After the count a tick writes the flag and the output reference of a channel alone (R175, R180). -/
theorem Timer.chan_tick (T : Timer) (i : ChanIdx) :
    T.tick.chan i =
      { T.count.chan i with ccif := (T.tick.chan i).ccif, ocref := (T.tick.chan i).ocref } := by
  simp [Timer.tick, Channel.compareAt_eq]

theorem Timer.ccrSh_tick_of_wraps {T : Timer} (h : T.wraps) (i : ChanIdx) :
    (T.tick.chan i).ccrSh = if (T.chan i).ocpe then (T.chan i).ccr else (T.chan i).ccrSh := by
  obtain ⟨c, src, e⟩ := Timer.count_of_wraps h
  rw [T.chan_tick i, e, Timer.chan_updateEvent]
  rfl

theorem Timer.ccrSh_tick_of_moves {T : Timer} (h : T.moves) (i : ChanIdx) :
    (T.tick.chan i).ccrSh = (T.chan i).ccrSh := by
  obtain ⟨c, e⟩ := Timer.count_of_moves h
  rw [T.chan_tick i, e]
  rfl

/-- What a tick never writes of a channel (R112, R175). -/
theorem Timer.chan_tick_frame (T : Timer) (i : ChanIdx) :
    T.tick.chan i =
      { T.chan i with
        ccif := (T.tick.chan i).ccif, ocref := (T.tick.chan i).ocref, ccrSh := (T.tick.chan i).ccrSh } := by
  rw [T.chan_tick i]
  obtain h | h := T.wraps_or_moves
  · obtain ⟨c, src, e⟩ := Timer.count_of_wraps h
    rw [e, Timer.chan_updateEvent]
    rfl
  · obtain ⟨c, e⟩ := Timer.count_of_moves h
    rw [e]
    rfl

/-- Settles O17: the two kinds of tick, in each direction, and the two frames. -/
theorem tickCountsAndWraps : Obligations.TickCountsAndWraps := by
  refine fun T => ⟨fun hd hc => ?upWrap, fun hd hc => ?downWrap, fun hd hc => ?upNext, fun hd hc => ?downNext,
    Timer.ccrSh_tick_of_wraps, Timer.ccrSh_tick_of_moves, T.tick_frame, T.chan_tick_frame⟩
  case upWrap => exact ⟨Timer.cnt_tick_up_wrap hd hc, Timer.tick_of_wraps (.inl ⟨hd, hc⟩)⟩
  case downWrap => exact ⟨Timer.cnt_tick_down_wrap hd hc, Timer.tick_of_wraps (.inr ⟨hd, hc⟩)⟩
  case upNext => exact ⟨Timer.cnt_tick_up_next hd hc, Timer.tick_of_moves (.inl ⟨hd, hc⟩)⟩
  case downNext => exact ⟨Timer.cnt_tick_down_next hd hc, Timer.tick_of_moves (.inr ⟨hd, hc⟩)⟩

/-! ### The step of `Clk(t)` (R110) -/

theorem State.enabled_clk_iff {s : State} {t : TimerId} {T : Timer} (hf : s.ctx.faults = [])
    (ht : s.timer t = some T) : s.enabled (.clk t) = true ↔ T.clkEn = true := by
  simp [State.enabled, hf, ht]

theorem step_of_clk {s : State} {t : TimerId} (hf : s.ctx.faults = []) (hp : s.pick = .clk t)
    (he : s.enabled (.clk t) = true) : step s = .next (clkStep t s.takePick).latchAll := by
  rw [step_of_noFault s hf, hp, if_pos he]
  rfl

/-- Settles O16: one clock cycle of the timer, then the latches. -/
theorem clkStepMovesOneTimer : Obligations.ClkStepMovesOneTimer := by
  refine fun s t T hf ht => ⟨State.enabled_clk_iff hf ht, fun hp hclk => ?_⟩
  have hstep := step_of_clk hf hp ((State.enabled_clk_iff hf ht).mpr hclk)
  have ht' : s.takePick.timer t = some T := by rw [State.timer_takePick, ht]
  refine ⟨_, T.clkCycle, hstep, ?own, T.clkCycle_stopped, T.clkCycle_between, T.clkCycle_tick,
    fun u hu => ?other, ?frame⟩
  case own => rw [State.timer_latchAll, clkStep, State.timer_onTimer_same, ht']; rfl
  case other => rw [State.timer_latchAll, clkStep, s.takePick.timer_onTimer_other _ hu, State.timer_takePick]
  case frame => rw [clkStep, s.takePick.onTimer_some _ ht']; rfl

/-! ### Counting with a fixed period -/

/-- The timer counts in direction `d` with the active period `A`, and no update event changes the period. -/
structure Timer.Periodic (T : Timer) (d : Direction) (A : Nat) : Prop where
  dir : T.dir = d
  period : T.arrSh.toNat = A
  preload : T.arpe = false ∨ T.arr = T.arrSh

theorem Timer.Periodic.arrSh_tick {T : Timer} {d : Direction} {A : Nat} (h : T.Periodic d A) :
    T.tick.arrSh = T.arrSh := by
  obtain hw | hm := T.wraps_or_moves
  · obtain ⟨-, -, -, hperiod⟩ := Timer.tick_of_wraps hw
    rw [hperiod]
    obtain harpe | harr := h.preload
    · simp [harpe]
    · rw [harr, ite_self]
  · obtain ⟨-, -, -, hperiod⟩ := Timer.tick_of_moves hm
    exact hperiod

theorem Timer.Periodic.tick {T : Timer} {d : Direction} {A : Nat} (h : T.Periodic d A) :
    T.tick.Periodic d A where
  dir := T.dir_tick.trans h.dir
  period := by rw [h.arrSh_tick, h.period]
  preload := by rw [h.arrSh_tick, T.arr_tick, T.arpe_tick]; exact h.preload

theorem Timer.Periodic.ticks {T : Timer} {d : Direction} {A : Nat} (h : T.Periodic d A) (n : Nat) :
    (tickTimes n T).Periodic d A := by
  induction n with
  | zero => exact h
  | succ n ih => exact ih.tick

@[simp] theorem width_tickTimes (n : Nat) (T : Timer) : (tickTimes n T).width = T.width := by
  induction n with
  | zero => rfl
  | succ n ih => rw [tickTimes, Timer.width_tick, ih]

/-- With the greatest period of its width, the counter counts Up modulo `2^W`, the wrap to 0 included. -/
theorem Timer.Periodic.cnt_tick_full {T : Timer} (h : T.Periodic .up (2 ^ T.width.bits - 1)) :
    T.tick.cnt.toNat = (T.cnt.toNat + 1) % 2 ^ T.width.bits := by
  by_cases hc : T.cnt = T.arrSh
  · have hfull : T.cnt.toNat + 1 = 2 ^ T.width.bits := by
      rw [hc, h.period, Nat.sub_add_cancel Nat.one_le_two_pow]
    rw [Timer.cnt_tick_up_wrap h.dir hc, hfull, Nat.mod_self]
    rfl
  · exact Timer.cnt_tick_up_next h.dir hc

theorem Timer.Periodic.cnt_tickTimes_full {T : Timer} (h : T.Periodic .up (2 ^ T.width.bits - 1))
    (hfit : T.cnt.toNat < 2 ^ T.width.bits) (n : Nat) :
    (tickTimes n T).cnt.toNat = (T.cnt.toNat + n) % 2 ^ T.width.bits := by
  induction n with
  | zero => exact (Nat.mod_eq_of_lt hfit).symm
  | succ n ih =>
    have hn := h.ticks n
    rw [← width_tickTimes n T] at hn
    rw [tickTimes, hn.cnt_tick_full, ih, width_tickTimes, Nat.mod_add_mod, Nat.add_assoc]

/-- Settles O21: the counter after `n` ticks is `n` further on, modulo `2^W`. -/
theorem modularDifferenceCountsTicks : Obligations.ModularDifferenceCountsTicks := by
  intro T n hd ha hp hfit
  rw [Timer.Periodic.cnt_tickTimes_full ⟨hd, ha, hp⟩ hfit n]
  cases hw : T.width <;> simp only [hw, Width.bits] at hfit ⊢ <;> omega

end Sys2Proof.Machine
end

section
/-! PROOFS. The update period in input-clock cycles (spec 40_timer_engine.md R113), for both directions at once:
from a wrap on, the timer passes the places (k, j), k ticks and then j cycles on, one after another. -/

namespace Sys2Proof.Machine

/-- The counter `k` ticks after a wrap, with the active period `A`. -/
def counterAfter (d : Direction) (A k : Nat) : Nat :=
  match d with
  | .up => k
  | .down => A - k

/-- The timer runs in direction `d` with the active prescaler `P` and the active period `A`, and no update event
changes them. -/
structure Timer.Runs (T : Timer) (d : Direction) (P A : Nat) : Prop extends T.Periodic d A where
  cen : T.cen = true
  prescaler : T.pscSh.toNat = P
  pscPreload : T.psc = T.pscSh
  fits : d = .up → A < 2 ^ T.width.bits

/-- The running timer stands `k` ticks and `j` cycles after a wrap, with the flag clear. -/
structure Timer.At (T : Timer) (d : Direction) (P A k j : Nat) : Prop extends T.Runs d P A where
  flag : T.uif = false
  counter : T.cnt.toNat = counterAfter d A k
  sub : T.pscCnt.toNat = j

/-- The timer as a cycle that ends the prescaler's count hands it to the tick (R110). -/
def Timer.atTick (T : Timer) : Timer :=
  { T.mapChans (fun C => { C with polrace := false }) with pscCnt := 0 }

section
variable {T : Timer} {d : Direction} {P A k j : Nat}

/-! ### One cycle -/

theorem Timer.Runs.clkCycle_between (h : T.Runs d P A) (hj : T.pscCnt.toNat ≠ P) :
    T.clkCycle = { T.mapChans (fun C => { C with polrace := false }) with pscCnt := T.pscCnt + 1 } :=
  T.clkCycle_between h.cen fun e => hj (by rw [e, h.prescaler])

theorem Timer.Runs.clkCycle_tick (h : T.Runs d P A) (hj : T.pscCnt.toNat = P) :
    T.clkCycle = T.atTick.tick :=
  T.clkCycle_tick h.cen (BitVec.eq_of_toNat_eq (by rw [hj, h.prescaler]))

theorem Timer.Runs.atTick (h : T.Runs d P A) : T.atTick.Runs d P A :=
  ⟨⟨h.dir, h.period, h.preload⟩, h.cen, h.prescaler, h.pscPreload, h.fits⟩

theorem Timer.Runs.tick (h : T.Runs d P A) : T.tick.Runs d P A := by
  have hpsc : T.tick.pscSh = T.pscSh := by
    obtain hw | hm := T.wraps_or_moves
    · obtain ⟨-, hpsc, -⟩ := Timer.tick_of_wraps hw
      rw [hpsc, h.pscPreload]
    · obtain ⟨-, hpsc, -⟩ := Timer.tick_of_moves hm
      exact hpsc
  exact ⟨h.toPeriodic.tick, T.cen_tick.trans h.cen, by rw [hpsc, h.prescaler],
    by rw [hpsc, T.psc_tick, h.pscPreload], by rw [T.width_tick]; exact h.fits⟩

/-- A cycle before the prescaler's last counts the sub-counter. -/
theorem Timer.At.clkCycle_sub (h : T.At d P A k j) (hj : j < P) : T.clkCycle.At d P A k (j + 1) := by
  have hsub : (T.pscCnt + 1).toNat = j + 1 := by
    have hP : P < 2 ^ 16 := h.prescaler ▸ T.pscSh.isLt
    rw [← h.sub] at hj ⊢
    bv_omega
  rw [h.clkCycle_between (by rw [h.sub]; exact hj.ne)]
  exact ⟨⟨⟨h.dir, h.period, h.preload⟩, h.cen, h.prescaler, h.pscPreload, h.fits⟩, h.flag, h.counter, hsub⟩

/-- Before the last of the period's values the counter moves. -/
theorem Timer.At.moves (h : T.At d P A k j) (hk : k < A) : T.moves := by
  have hc := h.counter
  cases d with
  | up =>
    refine .inl ⟨h.dir, fun e => ?_⟩
    rw [e, h.period] at hc
    exact hk.ne' hc
  | down =>
    refine .inr ⟨h.dir, fun e => ?_⟩
    rw [e] at hc
    exact (Nat.sub_pos_of_lt hk).ne hc

/-- At the last of the period's values the counter wraps. -/
theorem Timer.At.wraps (h : T.At d P A A j) : T.wraps := by
  have hc := h.counter
  cases d with
  | up => exact .inl ⟨h.dir, BitVec.eq_of_toNat_eq (by rw [hc, h.period]; rfl)⟩
  | down => exact .inr ⟨h.dir, BitVec.eq_of_toNat_eq (by rw [hc]; exact Nat.sub_self A)⟩

theorem Timer.At.cnt_tick (h : T.At d P A k j) (hk : k < A) :
    T.tick.cnt.toNat = counterAfter d A (k + 1) := by
  have hc := h.counter
  obtain ⟨hd, hne⟩ | ⟨hd, hne⟩ := h.moves hk <;> cases h.dir.symm.trans hd
  · rw [Timer.cnt_tick_up_next hd hne, hc]
    exact Nat.mod_eq_of_lt (lt_of_le_of_lt hk (h.fits rfl))
  · have hnext := Timer.cnt_tick_down_next hd hne
    simp only [counterAfter] at hc ⊢
    omega

theorem Timer.At.atTick (h : T.At d P A k j) : T.atTick.At d P A k 0 :=
  ⟨h.toRuns.atTick, h.flag, h.counter, rfl⟩

/-- The prescaler's last cycle at a value makes the next tick. -/
theorem Timer.At.clkCycle_next (h : T.At d P A k P) (hk : k < A) : T.clkCycle.At d P A (k + 1) 0 := by
  obtain ⟨huif, -, hsub, -⟩ := Timer.tick_of_moves (h.atTick.moves hk)
  rw [h.clkCycle_tick h.sub]
  exact ⟨h.toRuns.atTick.tick, huif.trans h.flag, h.atTick.cnt_tick hk, congrArg BitVec.toNat hsub⟩

/-- The prescaler's last cycle at the last value wraps the counter with an update event. -/
theorem Timer.At.clkCycle_wrap (h : T.At d P A A P) :
    T.clkCycle.uif = true ∧ T.clkCycle.cnt.toNat = counterAfter d A 0 ∧ T.clkCycle.pscCnt = 0 := by
  obtain ⟨huif, -, hsub, -⟩ := Timer.tick_of_wraps h.atTick.wraps
  rw [h.clkCycle_tick h.sub]
  refine ⟨huif, ?_, hsub⟩
  obtain ⟨hd, hc⟩ | ⟨hd, hc⟩ := h.atTick.wraps <;> cases h.dir.symm.trans hd
  · rw [Timer.cnt_tick_up_wrap hd hc]
    rfl
  · rw [Timer.cnt_tick_down_wrap hd hc]
    exact h.period

/-! ### The cycles of a period -/

/-- The cycles of one tick. -/
theorem Timer.At.clkTimes_sub {n : Nat} (h : (clkTimes n T).At d P A k 0) :
    ∀ j ≤ P, (clkTimes (n + j) T).At d P A k j
  | 0, _ => h
  | j + 1, hj => (Timer.At.clkTimes_sub h j (by omega)).clkCycle_sub hj

/-- The ticks of one period. -/
theorem Timer.At.clkTimes_tick (h : T.At d P A 0 0) : ∀ k ≤ A, (clkTimes ((P + 1) * k) T).At d P A k 0
  | 0, _ => h
  | k + 1, hk => ((h.clkTimes_tick k (by omega)).clkTimes_sub P le_rfl).clkCycle_next hk

/-- Every cycle of one period. -/
theorem Timer.At.cycles (h : T.At d P A 0 0) {n : Nat} (hn : n < (P + 1) * (A + 1)) :
    (clkTimes n T).At d P A (n / (P + 1)) (n % (P + 1)) := by
  have hk : n / (P + 1) ≤ A := Nat.le_of_lt_succ (Nat.div_lt_of_lt_mul hn)
  have hj : n % (P + 1) ≤ P := Nat.le_of_lt_succ (Nat.mod_lt n P.succ_pos)
  simpa only [Nat.div_add_mod] using (h.clkTimes_tick _ hk).clkTimes_sub _ hj

/-- R113: the first wrap after a wrap comes with the last of `(P+1)*(A+1)` cycles. -/
theorem Timer.At.clkTimes_period (h : T.At d P A 0 0) :
    (clkTimes ((P + 1) * (A + 1)) T).uif = true ∧
      (clkTimes ((P + 1) * (A + 1)) T).cnt.toNat = counterAfter d A 0 ∧
      (clkTimes ((P + 1) * (A + 1)) T).pscCnt = 0 :=
  ((h.clkTimes_tick A le_rfl).clkTimes_sub P le_rfl).clkCycle_wrap

end

/-- Settles O18: the places of one period counting Up. -/
theorem updatePeriodCountingUp : Obligations.UpdatePeriodCountingUp := by
  intro T P A hcen hd hP hpsc hA hfit hpre hcnt hsub huif
  have h : T.At .up P A 0 0 :=
    ⟨⟨⟨hd, hA, hpre⟩, hcen, hP, hpsc, fun _ => hfit⟩, huif, congrArg BitVec.toNat hcnt,
      congrArg BitVec.toNat hsub⟩
  obtain ⟨flag, counter, sub⟩ := h.clkTimes_period
  exact ⟨fun n hn => ⟨(h.cycles hn).flag, (h.cycles hn).counter, (h.cycles hn).sub⟩,
    flag, BitVec.eq_of_toNat_eq counter, sub⟩

/-- Settles O19: the places of one period counting Down. -/
theorem updatePeriodCountingDown : Obligations.UpdatePeriodCountingDown := by
  intro T P A hcen hd hP hpsc hA hpre hcnt hsub huif
  have h : T.At .down P A 0 0 :=
    ⟨⟨⟨hd, hA, hpre⟩, hcen, hP, hpsc, nofun⟩, huif, by rw [hcnt, hA]; rfl, congrArg BitVec.toNat hsub⟩
  obtain ⟨flag, counter, sub⟩ := h.clkTimes_period
  exact ⟨fun n hn => ⟨(h.cycles hn).flag, (h.cycles hn).counter, (h.cycles hn).sub⟩,
    flag, BitVec.eq_of_toNat_eq (by rw [counter, hA]; rfl), sub⟩

end Sys2Proof.Machine
end

section
/-! PROOFS. The commands of one channel, by their checks (spec 41_capture_compare.md R140 to R156), and the read
back of an output mode (R143). -/

namespace Sys2Proof.Machine

/-! ### Codes and fields -/

theorem Channel.outputMode_iff (C : Channel) : C.outputMode = true ↔ C.ccs = 0b00 := beq_iff_eq

theorem Channel.inputMode_iff (C : Channel) : C.inputMode = true ↔ C.ccs = 0b01 := beq_iff_eq

/-- The sub-mode of an output mode is its code (R86). -/
theorem ocmOf_eq_modeCode {m : OutputMode} (h : m ≠ .none) :
    ocmOf m = some (BitVec.ofNat 3 (modeCode m).toNat) := by
  cases m with
  | none => exact absurd rfl h
  | frozen | active | inactive | toggle | forceInactive | forceActive | pwm1 | pwm2 => rfl

/-- The code of an output mode names that mode and no other (R86). -/
theorem modeOf_modeCode (m : OutputMode) : modeOf (modeCode m) = some m := by
  cases m <;> rfl

/-- The sub-mode of a PWM output (R146). -/
theorem ocmOf_pwmModeOf (m : OutputMode) :
    ocmOf (pwmModeOf m) = some (if m = .pwm2 then 0b111 else 0b110) := by
  cases m <;> rfl

/-- The polarity bits are the two bits of the code (R87). -/
theorem Channel.setPolarity_eq (C : Channel) (k : Polarity) :
    C.setPolarity k =
      { C with ccnp := (polCode k).getLsbD 1, ccp := (polCode k).getLsbD 0, polrace := true } := by
  cases k <;> rfl

/-- The event of a pin binding, with the port and the pin as the two low bytes of the operand (R82). -/
theorem State.bindPins_eq (s : State) (t : TimerId) (n : ChanId) (b : Word) :
    s.bindPins t n b = s.emit (.pinBind t n (BitVec.ofNat 8 (b.toNat / 256)) (BitVec.ofNat 8 b.toNat)) := by
  have hport : bindPort b = BitVec.ofNat 8 (b.toNat / 256) := by
    rw [bindPort, BitVec.extractLsb', Nat.shiftRight_eq_div_pow]
  rw [State.bindPins, hport]
  rfl

@[simp] theorem State.timer_bindPins (s : State) (t u : TimerId) (n : ChanId) (b : Word) :
    (s.bindPins t n b).timer u = s.timer u := rfl

section
variable {s : State} {t : TimerId} {n : ChanId} {T : Timer} {i : ChanIdx}

/-! ### Valid identities -/

theorem State.validChan_of_recognised (ht : s.timer t = some T) (hi : i.val + 1 = n.toNat) :
    s.validChan t n = true := by
  simp [State.validChan, ht, chanOf_eq_some.mpr hi]

theorem State.validChan_of_invalid (h : s.timer t = none ∨ n.toNat = 0 ∨ 4 < n.toNat) :
    s.validChan t n = false := by
  obtain ht | hn := h
  · simp [State.validChan, ht]
  · simp [State.validChan, chanOf_eq_none.mpr hn]

/-- No write to an invalid identity (R240). -/
theorem State.onChan_invalid (f : Timer → ChanIdx → Timer)
    (h : s.timer t = none ∨ n.toNat = 0 ∨ 4 < n.toNat) : s.onChan t n f = s := by
  refine s.onChan_noEffect f ?_
  obtain ht | hlow | hhigh := h
  · exact .inl ht
  · exact .inr (.inl hlow)
  · exact .inr (.inr (.inl hhigh))

/-- No write to a channel while the clock is off (R67). -/
theorem State.onChan_unclocked (n : ChanId) (f : Timer → ChanIdx → Timer) (ht : s.timer t = some T)
    (hclk : T.clkEn = false) : s.onChan t n f = s :=
  s.onChan_noEffect f (.inr (.inr (.inr ⟨T, ht, hclk⟩)))

/-! ### `CCAP` (R140) -/

theorem exec_ccap_of_invalid (b : Word) (h : s.timer t = none ∨ n.toNat = 0 ∨ 4 < n.toNat) :
    exec (.ccap t n b) s = .next s.complete := by
  simp [exec, execCcap, ccapEffect, State.validChan_of_invalid h]

theorem exec_ccap_of_unclocked (b : Word) (ht : s.timer t = some T) (hi : i.val + 1 = n.toNat)
    (hclk : T.clkEn = false) : exec (.ccap t n b) s = .next (s.bindPins t n b).complete := by
  rw [exec, execCcap, ccapEffect, if_pos (State.validChan_of_recognised ht hi),
    State.onChan_unclocked n _ ((s.timer_bindPins t t n b).trans ht) hclk]

theorem exec_ccap_of_clocked (b : Word) (ht : s.timer t = some T) (hi : i.val + 1 = n.toNat)
    (hclk : T.clkEn = true) :
    exec (.ccap t n b) s =
      .next ((s.bindPins t n b).setTimer t (T.modChan i Channel.toCapture)).complete := by
  rw [exec, execCcap, ccapEffect, if_pos (State.validChan_of_recognised ht hi),
    State.onChan_clocked _ _ ((s.timer_bindPins t t n b).trans ht) hi hclk]

/-! ### `CCMP` (R142) and its effect, which `CPWM` begins with -/

theorem ccmpEffect_of_none (b : Word) : ccmpEffect t n .none b s = s := rfl

theorem ccmpEffect_of_invalid (m : OutputMode) (b : Word)
    (h : s.timer t = none ∨ n.toNat = 0 ∨ 4 < n.toNat) : ccmpEffect t n m b s = s := by
  unfold ccmpEffect
  split
  · rfl
  · rw [State.validChan_of_invalid h, if_neg Bool.false_ne_true]

theorem ccmpEffect_of_unclocked {m : OutputMode} {k : BitVec 3} (b : Word) (hm : ocmOf m = some k)
    (ht : s.timer t = some T) (hi : i.val + 1 = n.toNat) (hclk : T.clkEn = false) :
    ccmpEffect t n m b s = s.bindPins t n b := by
  simp only [ccmpEffect, hm]
  rw [if_pos (State.validChan_of_recognised ht hi),
    State.onChan_unclocked n _ ((s.timer_bindPins t t n b).trans ht) hclk]

theorem ccmpEffect_of_clocked {m : OutputMode} {k : BitVec 3} (b : Word) (hm : ocmOf m = some k)
    (ht : s.timer t = some T) (hi : i.val + 1 = n.toNat) (hclk : T.clkEn = true) :
    ccmpEffect t n m b s =
      (s.bindPins t n b).setTimer t (T.modChan i (·.toCompare k)).refreshOutputs := by
  simp only [ccmpEffect, hm]
  rw [if_pos (State.validChan_of_recognised ht hi),
    State.onChan_clocked _ _ ((s.timer_bindPins t t n b).trans ht) hi hclk]

/-! ### `CPWM` (R146) -/

/-- What `CPWM` makes of a channel, before the outputs are refreshed. -/
def Channel.toPwm (C : Channel) (ocm : BitVec 3) (k : Polarity) (duty : Word) : Channel :=
  { (C.toCompare ocm).setPolarity k with ocpe := true, ccr := duty }

/-- The two refreshes of `CPWM` are one: what the command writes between them is in no output reference. -/
theorem Timer.toPwm_toCompare (T : Timer) (i : ChanIdx) (ocm : BitVec 3) (k : Polarity) (d : Word) :
    (T.modChan i (·.toCompare ocm)).refreshOutputs.toPwm i k d =
      Timer.refreshOutputs { T.modChan i (·.toPwm ocm k (truncTo T.width d)) with arpe := true } := by
  refine Timer.ext_chan _ _ rfl fun j => ?_
  by_cases hj : j = i
  · subst hj
    have href := ((T.chan j).toCompare ocm).refreshedRef_idem T.dir T.cnt
    simp only [Timer.toPwm, Timer.chan_refreshOutputs, Timer.chan_update, Timer.chan_modChan_same]
    exact congrArg (fun r => ({ (T.chan j).toPwm ocm k (truncTo T.width d) with ocref := r } : Channel)) href
  · simp [Timer.toPwm, Timer.chan_modChan_other _ _ hj]

theorem cpwmEffect_of_invalid (m : OutputMode) (k : Polarity) (d b : Word)
    (h : s.timer t = none ∨ n.toNat = 0 ∨ 4 < n.toNat) : cpwmEffect t n m k d b s = s := by
  rw [cpwmEffect, ccmpEffect_of_invalid _ b h, State.onChan_invalid _ h]

theorem cpwmEffect_of_unclocked (m : OutputMode) (k : Polarity) (d b : Word) (ht : s.timer t = some T)
    (hi : i.val + 1 = n.toNat) (hclk : T.clkEn = false) :
    cpwmEffect t n m k d b s = s.bindPins t n b := by
  rw [cpwmEffect, ccmpEffect_of_unclocked b (ocmOf_pwmModeOf m) ht hi hclk,
    State.onChan_unclocked n _ ((s.timer_bindPins t t n b).trans ht) hclk]

theorem cpwmEffect_of_clocked (m : OutputMode) (k : Polarity) (d b : Word) (ht : s.timer t = some T)
    (hi : i.val + 1 = n.toNat) (hclk : T.clkEn = true) :
    cpwmEffect t n m k d b s =
      (s.bindPins t n b).setTimer t (Timer.refreshOutputs
        { T.modChan i (·.toPwm (if m = .pwm2 then 0b111 else 0b110) k (truncTo T.width d)) with
          arpe := true }) := by
  rw [cpwmEffect, ccmpEffect_of_clocked b (ocmOf_pwmModeOf m) ht hi hclk,
    State.onChan_clocked (T := (T.modChan i (·.toCompare _)).refreshOutputs) _ _
      (State.timer_setTimer_same _ t _) hi hclk,
    State.setTimer_setTimer, Timer.toPwm_toCompare]

/-! ### `CDUTY` (R148) -/

theorem Timer.setDuty_of_notOutput (d : Word) (h : (T.chan i).ccs ≠ 0b00) : T.setDuty i d = T :=
  if_neg fun hout => h ((T.chan i).outputMode_iff.mp hout)

theorem Timer.setDuty_of_preload (d : Word) (h : (T.chan i).ccs = 0b00) (hpre : (T.chan i).ocpe = true) :
    T.setDuty i d = T.modChan i fun C => { C with ccr := truncTo T.width d } := by
  rw [Timer.setDuty, if_pos ((T.chan i).outputMode_iff.mpr h), if_pos hpre]

theorem Timer.setDuty_of_noPreload (d : Word) (h : (T.chan i).ccs = 0b00) (hpre : (T.chan i).ocpe = false) :
    T.setDuty i d =
      (T.modChan i fun C =>
        { C with ccr := truncTo T.width d, ccrSh := truncTo T.width d }).refreshOutputs := by
  rw [Timer.setDuty, if_pos ((T.chan i).outputMode_iff.mpr h), if_neg (by simp [hpre])]

theorem exec_cduty_of_clocked (d : Word) (ht : s.timer t = some T) (hi : i.val + 1 = n.toNat)
    (hclk : T.clkEn = true) : exec (.cduty t n d) s = .next (s.setTimer t (T.setDuty i d)).complete := by
  rw [exec, execCduty, cdutyEffect, State.onChan_clocked _ _ ht hi hclk]

theorem exec_cduty_of_notOutput (d : Word) (ht : s.timer t = some T) (hi : i.val + 1 = n.toNat)
    (h : (T.chan i).ccs ≠ 0b00) : exec (.cduty t n d) s = .next s.complete := by
  cases hclk : T.clkEn with
  | false => rw [exec, execCduty, cdutyEffect, State.onChan_unclocked n _ ht hclk]
  | true => rw [exec_cduty_of_clocked d ht hi hclk, Timer.setDuty_of_notOutput d h, s.setTimer_self ht]

/-! ### `CWAIT` (R150) -/

theorem exec_cwait_of_handler (hm : s.ctx.mode = .handler) :
    exec (.cwait t n) s = .next (s.raise .blockingInHandler) := by
  simp only [exec, execCwait, hm]

theorem exec_cwait_of_unrecognised (hm : s.ctx.mode = .main) (ht : s.timer t = none) :
    exec (.cwait t n) s = .next (s.raise .unknownTimer) := by
  simp only [exec, execCwait, hm, ht]

theorem exec_cwait_of_invalidChannel (hm : s.ctx.mode = .main) (ht : s.timer t = some T)
    (hn : n.toNat = 0 ∨ 4 < n.toNat) : exec (.cwait t n) s = .next (s.raise .invalidChannel) := by
  simp only [exec, execCwait, hm, ht, chanOf_eq_none.mpr hn]

theorem exec_cwait_of_valid (hm : s.ctx.mode = .main) (ht : s.timer t = some T) (hi : i.val + 1 = n.toNat) :
    exec (.cwait t n) s = if T.clkEn && (T.chan i).ccif then .next s.complete else .next s := by
  simp only [exec, execCwait, hm, ht, chanOf_eq_some.mpr hi, State.hold_eq]

/-! ### `CRD` (R151) -/

theorem crdEffect_of_invalid (h : s.timer t = none ∨ n.toNat = 0 ∨ 4 < n.toNat) :
    crdEffect t n s = (sentinel, s) := by
  obtain ht | hn := h
  · simp only [crdEffect, ht]
  · simp only [crdEffect, chanOf_eq_none.mpr hn]
    cases s.timer t <;> rfl

theorem crdEffect_of_unclocked (ht : s.timer t = some T) (hi : i.val + 1 = n.toNat) (hclk : T.clkEn = false) :
    crdEffect t n s = (0, s) := by
  simp [crdEffect, ht, chanOf_eq_some.mpr hi, hclk]

theorem crdEffect_of_clocked (ht : s.timer t = some T) (hi : i.val + 1 = n.toNat) (hclk : T.clkEn = true) :
    crdEffect t n s = ((T.chan i).ccr, s.setTimer t (T.afterRead (.ccr i))) := by
  simp [crdEffect, ht, chanOf_eq_some.mpr hi, hclk]

/-! ### `CIEN` (R154) -/

theorem exec_cien_of_invalid (h : s.timer t = none ∨ n.toNat = 0 ∨ 4 < n.toNat) :
    exec (.cien t n) s = .next s.complete := by
  rw [exec, execCien, cienEffect]
  split
  · rfl
  · rename_i j hj
    rw [s.onTimer_none _ (h.resolve_right fun hn => by simp [chanOf_eq_none.mpr hn] at hj)]

theorem Timer.enableIrq_of_unclocked (i : ChanIdx) (hclk : T.clkEn = false) :
    T.enableIrq i = { T with irqEn := true } := by
  simp [Timer.enableIrq, hclk]

theorem Timer.enableIrq_of_clocked (i : ChanIdx) (hclk : T.clkEn = true) :
    T.enableIrq i = { T.modChan i (fun C => { C with ccie := true }) with irqEn := true } := by
  simp [Timer.enableIrq, hclk]

theorem exec_cien_of_recognised (ht : s.timer t = some T) (hi : i.val + 1 = n.toNat) :
    exec (.cien t n) s = .next (s.setTimer t (T.enableIrq i)).complete := by
  simp only [exec, execCien, cienEffect, chanOf_eq_some.mpr hi, s.onTimer_some _ ht]

end

/-! ### The statements -/

/-- Settles O22: the identity, then the clock. -/
theorem ccapConfiguresInput : Obligations.CcapConfiguresInput := by
  refine fun s t n b => ⟨exec_ccap_of_invalid b, fun T i ht hi => ⟨fun hclk => ?_, fun hclk => ?_⟩⟩
  · rw [exec_ccap_of_unclocked b ht hi hclk, State.bindPins_eq]
  · rw [exec_ccap_of_clocked b ht hi hclk, State.bindPins_eq]
    rfl

/-- Settles O23: the identity and the mode, then the clock. -/
theorem ccmpSelectsSubMode : Obligations.CcmpSelectsSubMode := by
  refine fun s t n m b => ⟨fun h => ?idle, fun T i ht hi hm => ⟨fun hclk => ?unclocked, fun hclk => ?clocked⟩⟩ <;>
    rw [exec, execCcmp]
  case idle =>
    obtain h | h | h | rfl := h
    · rw [ccmpEffect_of_invalid m b (.inl h)]
    · rw [ccmpEffect_of_invalid m b (.inr (.inl h))]
    · rw [ccmpEffect_of_invalid m b (.inr (.inr h))]
    · rw [ccmpEffect_of_none b]
  case unclocked => rw [ccmpEffect_of_unclocked b (ocmOf_eq_modeCode hm) ht hi hclk, State.bindPins_eq]
  case clocked =>
    rw [ccmpEffect_of_clocked b (ocmOf_eq_modeCode hm) ht hi hclk, State.bindPins_eq]
    rfl

/-- Settles O26: `CPWM` is the effect of `CCMP`, then its own write on what that left. -/
theorem cpwmPreloadsDuty : Obligations.CpwmPreloadsDuty := by
  refine fun s t n m k d b => ⟨fun h => ?_, fun T i ht hi => ⟨fun hclk => ?_, fun hclk => ?_⟩⟩ <;>
    rw [exec, execCpwm]
  · rw [cpwmEffect_of_invalid m k d b h]
  · rw [cpwmEffect_of_unclocked m k d b ht hi hclk, State.bindPins_eq]
  · rw [cpwmEffect_of_clocked m k d b ht hi hclk, State.bindPins_eq, truncTo_eq_ofNat]
    simp only [Channel.toPwm, Channel.setPolarity_eq]
    rfl

/-- Settles O25: the identity and the clock, then the channel's role. -/
theorem cpolWritesPolarity : Obligations.CpolWritesPolarity := by
  refine fun s t n k => ⟨fun h => ?_, fun T i ht hi hclk => ?_⟩ <;> rw [exec, execCpol, cpolEffect]
  · rw [s.onChan_noEffect _ h]
  · rw [State.onChan_clocked _ _ ht hi hclk]
    simp only [Timer.setPolarity, Channel.setPolarity_eq, Channel.outputMode_iff]

/-- Settles O27: the checks, then the channel's preload enable. -/
theorem cdutyStoresUnclamped : Obligations.CdutyStoresUnclamped := by
  refine fun s t n d => ⟨fun h => ?idle, fun T i ht hi hclk hout => ⟨fun hpre => ?on, fun hpre => ?off⟩⟩
  case idle =>
    obtain h | h | h | ⟨T, ht, hclk | ⟨i, hi, hout⟩⟩ := h
    · rw [exec, execCduty, cdutyEffect, State.onChan_invalid _ (.inl h)]
    · rw [exec, execCduty, cdutyEffect, State.onChan_invalid _ (.inr (.inl h))]
    · rw [exec, execCduty, cdutyEffect, State.onChan_invalid _ (.inr (.inr h))]
    · rw [exec, execCduty, cdutyEffect, State.onChan_unclocked n _ ht hclk]
    · exact exec_cduty_of_notOutput d ht hi hout
  case on => rw [exec_cduty_of_clocked d ht hi hclk, Timer.setDuty_of_preload d hout hpre, truncTo_eq_ofNat]
  case off => rw [exec_cduty_of_clocked d ht hi hclk, Timer.setDuty_of_noPreload d hout hpre, truncTo_eq_ofNat]

/-- Settles O28: the context, the timer, the channel, then the flag and the clock. -/
theorem cwaitPollsChannelFlag : Obligations.CwaitPollsChannelFlag := by
  refine fun s t n => ⟨exec_cwait_of_handler, exec_cwait_of_unrecognised, fun hm ht hn => ?invalid,
    fun T i hm ht hi => ⟨fun hclk hflag => ?completes, fun h => ?holds⟩⟩
  case invalid =>
    obtain ⟨T, ht⟩ := Option.ne_none_iff_exists'.mp ht
    exact exec_cwait_of_invalidChannel hm ht hn
  case completes => rw [exec_cwait_of_valid hm ht hi, hclk, hflag]; rfl
  case holds =>
    rw [exec_cwait_of_valid hm ht hi]
    obtain h | h := h <;> simp [h]

/-- Settles O29: the identity, the clock, then the side effect of the read by the channel's role. -/
theorem crdReturnsCapture : Obligations.CrdReturnsCapture := by
  refine fun s t n => ⟨fun h => ?invalid, fun T i ht hi =>
    ⟨fun hclk => ?unclocked, fun hclk hin => ?input, fun hclk hin => ?other⟩⟩ <;> rw [exec, execCrd]
  case invalid =>
    have hsentinel : sentinel.toInt = -1 := by decide
    rw [crdEffect_of_invalid h, hsentinel]
  case unclocked => rw [crdEffect_of_unclocked ht hi hclk]; rfl
  case input => rw [crdEffect_of_clocked ht hi hclk, T.afterRead_ccr_of_input hin]
  case other =>
    have hread : T.afterRead (.ccr i) = T :=
      T.afterRead_eq_self fun j hj => by cases hj; exact hin
    rw [crdEffect_of_clocked ht hi hclk, hread, s.setTimer_self ht]

/-- Settles O33: the identity, then the clock for the channel's own enable. -/
theorem cienEnablesInterrupt : Obligations.CienEnablesInterrupt := by
  refine fun s t n => ⟨exec_cien_of_invalid, fun T i ht hi => ⟨fun hclk => ?_, fun hclk => ?_⟩⟩
  · rw [exec_cien_of_recognised ht hi, Timer.enableIrq_of_unclocked i hclk]
  · rw [exec_cien_of_recognised ht hi, Timer.enableIrq_of_clocked i hclk]

/-- Settles O34: both commands are one write to the channel, under the same checks. -/
theorem cidisAndCclrClearOneBit : Obligations.CidisAndCclrClearOneBit := by
  refine fun s t n => ⟨fun h => ⟨?_, ?_⟩, fun T i ht hi hclk => ⟨?_, ?_⟩⟩
  · rw [exec, execCidis, cidisEffect, s.onChan_noEffect _ h]
  · rw [exec, execCclr, cclrEffect, s.onChan_noEffect _ h]
  · rw [exec, execCidis, cidisEffect, State.onChan_clocked _ _ ht hi hclk]
  · rw [exec, execCclr, cclrEffect, State.onChan_clocked _ _ ht hi hclk]

/-! ### The mode read back (R143) -/

/-- The sub-mode of a channel as it stands in its register (R35). -/
theorem Timer.ccmrWord_ocm (T : Timer) (i : ChanIdx) :
    (T.word (ccmrOf i)).toNat / 2 ^ (8 * (i.val % 2) + 4) % 8 = (T.chan i).ocm.toNat := by
  obtain ⟨byte, -⟩ := T.ccmrWord_parts i
  obtain ⟨-, -, -, ocm, -⟩ := (T.chan i).ccmrByte_fields
  have field := (extractLsb'_of_extractLsb' byte (j := 4) (n := 3) (by decide)).trans ocm
  rw [← field, BitVec.extractLsb'_toNat, Nat.shiftRight_eq_div_pow]

/-- `CCMP`, then the read of the channel's register, on a clocked timer. -/
theorem runCommands_ccmp_rreg {s : State} {t : TimerId} {n : ChanId} {m : OutputMode} {b off : Word}
    {T : Timer} {i : ChanIdx} {k : BitVec 3} (ht : s.timer t = some T) (hclk : T.clkEn = true)
    (hi : i.val + 1 = n.toNat) (hm : ocmOf m = some k) (hoff : regOf off = some (ccmrOf i)) :
    ∃ s', runCommands [.ccmp t n m b, .rreg t off] s = .next s' ∧
      s'.ctx.results = s.ctx.results ++
        [(((T.modChan i (·.toCompare k)).refreshOutputs.word (ccmrOf i)).toNat : Int)] := by
  let N := (T.modChan i (·.toCompare k)).refreshOutputs
  let s1 := ((s.bindPins t n b).setTimer t N).complete
  have hccmp : exec (.ccmp t n m b) s = .next s1 := by
    rw [exec, execCcmp, ccmpEffect_of_clocked b hm ht hi hclk]
  have hrreg := exec_rreg_of_clocked (s := s1) (t := t) (T := N) (by simp [s1]) hoff hclk
  refine ⟨_, (runCommands_cons_of_next _ hccmp).trans (runCommands_cons_of_next [] hrreg), ?_⟩
  simp [s1, N, State.bindPins]

/-- Settles O24: the sub-mode that `CCMP` writes is a field of the register that `RREG` reads. -/
theorem outputModeRoundTrip : Obligations.OutputModeRoundTrip := by
  refine ⟨fun s t n m b T ht hclk h1 h4 hm => ?_, fun m m' _ _ h => ?_⟩
  · obtain ⟨i, hi⟩ : ∃ i : ChanIdx, i.val + 1 = n.toNat := ⟨⟨n.toNat - 1, by omega⟩, by simp only; omega⟩
    have hoff : regOf (if n.toNat ≤ 2 then 0x18 else 0x1C) = some (ccmrOf i) := by
      rw [← regOf_ccmr i, ← hi]
      rfl
    have hbits : (if n.toNat % 2 = 1 then 4 else 12) = 8 * (i.val % 2) + 4 := by
      rw [← hi]
      split <;> omega
    obtain ⟨s', hrun, hres⟩ := runCommands_ccmp_rreg (b := b) ht hclk hi (ocmOf_eq_modeCode hm) hoff
    refine ⟨s', _, hrun, hres, ?_⟩
    rw [hbits, Timer.ccmrWord_ocm, Timer.chan_refreshOutputs, Timer.chan_modChan_same]
    cases m with
    | none => exact absurd rfl hm
    | frozen | active | inactive | toggle | forceInactive | forceActive | pwm1 | pwm2 => rfl
  · exact Option.some.inj (by rw [← modeOf_modeCode m, h, modeOf_modeCode])

end Sys2Proof.Machine
end

section
/-! PROOFS. The environment's steps on an input pin: the edges that capture, the free draw inside the race window
and the ghost capture (spec 41_capture_compare.md R170, R172). -/

namespace Sys2Proof.Machine

/-! ### Writes to one channel -/

/-- Of two writes to one channel the second sees what the first left. -/
theorem Timer.modChan_modChan (T : Timer) (i : ChanIdx) (f g : Channel → Channel) :
    (T.modChan i f).modChan i g = T.modChan i fun C => g (f C) := by
  have hch : (T.modChan i f).chan i = f (T.chan i) := T.chan_modChan_same i f
  unfold Timer.modChan at hch ⊢
  simp [hch]

/-- A channel with the level `v` at its pin. -/
def Timer.setTin (T : Timer) (i : ChanIdx) (v : Bool) : Timer := T.modChan i fun C => { C with tin := v }

/-- The level at the pin and the capture of it, as one write (R170). -/
theorem Timer.capture_setTin (T : Timer) (i : ChanIdx) (v : Bool) :
    (T.setTin i v).capture i = T.modChan i fun C => { C with tin := v, ccr := T.cnt, ccif := true } :=
  T.modChan_modChan i _ _

theorem Timer.canCapture_iff (T : Timer) (i : ChanIdx) :
    T.canCapture i = true ↔ (T.chan i).ccs = 0b01 ∧ (T.chan i).cce = true ∧ T.clkEn = true := by
  simp [Timer.canCapture, Channel.inputMode_iff, and_assoc]

section
variable {s : State} {t : TimerId} {n : ChanId} {v : Bool} {T : Timer} {i : ChanIdx}

/-! ### `SetInput`, by its checks (R170) -/

theorem State.enabled_setInput (v : Bool) (hf : s.ctx.faults = []) (ht : s.timer t = some T)
    (hi : i.val + 1 = n.toNat) : s.enabled (.setInput t n v) = true := by
  simp [State.enabled, hf, State.validChan_of_recognised ht hi]

theorem step_of_setInput (hf : s.ctx.faults = []) (hp : s.pick = .setInput t n v)
    (ht : s.timer t = some T) (hi : i.val + 1 = n.toNat) :
    step s = .next (setInputStep t n v s.takePick).latchAll := by
  rw [step_of_noFault s hf, hp, if_pos (State.enabled_setInput v hf ht hi)]
  rfl

theorem setInputStep_of_noEdge (ht : s.timer t = some T) (hi : i.val + 1 = n.toNat)
    (hv : (T.chan i).tin = v) : setInputStep t n v s = s := by
  have hsame : T.modChan i (fun C => { C with tin := v }) = T := T.modChan_self i _ (by rw [← hv])
  simp [setInputStep, ht, chanOf_eq_some.mpr hi, hv, hsame, s.setTimer_self ht]

theorem setInputStep_of_notReady (ht : s.timer t = some T) (hi : i.val + 1 = n.toNat)
    (hc : T.canCapture i = false) : setInputStep t n v s = s.setTimer t (T.setTin i v) := by
  simp [setInputStep, ht, chanOf_eq_some.mpr hi, hc, Timer.setTin]

theorem setInputStep_of_draw (ht : s.timer t = some T) (hi : i.val + 1 = n.toNat)
    (hv : (T.chan i).tin ≠ v) (hc : T.canCapture i = true) (hrace : (T.chan i).polrace = true) :
    setInputStep t n v s = drawnCapture t (T.setTin i v) i s := by
  simp [setInputStep, ht, chanOf_eq_some.mpr hi, hv, hc, Channel.edgeCaptures, hrace, Timer.setTin]

theorem setInputStep_of_selected {captured : Bool} (ht : s.timer t = some T) (hi : i.val + 1 = n.toNat)
    (hv : (T.chan i).tin ≠ v) (hc : T.canCapture i = true) (hrace : (T.chan i).polrace = false)
    (hsel : (T.chan i).selected v = some captured) :
    setInputStep t n v s =
      s.setTimer t (if captured then (T.setTin i v).capture i else T.setTin i v) := by
  cases captured <;>
    simp [setInputStep, ht, chanOf_eq_some.mpr hi, hv, hc, Channel.edgeCaptures, hrace, hsel, Timer.setTin]

/-! ### `RaceGhost` (R172) -/

theorem State.enabled_raceGhost_iff (hf : s.ctx.faults = []) (ht : s.timer t = some T)
    (hi : i.val + 1 = n.toNat) :
    s.enabled (.raceGhost t n) = true ↔ T.canCapture i = true ∧ (T.chan i).polrace = true := by
  simp [State.enabled, hf, ht, chanOf_eq_some.mpr hi]

theorem step_of_raceGhost (hf : s.ctx.faults = []) (hp : s.pick = .raceGhost t n)
    (he : s.enabled (.raceGhost t n) = true) :
    step s = .next (raceGhostStep t n s.takePick).latchAll := by
  rw [step_of_noFault s hf, hp, if_pos he]
  rfl

/-- The capture and the closing of the window, as one write. -/
theorem raceGhostStep_of_recognised (ht : s.timer t = some T) (hi : i.val + 1 = n.toNat) :
    raceGhostStep t n s =
      s.setTimer t (T.modChan i fun C => { C with ccr := T.cnt, ccif := true, polrace := false }) := by
  simp only [raceGhostStep, chanOf_eq_some.mpr hi, s.onTimer_some _ ht]
  rw [Timer.capture, Timer.modChan_modChan]

end

/-! ### The statements -/

/-- Writing the count of draws that stands there changes nothing. -/
theorem State.draws_takePick_setTimer (s : State) (t : TimerId) (T : Timer) :
    ({ s.takePick.setTimer t T with draws := s.draws } : State) = s.takePick.setTimer t T := by
  rw [← s.draws_takePick]
  rfl

/-- A drawn capture takes one draw, and the draw decides it. -/
theorem drawnCapture_takePick (s : State) (t : TimerId) (T : Timer) (i : ChanIdx) :
    drawnCapture t T i s.takePick =
      { s.takePick.setTimer t (if Config.freeDraw s.draws then T.capture i else T) with
        draws := s.draws + 1 } := by
  rw [drawnCapture, State.draw_fst, ← s.draws_takePick]
  rfl

/-- Settles O35: the edge, the channel, the race window, then the polarity. -/
theorem setInputCapturesSelectedEdges : Obligations.SetInputCapturesSelectedEdges := by
  intro s t n v T i hf hp ht hi ready moved taken ends
  have ht' : s.takePick.timer t = some T := by rw [State.timer_takePick, ht]
  have hstep := step_of_setInput hf hp ht hi
  have hready : T.canCapture i = true ↔ ready := T.canCapture_iff i
  have htaken : (T.setTin i v).capture i = taken := T.capture_setTin i v
  have undrawn (T' : Timer) (h : setInputStep t n v s.takePick = s.takePick.setTimer t T') : ends 0 T' := by
    change step s = _
    rw [hstep, h, Nat.add_zero, State.draws_takePick_setTimer]
  refine ⟨State.enabled_setInput v hf ht hi, fun hv => ?noEdge, fun hv hr => ?notReady,
    fun hv hr hrace => ?drawn, fun hv hr hrace => ?selected⟩
  case noEdge => exact undrawn T (by rw [setInputStep_of_noEdge ht' hi hv, State.setTimer_self _ ht'])
  case notReady =>
    exact undrawn moved (setInputStep_of_notReady ht' hi (Bool.eq_false_iff.mpr (mt hready.mp hr)))
  case drawn =>
    change step s = _
    rw [hstep, setInputStep_of_draw ht' hi hv (hready.mpr hr) hrace, drawnCapture_takePick, htaken]
    rfl
  case selected =>
    have edge (captured : Bool) (hsel : (T.chan i).selected v = some captured) :
        ends 0 (if captured then taken else moved) :=
      undrawn _ (by rw [setInputStep_of_selected ht' hi hv (hready.mpr hr) hrace hsel, htaken]; rfl)
    refine ⟨fun hnp hp => ?rising, fun hnp hp => ?falling, fun hnp hp => ?both⟩
    case rising => exact edge v (by simp [Channel.selected, hnp, hp])
    case falling =>
      have h := edge (!v) (by simp [Channel.selected, hnp, hp])
      cases v <;> exact h
    case both => exact edge true (by simp [Channel.selected, hnp, hp])

/-- Settles O36: the guard, then the capture. -/
theorem raceGhostCapturesOnce : Obligations.RaceGhostCapturesOnce := by
  refine fun s t n T i hf ht hi => ⟨?guard, fun hp he => ?capture⟩
  case guard => rw [State.enabled_raceGhost_iff hf ht hi, Timer.canCapture_iff, and_comm]
  case capture =>
    have ht' : s.takePick.timer t = some T := by rw [State.timer_takePick, ht]
    rw [step_of_raceGhost hf hp he, raceGhostStep_of_recognised ht' hi]

end Sys2Proof.Machine
end

section
/-! PROOFS. The compare of a tick and the outputs (spec 41_capture_compare.md R175, R180, R181, R182). -/

namespace Sys2Proof.Machine

/-! ### The compare of one channel (R175) -/

theorem Channel.compareAt_of_match {C : Channel} {cnt : Word} (hout : C.ccs = 0b00) (hcnt : cnt = C.ccrSh) :
    C.compareAt cnt = { C with ccif := true, ocref := C.matchedRef } :=
  if_pos (by simp [C.outputMode_iff.mpr hout, hcnt])

theorem Channel.compareAt_of_noMatch {C : Channel} {cnt : Word} (h : C.ccs ≠ 0b00 ∨ cnt ≠ C.ccrSh) :
    C.compareAt cnt = C :=
  if_neg (by simpa [C.outputMode_iff, imp_iff_not_or] using h)

/-! ### The compare of a tick (R111, R175) -/

/-- What the count leaves of a channel: its role, its sub-mode and its flag, and its output reference in the
sub-modes that hold state. -/
theorem Timer.chan_count (T : Timer) (i : ChanIdx) :
    (T.count.chan i).ccs = (T.chan i).ccs ∧ (T.count.chan i).ocm = (T.chan i).ocm ∧
      (T.count.chan i).ccif = (T.chan i).ccif ∧
      ((T.chan i).ocm.toNat < 0b100 → (T.count.chan i).ocref = (T.chan i).ocref) := by
  obtain h | h := T.wraps_or_moves
  · obtain ⟨c, src, e⟩ := Timer.count_of_wraps h
    rw [e, Timer.chan_updateEvent]
    exact ⟨rfl, rfl, rfl, fun held => Channel.refreshedRef_held _ _ _ held⟩
  · obtain ⟨c, e⟩ := Timer.count_of_moves h
    rw [e]
    exact ⟨rfl, rfl, rfl, fun _ => rfl⟩

/-- A tick is the count, the compare at the counter it left, and a refresh. -/
theorem Timer.chan_tick_eq_compareAt (T : Timer) (i : ChanIdx) :
    T.tick.chan i =
      { (T.count.chan i).compareAt T.tick.cnt with
        ocref := ((T.count.chan i).compareAt T.tick.cnt).refreshedRef T.count.dir T.tick.cnt } := by
  rw [Timer.tick, Timer.chan_refreshOutputs, Timer.chan_compare]
  rfl

/-- The active compare value after a tick is the one its update event left. -/
theorem Timer.ccrSh_tick (T : Timer) (i : ChanIdx) : (T.tick.chan i).ccrSh = (T.count.chan i).ccrSh := by
  rw [T.chan_tick i]

section
variable {T : Timer} {i : ChanIdx}

theorem Timer.matchedRef_count (held : (T.chan i).ocm.toNat < 0b100) :
    (T.count.chan i).matchedRef = (T.chan i).matchedRef := by
  obtain ⟨-, hocm, -, href⟩ := T.chan_count i
  rw [Channel.matchedRef, Channel.matchedRef, hocm, href held]

theorem Timer.chan_tick_of_match (hout : (T.chan i).ccs = 0b00) (hcnt : T.tick.cnt = (T.tick.chan i).ccrSh) :
    (T.tick.chan i).ccif = true ∧
      ((T.chan i).ocm.toNat < 0b100 → (T.tick.chan i).ocref = (T.chan i).matchedRef) := by
  obtain ⟨hccs, hocm, -, -⟩ := T.chan_count i
  rw [T.ccrSh_tick i] at hcnt
  rw [T.chan_tick_eq_compareAt i, Channel.compareAt_of_match (hccs.trans hout) hcnt]
  refine ⟨rfl, fun held => ?_⟩
  have heldCount : (T.count.chan i).ocm.toNat < 0b100 := by rw [hocm]; exact held
  calc ({ T.count.chan i with ccif := true, ocref := (T.count.chan i).matchedRef } : Channel).refreshedRef _ _
      _ = (T.count.chan i).matchedRef := Channel.refreshedRef_held _ _ _ heldCount
      _ = (T.chan i).matchedRef := Timer.matchedRef_count held

theorem Timer.chan_tick_of_noMatch (h : (T.chan i).ccs ≠ 0b00 ∨ T.tick.cnt ≠ (T.tick.chan i).ccrSh) :
    (T.tick.chan i).ccif = (T.chan i).ccif ∧
      ((T.chan i).ocm.toNat < 0b100 → (T.tick.chan i).ocref = (T.chan i).ocref) := by
  obtain ⟨hccs, hocm, hccif, href⟩ := T.chan_count i
  rw [T.ccrSh_tick i, ← hccs] at h
  rw [T.chan_tick_eq_compareAt i, Channel.compareAt_of_noMatch h]
  refine ⟨hccif, fun held => ?_⟩
  have heldCount : (T.count.chan i).ocm.toNat < 0b100 := by rw [hocm]; exact held
  exact (Channel.refreshedRef_held _ _ _ heldCount).trans (href held)

end

/-- Settles O37: the four sub-modes hold the output reference through both refreshes of a tick, so the compare
alone writes it. -/
theorem compareMatchSetsFlag : Obligations.CompareMatchSetsFlag := by
  refine fun T i => ⟨fun hout hcnt => ?_, Timer.chan_tick_of_noMatch⟩
  obtain ⟨hflag, href⟩ := Timer.chan_tick_of_match hout hcnt
  refine ⟨hflag, fun hm => ?_, fun hm => ?_, fun hm => ?_, fun hm => ?_⟩ <;>
    rw [href (by simp [hm]), Channel.matchedRef] <;> simp [hm]

/-! ### The output reference of the driving sub-modes (R180) -/

section
variable {C : Channel} (hout : C.ccs = 0b00)
include hout

theorem Channel.refreshedRef_of_pwm1 (d : Direction) (cnt : Word) (hm : C.ocm = 0b110) :
    C.refreshedRef d cnt = pwmActive d cnt C.ccrSh := by
  simp [Channel.refreshedRef, C.outputMode_iff.mpr hout, hm]

theorem Channel.refreshedRef_of_pwm2 (d : Direction) (cnt : Word) (hm : C.ocm = 0b111) :
    C.refreshedRef d cnt = !pwmActive d cnt C.ccrSh := by
  simp [Channel.refreshedRef, C.outputMode_iff.mpr hout, hm]

theorem Channel.refreshedRef_of_forceInactive (d : Direction) (cnt : Word) (hm : C.ocm = 0b100) :
    C.refreshedRef d cnt = false := by
  simp [Channel.refreshedRef, C.outputMode_iff.mpr hout, hm]

theorem Channel.refreshedRef_of_forceActive (d : Direction) (cnt : Word) (hm : C.ocm = 0b101) :
    C.refreshedRef d cnt = true := by
  simp [Channel.refreshedRef, C.outputMode_iff.mpr hout, hm]

end

theorem pwmActive_up (cnt sh : Word) : pwmActive .up cnt sh = decide (cnt.toNat < sh.toNat) := rfl

theorem pwmActive_down (cnt sh : Word) : pwmActive .down cnt sh = decide (cnt.toNat ≤ sh.toNat) := rfl

theorem not_pwmActive_up (cnt sh : Word) : (!pwmActive .up cnt sh) = decide (sh.toNat ≤ cnt.toNat) := by
  simp [pwmActive_up, ← decide_not]

theorem not_pwmActive_down (cnt sh : Word) : (!pwmActive .down cnt sh) = decide (sh.toNat < cnt.toNat) := by
  simp [pwmActive_down, ← decide_not]

/-! ### The output level (R181, R182) -/

theorem Timer.out_of_driven {T : Timer} {i : ChanIdx} (hout : (T.chan i).ccs = 0b00)
    (hcce : (T.chan i).cce = true) (hclk : T.clkEn = true) :
    T.out i = .driven ((T.chan i).ocref ^^ (T.chan i).ccp) :=
  if_pos (by simp [(T.chan i).outputMode_iff.mpr hout, hcce, hclk])

theorem Timer.out_of_undriven {T : Timer} {i : ChanIdx}
    (h : (T.chan i).ccs ≠ 0b00 ∨ (T.chan i).cce = false ∨ T.clkEn = false) : T.out i = .undriven := by
  refine if_neg fun hdriven => ?_
  simp only [Bool.and_eq_true, Channel.outputMode_iff] at hdriven
  obtain ⟨⟨hout, hcce⟩, hclk⟩ := hdriven
  simp [hout, hcce, hclk] at h

/-- A refreshed timer meets the output law. -/
theorem Timer.outputLaw_of_refreshed {N : Timer} (h : N.refreshOutputs = N) : N.outputLaw := by
  intro i C hout hcce hclk
  have href : C.ocref = C.refreshedRef N.dir N.cnt := by
    have hi := N.chan_refreshOutputs i
    rw [h] at hi
    exact congrArg Channel.ocref hi
  have hlevel : N.out i = .driven (C.refreshedRef N.dir N.cnt ^^ C.ccp) := by
    rw [← href]
    exact Timer.out_of_driven hout hcce hclk
  refine ⟨fun hm hd => ?_, fun hm hd => ?_, fun hm hd => ?_, fun hm hd => ?_, fun hm => ?_, fun hm => ?_⟩ <;>
    rw [hlevel]
  · rw [Channel.refreshedRef_of_pwm1 hout _ _ hm, hd, pwmActive_up]
  · rw [Channel.refreshedRef_of_pwm1 hout _ _ hm, hd, pwmActive_down]
  · rw [Channel.refreshedRef_of_pwm2 hout _ _ hm, hd, not_pwmActive_up]
  · rw [Channel.refreshedRef_of_pwm2 hout _ _ hm, hd, not_pwmActive_down]
  · rw [Channel.refreshedRef_of_forceInactive hout _ _ hm, Bool.false_xor]
  · rw [Channel.refreshedRef_of_forceActive hout _ _ hm, Bool.true_xor]

/-! ### After a step of the main context (R180) -/

/-- The commands whose effects the poll's phases have. -/
theorem pollCommands_cases {s : State} {j : Instr} (h : j ∈ pollCommands s) :
    (∃ t, j = .trdc t ∨ j = .tug t ∨ j = .ten t ∨ j = .tdis t) ∨ ∃ t n, j = .cien t n := by
  unfold pollCommands at h
  split at h <;> simp only [List.mem_cons, List.not_mem_nil, or_false] at h
  · obtain rfl | rfl := h <;> simp
  · obtain rfl | rfl := h <;> simp
  · obtain rfl | rfl | rfl := h <;> simp
  · subst h; simp

/-- No refresh follows `RPOLL`, nor the command whose effect a phase of it has. -/
theorem refreshOp_of_pollCommands {s : State} {j : Instr} (h : j ∈ pollCommands s) (T : Timer) :
    refreshOp .rpoll T = refreshOp j T := by
  obtain ⟨t, rfl | rfl | rfl | rfl⟩ | ⟨t, n, rfl⟩ := pollCommands_cases h <;> rfl

/-- What a step of the main context leaves of a timer is refreshed, or none of the fields an output reference
depends on was written. -/
theorem TimerFate.refreshed_or_sameDrive {s : State} {t : TimerId} {T T' : Timer} (h : TimerFate s t T T')
    (hp : s.pick = .main) : T'.refreshOutputs = T' ∨ T.sameDrive T' := by
  cases h with
  | stutter => exact .inr ⟨rfl, fun _ => ⟨rfl, rfl, rfl⟩⟩
  | latched => exact .inr ⟨rfl, fun _ => ⟨rfl, rfl, rfl⟩⟩
  | cmd i j c _ hc hd hj ht =>
    have hij : ∀ T, refreshOp i T = refreshOp j T := by
      obtain rfl | ⟨rfl, hpoll⟩ := hj
      · exact fun _ => rfl
      · exact refreshOp_of_pollCommands hpoll
    rw [hij]
    exact (refreshOp_cmdTimer j s.takePick T).imp Timer.refreshOutputs_latch id
  | irqOther | irq | clk | tin | cap | ghost => simp_all

/-- Settles O38: a tick ends refreshed, and so does a step of the main context that wrote what an output
reference depends on. -/
theorem outputLevelAfterTick : Obligations.OutputLevelAfterTick := by
  refine ⟨fun T i => ⟨Timer.out_of_driven, Timer.out_of_undriven⟩,
    fun T => Timer.outputLaw_of_refreshed T.refreshOutputs_tick, ?step⟩
  intro s s' t T T' hp h hT hT' changed
  obtain ⟨T1, hT1, hfate⟩ := timer_fate s s' t T h hT
  cases hT1.symm.trans hT'
  refine Timer.outputLaw_of_refreshed ((hfate.refreshed_or_sameDrive hp).resolve_right fun same => ?_)
  obtain ⟨hdir, hchan⟩ := same
  obtain hd | ⟨i, hi⟩ := changed
  · exact hd hdir
  · obtain ⟨hocm, hsh, hccp⟩ := hchan i
    simp [hocm, hsh, hccp] at hi

end Sys2Proof.Machine
end

section
/-! PROOFS. Which commands change a channel's role (spec 41_capture_compare.md R141). -/

namespace Sys2Proof.Machine

/-! ### What leaves every role -/

/-- Every channel of `T'` has the role it has in `T`. -/
def Timer.sameRoles (T T' : Timer) : Prop := ∀ i, (T'.chan i).ccs = (T.chan i).ccs

theorem Timer.sameRoles_refl (T : Timer) : T.sameRoles T := fun _ => rfl

theorem Timer.sameRoles_trans {A B C : Timer} (h : A.sameRoles B) (k : B.sameRoles C) : A.sameRoles C :=
  fun i => (k i).trans (h i)

theorem Timer.sameRoles_modChan (T : Timer) (i : ChanIdx) {f : Channel → Channel}
    (hf : ∀ C, (f C).ccs = C.ccs := by exact fun _ => rfl) : T.sameRoles (T.modChan i f) := by
  intro j
  rw [Timer.chan_modChan]
  split
  · exact hf _
  · rfl

theorem Timer.sameRoles_refreshOutputs (T : Timer) : T.sameRoles T.refreshOutputs := fun i => by
  rw [Timer.chan_refreshOutputs]

theorem Timer.sameRoles_updateEvent (T : Timer) (src : UpdateSrc) : T.sameRoles (T.updateEvent src) :=
  fun i => by rw [Timer.chan_updateEvent, Channel.loadShadow]

theorem Timer.sameRoles_tick (T : Timer) : T.sameRoles T.tick := fun i => by rw [T.chan_tick_frame i]

theorem Timer.sameRoles_latch (T : Timer) : T.sameRoles T.latch := fun _ => rfl

theorem Timer.sameRoles_capture (T : Timer) (i : ChanIdx) : T.sameRoles (T.capture i) :=
  T.sameRoles_modChan i

theorem Timer.sameRoles_clkCycle (T : Timer) : T.sameRoles T.clkCycle := by
  have closed : T.sameRoles (T.mapChans fun C => { C with polrace := false }) := fun i => by
    rw [Timer.chan_mapChans]
  cases hcen : T.cen with
  | false => rw [T.clkCycle_stopped hcen]; exact closed
  | true =>
    by_cases hp : T.pscCnt = T.pscSh
    · rw [T.clkCycle_tick hcen hp]
      exact Timer.sameRoles_trans closed (Timer.sameRoles_tick _)
    · rw [T.clkCycle_between hcen hp]
      exact closed

theorem refreshOp_sameRoles (i : Instr) (T : Timer) : T.sameRoles (refreshOp i T) := by
  obtain e | e := refreshOp_cases i T <;> rw [e]
  · exact T.sameRoles_refl
  · exact T.sameRoles_refreshOutputs

theorem chanOp_sameRoles (n : ChanId) {f : Timer → ChanIdx → Timer}
    (hf : ∀ (T : Timer) (i : ChanIdx), T.sameRoles (f T i))
    (T : Timer) : T.sameRoles (chanOp n f T) := by
  obtain e | ⟨i, -, -, e⟩ := chanOp_cases n f T <;> rw [e]
  · exact T.sameRoles_refl
  · exact hf T i

theorem chanOp_modChan_sameRoles (n : ChanId) (T : Timer) {f : Channel → Channel}
    (hf : ∀ C, (f C).ccs = C.ccs := by exact fun _ => rfl) : T.sameRoles (chanOp n (fun T i => T.modChan i f) T) :=
  chanOp_sameRoles n (fun T i => T.sameRoles_modChan i hf) T

theorem Channel.ccs_afterRead (C : Channel) : C.afterRead.ccs = C.ccs := by
  unfold Channel.afterRead
  split <;> rfl

theorem Timer.sameRoles_afterRead (T : Timer) (r : Reg) : T.sameRoles (T.afterRead r) := by
  cases r with
  | ccr i => exact T.sameRoles_modChan i Channel.ccs_afterRead
  | cr1 | dier | sr | egr | ccmr1 | ccmr2 | ccer | cnt | psc | arr => exact T.sameRoles_refl

theorem Timer.sameRoles_setPolarity (T : Timer) (i : ChanIdx) (k : Polarity) :
    T.sameRoles (T.setPolarity i k) := by
  have written : T.sameRoles (T.modChan i (·.setPolarity k)) := T.sameRoles_modChan i
  unfold Timer.setPolarity
  dsimp only
  split
  · exact Timer.sameRoles_trans written (Timer.sameRoles_refreshOutputs _)
  · exact written

theorem Timer.sameRoles_toPwm (T : Timer) (i : ChanIdx) (k : Polarity) (d : Word) :
    T.sameRoles (T.toPwm i k d) :=
  Timer.sameRoles_trans
    (T.sameRoles_modChan i (f := fun C => { C.setPolarity k with ocpe := true, ccr := truncTo T.width d }))
    (Timer.sameRoles_refreshOutputs _)

theorem Timer.sameRoles_setDuty (T : Timer) (i : ChanIdx) (d : Word) : T.sameRoles (T.setDuty i d) := by
  unfold Timer.setDuty
  split
  · split
    · exact T.sameRoles_modChan i
    · exact Timer.sameRoles_trans (T.sameRoles_modChan i) (Timer.sameRoles_refreshOutputs _)
  · exact T.sameRoles_refl

theorem enableOp_sameRoles (n : ChanId) (T : Timer) : T.sameRoles (enableOp n T) := by
  unfold enableOp
  split
  · exact T.sameRoles_refl
  · rename_i i _
    cases hclk : T.clkEn with
    | false => rw [Timer.enableIrq_of_unclocked i hclk]; exact T.sameRoles_refl
    | true =>
      rw [Timer.enableIrq_of_clocked i hclk]
      exact T.sameRoles_modChan i (f := fun C => { C with ccie := true })

theorem polarityOp_sameRoles (n : ChanId) (k : Polarity) (T : Timer) : T.sameRoles (polarityOp n k T) :=
  chanOp_sameRoles n (fun T i => T.sameRoles_setPolarity i k) T

/-- The handler body initialises no channel (R212). -/
theorem handlerOp_sameRoles (s : State) (t : TimerId) (T : Timer) : T.sameRoles (handlerOp s t T) := by
  have read := chanOp_modChan_sameRoles s.cfg.echoCh T Channel.ccs_afterRead
  unfold handlerOp
  split
  · dsimp only
    split
    · exact Timer.sameRoles_trans read (polarityOp_sameRoles _ _ _)
    · exact Timer.sameRoles_trans (Timer.sameRoles_trans read (polarityOp_sameRoles _ _ _))
        (chanOp_modChan_sameRoles _ _)
    · exact read
    · exact read
  · exact T.sameRoles_refl

theorem irqOp_sameRoles (s : State) (t : TimerId) (T : Timer) : T.sameRoles (irqOp s t T) :=
  handlerOp_sameRoles s t { T with irqPend := false }

/-! ### The commands that give a role -/

/-- The channel a command initialises, and the role it gives it. -/
def initRole : Instr → Option (ChanId × BitVec 2)
  | .ccap _ n _ => some (n, 0b01)
  | .ccmp _ n _ _ | .cpwm _ n _ _ _ _ => some (n, 0b00)
  | .tcfg _ _ _ _ | .ten _ | .tdis _ | .tug _ | .trdc _ | .tdly _ | .cpol _ _ _ | .cduty _ _ _ | .cwait _ _
  | .crd _ _ | .cien _ _ | .cidis _ _ | .cclr _ _ | .rreg _ _ | .rpoll => none

/-- `T'` has the roles of `T`, but that channel `n` may have been given the role `r`. -/
def Timer.givenRole (T T' : Timer) (n : ChanId) (r : BitVec 2) : Prop :=
  ∀ i, (T'.chan i).ccs = (T.chan i).ccs ∨ (chanOf n = some i ∧ (T'.chan i).ccs = r)

/-- A write that gives its own channel the role `r`. -/
theorem chanOp_givenRole (n : ChanId) {f : Timer → ChanIdx → Timer} {r : BitVec 2}
    (hf : ∀ T i j, ((f T i).chan j).ccs = if j = i then r else (T.chan j).ccs) (T : Timer) :
    T.givenRole (chanOp n f T) n r := by
  intro j
  obtain e | ⟨i, hi, -, e⟩ := chanOp_cases n f T <;> rw [e]
  · exact .inl rfl
  · rw [hf]
    split
    · subst_vars
      exact .inr ⟨hi, rfl⟩
    · exact .inl rfl

theorem compareOp_givenRole (n : ChanId) (m : OutputMode) (T : Timer) :
    T.givenRole (compareOp n m T) n 0b00 := by
  unfold compareOp
  split
  · exact fun _ => .inl rfl
  · refine chanOp_givenRole n (fun T i j => ?_) T
    rw [Timer.chan_refreshOutputs, Timer.chan_modChan]
    split <;> rfl

/-- A command initialises its channel, or leaves every role (R141). -/
theorem cmdTimer_roles (j : Instr) (s : State) (T : Timer) :
    (∃ n r, initRole j = some (n, r) ∧ T.givenRole (cmdTimer j s T) n r) ∨ T.sameRoles (cmdTimer j s T) := by
  have same : T.sameRoles T := T.sameRoles_refl
  cases j with
  | ccap t n b =>
    refine .inl ⟨n, 0b01, rfl, chanOp_givenRole n (fun T i j => ?_) T⟩
    rw [Timer.chan_modChan]
    split <;> rfl
  | ccmp t n m b => exact .inl ⟨n, 0b00, rfl, compareOp_givenRole n m T⟩
  | cpwm t n m k d b =>
    refine .inl ⟨n, 0b00, rfl, fun i => ?_⟩
    have kept := chanOp_sameRoles n (fun T i => T.sameRoles_toPwm i k d) (compareOp n (pwmModeOf m) T) i
    rw [cmdTimer, kept]
    exact compareOp_givenRole n _ T i
  | tcfg | ten | tdis | tdly => refine .inr ?_; simp only [cmdTimer]; split <;> exact same
  | tug =>
    refine .inr ?_
    simp only [cmdTimer]
    split
    · exact T.sameRoles_updateEvent .software
    · exact same
  | cpol t n k => exact .inr (polarityOp_sameRoles n k T)
  | cduty t n d => exact .inr (chanOp_sameRoles n (fun T i => T.sameRoles_setDuty i d) T)
  | crd t n => exact .inr (chanOp_modChan_sameRoles n T Channel.ccs_afterRead)
  | cidis t n | cclr t n => exact .inr (chanOp_modChan_sameRoles n T)
  | cien t n => exact .inr (enableOp_sameRoles n T)
  | rreg t off =>
    refine .inr ?_
    simp only [cmdTimer]
    split
    · exact same
    · split
      · exact T.sameRoles_afterRead _
      · exact same
  | trdc | cwait | rpoll => exact .inr same

/-- No phase of the poll initialises a channel. -/
theorem initRole_of_pollCommands {s : State} {j : Instr} (h : j ∈ pollCommands s) : initRole j = none := by
  obtain ⟨t, rfl | rfl | rfl | rfl⟩ | ⟨t, n, rfl⟩ := pollCommands_cases h <;> rfl

/-- A step leaves every role of a timer, or the main context ran a command that initialises one of the timer's
channels. -/
theorem TimerFate.roles {s : State} {t : TimerId} {T T' : Timer} (h : TimerFate s t T T') :
    T.sameRoles T' ∨
      (s.pick = .main ∧ ∃ c i n r, s.fetch = some c ∧ decode c = .ok i ∧ cmdTarget i = some t ∧
        initRole i = some (n, r) ∧ T.givenRole T' n r) := by
  cases h with
  | stutter => exact .inl T.sameRoles_refl
  | latched => exact .inl T.sameRoles_latch
  | cmd i j c hp hc hd hj ht =>
    have refreshed := refreshOp_sameRoles i (cmdTimer j s.takePick T)
    obtain ⟨n, r, hr, given⟩ | same := cmdTimer_roles j s.takePick T
    · obtain rfl | ⟨-, hpoll⟩ := hj
      · refine .inr ⟨hp, c, j, n, r, hc, hd, ht, hr, fun k => ?_⟩
        rw [Timer.chan_latch, refreshed k]
        exact given k
      · rw [initRole_of_pollCommands hpoll] at hr
        exact nomatch hr
    · exact .inl (Timer.sameRoles_trans same refreshed)
  | irqOther => exact .inl T.sameRoles_refl
  | irq => exact .inl (irqOp_sameRoles _ t T)
  | clk => exact .inl T.sameRoles_clkCycle
  | tin i v => exact .inl (Timer.sameRoles_trans (T.sameRoles_modChan i) (Timer.sameRoles_latch _))
  | cap i v =>
    exact .inl (Timer.sameRoles_trans (T.sameRoles_modChan i)
      (Timer.sameRoles_trans (Timer.sameRoles_capture _ i) (Timer.sameRoles_latch _)))
  | ghost i n =>
    exact .inl (Timer.sameRoles_trans (T.sameRoles_capture i)
      (Timer.sameRoles_trans (Timer.sameRoles_modChan _ i) (Timer.sameRoles_latch _)))

/-- Settles O55: by the timer's fate, and by which of the three commands the decoded one is. -/
theorem roleChangesOnlyByInit : Obligations.RoleChangesOnlyByInit := by
  intro s s' t T T' i h hT hT' changed
  obtain ⟨T1, hT1, hfate⟩ := timer_fate s s' t T h hT
  cases hT1.symm.trans hT'
  obtain same | ⟨hp, c, instr, n, r, hc, hd, ht, hr, given⟩ := hfate.roles
  · exact absurd (same i) changed
  obtain ⟨hi, hrole⟩ := (given i).resolve_left changed
  have hin : i.val + 1 = n.toNat := chanOf_eq_some.mp hi
  cases instr with
  | ccap u n' b => cases ht; cases hr; exact ⟨hp, c, hc, n, b, hin, .inl ⟨hd, hrole⟩⟩
  | ccmp u n' m b => cases ht; cases hr; exact ⟨hp, c, hc, n, b, hin, .inr (.inl ⟨⟨m, hd⟩, hrole⟩)⟩
  | cpwm u n' m k d b =>
    cases ht; cases hr; exact ⟨hp, c, hc, n, b, hin, .inr (.inr ⟨⟨m, k, d, hd⟩, hrole⟩)⟩
  | tcfg | ten | tdis | tug | trdc | tdly | cpol | cduty | cwait | crd | cien | cidis | cclr | rreg | rpoll =>
    exact nomatch hr

end Sys2Proof.Machine
end

section
/-! PROOFS. The poll of the ranging sequencer, by the context and the session's state (spec
42_ranging_sequencer.md R205, R206, R210). -/

namespace Sys2Proof.Machine

/-! ### `RPOLL`, by the context and the session's state (R205) -/

theorem exec_rpoll_of_handler {s : State} (hm : s.ctx.mode = .handler) :
    exec .rpoll s = .next (s.raise .blockingInHandler) := by
  simp only [exec, execRpoll, hm]

theorem exec_rpoll_of_echo {s : State} (hm : s.ctx.mode = .main)
    (hs : s.seq.state = .echoRising ∨ s.seq.state = .echoFalling) : exec .rpoll s = .next s.complete := by
  obtain hs | hs := hs <;> simp only [exec, execRpoll, hm, hs]

theorem exec_rpoll_of_measurement {s : State} (hm : s.ctx.mode = .main) (hs : s.seq.state = .measurement) :
    exec .rpoll s = .next (measurePhase s).complete := by
  simp only [exec, execRpoll, hm, hs]

theorem exec_rpoll_of_triggerHigh {s : State} (hm : s.ctx.mode = .main) (hs : s.seq.state = .triggerHigh) :
    exec .rpoll s = .next (triggerPhase s) := by
  simp only [exec, execRpoll, hm, hs]

/-- Settles O39: the context, then the session's state. -/
theorem rpollInEchoStatesCompletes : Obligations.RpollInEchoStatesCompletes := fun _ =>
  ⟨exec_rpoll_of_handler, exec_rpoll_of_echo⟩

/-! ### The distance (R210) -/

/-- The reduced difference of two words is their difference modulo `2^W`. -/
theorem truncTo_sub_toNat (w : Width) (a b : Word) :
    (truncTo w (a - b)).toNat = (((a.toNat : Int) - b.toNat) % 2 ^ w.bits).toNat := by
  have ha := a.isLt
  have hb := b.isLt
  rw [truncTo_toNat, BitVec.toNat_sub]
  cases w <;> simp only [Width.bits] <;> omega

/-- R210's formula, in natural numbers. -/
theorem distance_eq_ofNat (w : Width) (tickUs : Nat) (rising falling : Word) :
    distance w tickUs rising falling =
      BitVec.ofNat 32
        (((((falling.toNat : Int) - rising.toNat) % 2 ^ w.bits).toNat * tickUs) % 2 ^ 32 / 58) := by
  rw [← truncTo_sub_toNat]
  apply BitVec.eq_of_toNat_eq
  rw [distance, BitVec.toNat_udiv, BitVec.toNat_mul, BitVec.toNat_ofNat, BitVec.toNat_ofNat, Nat.mul_mod_mod]
  generalize (truncTo w (falling - rising)).toNat * tickUs = p
  have hdiv : distDiv.toNat = 58 := rfl
  rw [hdiv]
  omega

theorem State.echoWidth_of_recognised {s : State} {T : Timer} (ht : s.timer s.cfg.echoTimer = some T) :
    s.echoWidth = T.width := by
  simp only [State.echoWidth, ht]

/-! ### The alert and the measurement (R210) -/

/-- A write to a timer and a write to the session do not meet. -/
theorem State.onTimer_modSeq (s : State) (t : TimerId) (f : Timer → Timer) (g : Seq → Seq) :
    (s.onTimer t f).modSeq g = (s.modSeq g).onTimer t f := by
  cases ht : s.timer t with
  | none => rw [s.onTimer_none f ht, (s.modSeq g).onTimer_none f ht]
  | some T => rw [s.onTimer_some f ht, (s.modSeq g).onTimer_some f ht]; rfl

theorem alertEffect_of_off {s : State} (d : Word) (h : s.cfg.alertEnabled = false) : alertEffect d s = s := by
  simp [alertEffect, h]

/-- The alert timer's run bit says whether the distance is below the threshold. -/
theorem alertEffect_of_on {s : State} (d : Word) (h : s.cfg.alertEnabled = true) :
    alertEffect d s = s.onClocked s.cfg.alertTimer fun A =>
      { A with cen := decide (d.toNat < s.cfg.alertThresholdCm) } := by
  rw [alertEffect, if_pos h]
  split <;> rename_i hd
  · rw [decide_eq_true hd]; rfl
  · rw [decide_eq_false hd]; rfl

/-- The alert neither reads nor writes the session. -/
theorem alertEffect_modSeq (d : Word) (s : State) (g : Seq → Seq) :
    (alertEffect d s).modSeq g = alertEffect d (s.modSeq g) := by
  cases ha : s.cfg.alertEnabled with
  | false => rw [alertEffect_of_off d ha, alertEffect_of_off (s := s.modSeq g) d ha]
  | true =>
    rw [alertEffect_of_on d ha, alertEffect_of_on (s := s.modSeq g) d ha]
    exact s.onTimer_modSeq _ _ g

/-- The state with the distance stored and reported and the session back in TriggerHigh. -/
def State.reported (s : State) (d : Word) : State :=
  (s.modSeq fun q => { q with dist := d, state := .triggerHigh }).emit (.report d)

/-- `Measure()` is the report and then the alert. -/
theorem measurePhase_eq (s : State) :
    measurePhase s =
      alertEffect (distance s.echoWidth s.cfg.tickUs s.seq.rising s.seq.falling)
        (s.reported (distance s.echoWidth s.cfg.tickUs s.seq.rising s.seq.falling)) := by
  simp only [measurePhase, alertEffect_modSeq]
  rfl

/-- Settles O40: the measurement with the alert off and on, the distance in R210's form. -/
theorem rpollMeasures : Obligations.RpollMeasures := by
  intro s T hm hs ht diff dist reported
  have hdist : distance s.echoWidth s.cfg.tickUs s.seq.rising s.seq.falling = dist := by
    rw [State.echoWidth_of_recognised ht, distance_eq_ofNat]
  rw [exec_rpoll_of_measurement hm hs, measurePhase_eq, hdist]
  refine ⟨fun ha => ?off, fun ha => ?on⟩
  case off => rw [alertEffect_of_off (s := s.reported dist) dist ha]; rfl
  case on => rw [alertEffect_of_on (s := s.reported dist) dist ha]; rfl

/-! ### The phases of TriggerHigh (R206) -/

/-- One phase of `TriggerPhase()`, in TriggerHigh. -/
theorem exec_rpoll_of_phase {s s' : State} (hm : s.ctx.mode = .main) (hs : s.seq.state = .triggerHigh)
    (h : triggerPhase s = s') : exec .rpoll s = .next s' := by
  rw [exec_rpoll_of_triggerHigh hm hs, h]

theorem State.pulseDone_of_recognised {s : State} {T : Timer} (ht : s.timer s.cfg.echoTimer = some T) :
    s.pulseDone = (T.clkEn && decide (s.cfg.trigTicks ≤ T.cnt.toNat)) := by
  simp only [State.pulseDone, ht]

/-- PulseWait waits until the echo timer has counted the trigger's ticks. -/
theorem triggerPhase_of_pulseWait {s : State} (hp : s.seq.ph = .pulseWait) :
    triggerPhase s = if s.pulseDone then s.modSeq fun q => { q with ph := .trigLow } else s := by
  simp only [triggerPhase, hp, State.hold_eq]

/-- SettleWait waits until the settle delay has ended. -/
theorem triggerPhase_of_settleWait {s : State} (hp : s.seq.ph = .settleWait) :
    triggerPhase s = if s.seq.delayBusy then s else s.modSeq fun q => { q with ph := .resync } := by
  simp only [triggerPhase, hp, State.hold_eq]

@[simp] theorem ctx_cienEffect (t : TimerId) (n : ChanId) (s : State) : (cienEffect t n s).ctx = s.ctx := by
  unfold cienEffect
  split <;> simp

/-- A completed command on the timers, its completion undone and the session written: the command's effect
with that write. -/
theorem State.complete_undone {s x : State} (f : Seq → Seq) (hctx : x.ctx = s.ctx) (hseq : x.seq = s.seq) :
    ({ x.complete with ctx := s.ctx, seq := f s.seq } : State) = x.modSeq f := by
  rw [State.complete_eq_withPc, ← hctx, ← hseq]
  rfl

/-- Settles O41: phase by phase. -/
theorem rpollTriggerPhases : Obligations.RpollTriggerPhases := by
  intro s hm hs E
  have poll {s'} (h : triggerPhase s = s') : exec .rpoll s = .next s' := exec_rpoll_of_phase hm hs h
  refine ⟨fun hp => poll ?settleReq, fun hp hb => poll ?delayRuns, fun hp hb => poll ?delayEnded,
    fun s1 hp hx => poll ?resync, fun hp => poll ?trigHigh,
    fun hp => ⟨fun T ht hclk hcnt => poll ?pulseDone, fun T ht h => poll ?pulseRuns⟩, fun hp => poll ?trigLow,
    fun s1 hp hx => poll ?irqEnable, fun hp => poll ?advance⟩
  case settleReq => simp only [triggerPhase, hp]; rfl
  case delayRuns => rw [triggerPhase_of_settleWait hp, if_pos hb]
  case delayEnded => rw [triggerPhase_of_settleWait hp, if_neg (by simp [hb])]; rfl
  case resync =>
    cases hx
    refine Eq.trans ?_ (State.complete_undone (fun q => { q with ph := .trigHigh }) (s.ctx_onClocked _ _)
      (seq_tugEffect E s)).symm
    simp only [triggerPhase, hp, State.hold_eq]
    rfl
  case trigHigh => simp only [triggerPhase, hp]; rfl
  case pulseDone =>
    have hdone : s.pulseDone = true := by simp [State.pulseDone_of_recognised ht, hclk, hcnt]
    rw [triggerPhase_of_pulseWait hp, if_pos hdone]
    rfl
  case pulseRuns =>
    have hrun : ¬ s.pulseDone = true := by
      rw [State.pulseDone_of_recognised ht]
      obtain h | h := h <;> simp [h]
    rw [triggerPhase_of_pulseWait hp, if_neg hrun]
  case trigLow => simp only [triggerPhase, hp]; rfl
  case irqEnable =>
    cases hx
    refine Eq.trans ?_ (State.complete_undone (fun q => { q with ph := .advance }) (ctx_cienEffect E _ s)
      (seq_cienEffect E _ s)).symm
    simp only [triggerPhase, hp, State.hold_eq]
    rfl
  case advance => simp only [triggerPhase, hp]; rfl

end Sys2Proof.Machine
end

section
/-! PROOFS. The end of the settle delay, and that it comes in every weakly fair run (spec
42_ranging_sequencer.md R207, 00_scope.md R14). -/

namespace Sys2Proof.Machine

theorem State.enabled_delayDone_iff {s : State} (hf : s.ctx.faults = []) :
    s.enabled .delayDone = true ↔ s.seq.delayBusy = true := by
  simp [State.enabled, hf]

theorem step_of_delayDone {s : State} (hf : s.ctx.faults = []) (hp : s.pick = .delayDone)
    (hb : s.seq.delayBusy = true) : step s = .next (delayDoneStep s.takePick).latchAll := by
  rw [step_of_noFault s hf, hp, if_pos ((State.enabled_delayDone_iff hf).mpr hb)]
  rfl

/-- A step of `DelayDone` in a run leaves no settle delay running. -/
theorem IsRun.delayBusy_after_delayDone {sch : Nat → Agent} {run : Nat → State} (h : IsRun sch run) {n : Nat}
    (hsch : sch n = .delayDone) (hb : (run n).seq.delayBusy = true) : (run (n + 1)).seq.delayBusy = false := by
  have hs := step_of_delayDone (s := (run n).scheduled (sch n)) (h.noFault n) hsch hb
  rw [← Host.Outcome.next.inj (hs.symm.trans (h n))]
  rfl

/-- Settles O42: a delay that never ended would leave `DelayDone` enabled for ever, so fairness takes it. -/
theorem delayDoneEndsSettleDelay : Obligations.DelayDoneEndsSettleDelay := by
  refine ⟨fun s hf => ⟨State.enabled_delayDone_iff hf, fun hp hb => ?step⟩, fun sch run hrun hfair n _ => ?ends⟩
  case step =>
    rw [step_of_delayDone hf hp hb, delayDoneStep, State.modSeq, State.seq_takePick]
  case ends =>
    by_contra hnever
    have busy (m : Nat) (hm : n ≤ m) : (run m).seq.delayBusy = true :=
      Bool.of_not_eq_false fun hb => hnever ⟨m, hm, hb⟩
    obtain ⟨m, hm, hsch, -⟩ := hfair.delayDone n fun m hm =>
      ⟨.delayDone, rfl, (State.enabled_delayDone_iff (hrun.noFault m)).mpr (busy m hm)⟩
    exact hnever ⟨m + 1, Nat.le_succ_of_le hm, hrun.delayBusy_after_delayDone hsch (busy m hm)⟩

end Sys2Proof.Machine
end

section
/-! PROOFS. The interrupt entry of the echo timer: its timer, the session and the context after it (spec
42_ranging_sequencer.md R212, R213, 60_exceptions.md R254). -/

namespace Sys2Proof.Machine

/-! ### What the handler body leaves, said once (R212) -/

/-- A write to a channel of a recognised timer is a write to that timer. -/
theorem State.onChan_eq_setTimer {s : State} {t : TimerId} {T : Timer} (n : ChanId)
    (f : Timer → ChanIdx → Timer) (ht : s.timer t = some T) :
    s.onChan t n f = s.setTimer t (chanOp n f T) := by
  unfold State.onChan chanOp
  cases chanOf n with
  | none => exact (s.setTimer_self ht).symm
  | some i => exact s.onTimer_some _ ht

/-- A write to a channel of a timer just written, with the session written between, is one write. -/
theorem State.onChan_setTimer_modSeq (s : State) (t : TimerId) (n : ChanId) (T : Timer) (g : Seq → Seq)
    (f : Timer → ChanIdx → Timer) :
    ((s.setTimer t T).modSeq g).onChan t n f = (s.setTimer t (chanOp n f T)).modSeq g := by
  rw [State.onChan_eq_setTimer (s := (s.setTimer t T).modSeq g) n f (s.timer_setTimer_same t T)]
  exact congrArg (State.modSeq · g) (s.setTimer_setTimer t T _)

/-- What the read of the capture register does to a timer (R64, R151). -/
def readOp (n : ChanId) : Timer → Timer := chanOp n fun T i => T.modChan i Channel.afterRead

/-- What `CIDIS` does to a timer (R155). -/
def disableOp (n : ChanId) : Timer → Timer := chanOp n fun T i => T.modChan i fun C => { C with ccie := false }

/-- The count that `readCapture` returns on a recognised timer (R151). -/
def Timer.captureCount (T : Timer) (n : ChanId) : Word :=
  match chanOf n with
  | none => sentinel
  | some i => if T.clkEn then (T.chan i).ccr else 0

/-- `readCapture` on a recognised timer: the count, and the flag its read clears (R151). -/
theorem crdEffect_eq {s : State} {t : TimerId} {T : Timer} (n : ChanId) (ht : s.timer t = some T) :
    crdEffect t n s = (T.captureCount n, s.setTimer t (readOp n T)) := by
  refine Prod.ext ?_ ?_
  · cases hn : chanOf n with
    | none => simp only [crdEffect, Timer.captureCount, ht, hn]
    | some i => cases hclk : T.clkEn <;> simp [crdEffect, Timer.captureCount, ht, hn, hclk]
  · rw [crdEffect_state, State.onChan_eq_setTimer n _ ht, readOp]

/-- The session after `onCaptureEdge()` with the count it read (R212). -/
def Seq.afterEdge (q : Seq) (count : Word) : Seq :=
  match q.state with
  | .echoRising => { q with rising := count, state := .echoFalling }
  | .echoFalling => { q with falling := count, state := .measurement }
  | .triggerHigh | .measurement => q

theorem Seq.afterEdge_of_rising {q : Seq} (h : q.state = .echoRising) (count : Word) :
    q.afterEdge count = { q with rising := count, state := .echoFalling } := by
  simp only [Seq.afterEdge, h]

theorem Seq.afterEdge_of_falling {q : Seq} (h : q.state = .echoFalling) (count : Word) :
    q.afterEdge count = { q with falling := count, state := .measurement } := by
  simp only [Seq.afterEdge, h]

theorem Seq.afterEdge_of_other {q : Seq} (h : q.state = .triggerHigh ∨ q.state = .measurement)
    (count : Word) : q.afterEdge count = q := by
  obtain h | h := h <;> simp only [Seq.afterEdge, h]

theorem handlerOp_of_rising {s : State} (hs : s.seq.state = .echoRising) (T : Timer) :
    handlerOp s s.cfg.echoTimer T = polarityOp s.cfg.echoCh .falling (readOp s.cfg.echoCh T) := by
  simp only [handlerOp, hs, if_true, readOp]

theorem handlerOp_of_falling {s : State} (hs : s.seq.state = .echoFalling) (T : Timer) :
    handlerOp s s.cfg.echoTimer T =
      disableOp s.cfg.echoCh (polarityOp s.cfg.echoCh .rising (readOp s.cfg.echoCh T)) := by
  simp only [handlerOp, hs, if_true, readOp, disableOp]

theorem handlerOp_of_other {s : State} (hs : s.seq.state = .triggerHigh ∨ s.seq.state = .measurement)
    (T : Timer) : handlerOp s s.cfg.echoTimer T = readOp s.cfg.echoCh T := by
  obtain hs | hs := hs <;> simp only [handlerOp, hs, if_true, readOp]

/-- `onCaptureEdge()` writes the echo timer and the session, and nothing else. -/
theorem onCaptureEdge_eq {s : State} {T : Timer} (ht : s.timer s.cfg.echoTimer = some T) :
    onCaptureEdge s =
      (s.setTimer s.cfg.echoTimer (handlerOp s s.cfg.echoTimer T)).modSeq
        (·.afterEdge (T.captureCount s.cfg.echoCh)) := by
  obtain ⟨hs, e⟩ | ⟨hs, e⟩ | ⟨hs, e⟩ := onCaptureEdge_cases s <;> rw [e, crdEffect_eq _ ht]
  · rw [handlerOp_of_rising hs, cpolEffect, State.onChan_setTimer_modSeq]
    simp only [State.modSeq, State.seq_setTimer, Seq.afterEdge_of_rising hs]
    rfl
  · rw [handlerOp_of_falling hs, cidisEffect, cpolEffect, State.onChan_setTimer_modSeq,
      State.onChan_setTimer_modSeq]
    simp only [State.modSeq, State.seq_setTimer, Seq.afterEdge_of_falling hs]
    rfl
  · rw [handlerOp_of_other hs]
    simp only [State.modSeq, State.seq_setTimer, Seq.afterEdge_of_other hs]
    rfl

/-! ### The pending latch in the handler body (R254) -/

/-- The timer with its pending latch at `b`. -/
def Timer.withPend (T : Timer) (b : Bool) : Timer := { T with irqPend := b }

/-- A write to a channel that does not meet the latch. -/
theorem chanOp_withPend (n : ChanId) {f : Timer → ChanIdx → Timer} (b : Bool)
    (hf : ∀ T i, f (T.withPend b) i = (f T i).withPend b) (T : Timer) :
    chanOp n f (T.withPend b) = (chanOp n f T).withPend b := by
  unfold chanOp
  split
  · rfl
  · rw [hf]
    exact (apply_ite (Timer.withPend · b) _ _ _).symm

theorem polarityOp_withPend (n : ChanId) (k : Polarity) (b : Bool) (T : Timer) :
    polarityOp n k (T.withPend b) = (polarityOp n k T).withPend b :=
  chanOp_withPend n b (fun T i => by
    simp only [Timer.setPolarity, apply_ite (Timer.withPend · b)]
    rfl) T

/-- The handler body neither reads nor writes the pending latch. -/
theorem handlerOp_withPend (s : State) (t : TimerId) (b : Bool) (T : Timer) :
    handlerOp s t (T.withPend b) = (handlerOp s t T).withPend b := by
  have chan (f : Channel → Channel) (T : Timer) := chanOp_withPend s.cfg.echoCh
    (f := fun T i => T.modChan i f) b (fun _ _ => rfl) T
  unfold handlerOp
  split
  · cases s.seq.state <;> simp only [chan, polarityOp_withPend]
  · rfl

/-- After an interrupt entry the latch says whether the line, as the handler body left it, is still asserted
and enabled. -/
theorem irqOp_eq (s : State) (t : TimerId) (T : Timer) :
    irqOp s t T = (handlerOp s t T).withPend ((handlerOp s t T).line && (handlerOp s t T).irqEn) := by
  have e : handlerOp s t { T with irqPend := false } = (handlerOp s t T).withPend false :=
    handlerOp_withPend s t false T
  simp only [irqOp, e]
  rfl

/-! ### The step (R254) -/

/-- The state with the CPU in a context. -/
def State.inMode (s : State) (m : Mode) : State := { s with ctx := { s.ctx with mode := m } }

/-- Entering: the timer's latch is cleared. -/
theorem State.enterIrq_of_recognised {s : State} {t : TimerId} {T : Timer} (ht : s.timer t = some T) :
    s.enterIrq t = (s.setTimer t (T.withPend false)).inMode .handler := by
  simp only [State.enterIrq, s.onTimer_some _ ht]
  rfl

/-- Returning: the timer's line pends again if still asserted. -/
theorem State.returnIrq_of_recognised {s : State} {t : TimerId} {T : Timer} (ht : s.timer t = some T) :
    s.returnIrq t = (s.setTimer t (T.withPend (T.line && T.irqEn))).inMode .main :=
  (s.inMode .main).onTimer_some _ ht

theorem handlerOf_echo (s : State) : handlerOf s.cfg.echoTimer s = onCaptureEdge s := if_pos rfl

/-- The interrupt entry of the echo timer writes its timer and the session, and ends in Main. -/
theorem irqStep_echo {s : State} {T : Timer} (ht : s.timer s.cfg.echoTimer = some T) :
    irqStep s.cfg.echoTimer s =
      ((s.setTimer s.cfg.echoTimer (irqOp s s.cfg.echoTimer T)).modSeq
        (·.afterEdge (T.captureCount s.cfg.echoCh))).inMode .main := by
  let entered := (s.setTimer s.cfg.echoTimer (T.withPend false)).inMode .handler
  let U := handlerOp s s.cfg.echoTimer (T.withPend false)
  have hbody : onCaptureEdge entered =
      (entered.setTimer s.cfg.echoTimer U).modSeq (·.afterEdge (T.captureCount s.cfg.echoCh)) :=
    onCaptureEdge_eq (s := entered) (s.timer_setTimer_same _ _)
  calc irqStep s.cfg.echoTimer s
      _ = (onCaptureEdge entered).returnIrq s.cfg.echoTimer := by
        rw [irqStep, State.takeIrq, State.enterIrq_of_recognised ht]
        exact congrArg (State.returnIrq · _) (handlerOf_echo entered)
      _ = (((entered.setTimer s.cfg.echoTimer U).modSeq
            (·.afterEdge (T.captureCount s.cfg.echoCh))).setTimer s.cfg.echoTimer
              (U.withPend (U.line && U.irqEn))).inMode .main := by
        rw [hbody]
        exact State.returnIrq_of_recognised (State.timer_setTimer_same _ _ U)
      _ = _ := by
        simp only [entered, State.setTimer, State.modSeq, State.inMode, Vector.set_set]
        rfl

/-- R252: an entry is enabled exactly while a recognised timer's latch is set. -/
theorem State.enabled_irq_iff {s : State} {t : TimerId} (hf : s.ctx.faults = []) :
    s.enabled (.irq t) = true ↔ ∃ T, s.timer t = some T ∧ T.irqPend = true := by
  simp [State.enabled, hf, Option.any_eq_true]

/-- The step of the echo timer's interrupt entry. -/
theorem step_of_echoIrq {s : State} {T : Timer} (hf : s.ctx.faults = []) (hp : s.pick = .irq s.cfg.echoTimer)
    (ht : s.timer s.cfg.echoTimer = some T) (hpend : T.irqPend = true) :
    step s = .next (((s.takePick.setTimer s.cfg.echoTimer (irqOp s s.cfg.echoTimer T)).modSeq
      (·.afterEdge (T.captureCount s.cfg.echoCh))).inMode .main) := by
  have hentry := irqStep_echo (s := s.takePick) (T := T) (by rw [State.timer_takePick, State.cfg_takePick, ht])
  have hop : irqOp s.takePick s.cfg.echoTimer T = irqOp s s.cfg.echoTimer T := by
    simp only [irqOp, handlerOp, State.cfg_takePick, State.seq_takePick]
  rw [State.cfg_takePick, hop] at hentry
  rw [step_of_irq s _ hp ((State.enabled_irq_iff hf).mpr ⟨T, ht, hpend⟩), hentry]

/-! ### What the handler body makes of the echo timer -/

section
variable {T : Timer} {n : ChanId} {i : ChanIdx}

theorem chanOp_clocked (f : Timer → ChanIdx → Timer) (hi : i.val + 1 = n.toNat) (hclk : T.clkEn = true) :
    chanOp n f T = f T i := by
  simp [chanOp, chanOf_eq_some.mpr hi, hclk]

theorem chanOp_invalid (f : Timer → ChanIdx → Timer) (h : n.toNat = 0 ∨ 4 < n.toNat) : chanOp n f T = T := by
  simp only [chanOp, chanOf_eq_none.mpr h]

theorem Timer.captureCount_of_clocked (hi : i.val + 1 = n.toNat) (hclk : T.clkEn = true) :
    T.captureCount n = (T.chan i).ccr := by
  simp [Timer.captureCount, chanOf_eq_some.mpr hi, hclk]

theorem Timer.captureCount_of_unclocked (h1 : 1 ≤ n.toNat) (h4 : n.toNat ≤ 4) (hclk : T.clkEn = false) :
    T.captureCount n = 0 := by
  have hn : chanOf n = some ⟨n.toNat - 1, by omega⟩ := chanOf_eq_some.mpr (by simp only; omega)
  simp [Timer.captureCount, hn, hclk]

theorem Timer.captureCount_of_invalid (h : n.toNat = 0 ∨ 4 < n.toNat) : T.captureCount n = 0xFFFFFFFF := by
  simp only [Timer.captureCount, chanOf_eq_none.mpr h]
  rfl

end

/-- The read clears the flag of a channel in input mode, and nothing else (R64). -/
theorem Timer.modChan_afterRead (T : Timer) (i : ChanIdx) :
    T.modChan i Channel.afterRead =
      if (T.chan i).ccs = 0b01 then T.modChan i fun C => { C with ccif := false } else T := by
  split <;> rename_i hin
  · exact T.afterRead_ccr_of_input hin
  · exact T.modChan_self i _ (Channel.afterRead_of_not_input hin)

/-- The read leaves the role, which decides whether a polarity write refreshes the outputs (R144). -/
theorem Timer.setPolarity_modChan_afterRead (T : Timer) (i : ChanIdx) (k : Polarity) :
    (T.modChan i Channel.afterRead).setPolarity i k =
      if (T.chan i).ccs = 0b00 then
        ((T.modChan i Channel.afterRead).modChan i (·.setPolarity k)).refreshOutputs
      else (T.modChan i Channel.afterRead).modChan i (·.setPolarity k) := by
  simp only [Timer.setPolarity, Channel.outputMode_iff, Timer.chan_modChan_same, Channel.ccs_afterRead]

/-! ### The statements -/

/-- Settles O43: the step by `step_of_echoIrq`; then the echo channel, its timer's clock and the session's
state. -/
theorem echoInterruptStoresCount : Obligations.EchoInterruptStoresCount := by
  intro s T E hf hp ht hpend ends runs
  have ends_of {T' : Timer} {q : Seq} (hT : handlerOp s E T = T')
      (hq : s.seq.afterEdge (T.captureCount s.cfg.echoCh) = q) : ends T' q := by
    change step s = _
    rw [step_of_echoIrq hf hp ht hpend, irqOp_eq, hT, ← hq, ← s.ctx_takePick, ← s.seq_takePick]
    rfl
  have runs_of {count : Word} {read rising falling : Timer} (hcount : T.captureCount s.cfg.echoCh = count)
      (hread : readOp s.cfg.echoCh T = read) (hrising : polarityOp s.cfg.echoCh .falling read = rising)
      (hfalling : disableOp s.cfg.echoCh (polarityOp s.cfg.echoCh .rising read) = falling) :
      runs count read rising falling := by
    subst hcount hread hrising hfalling
    exact ⟨fun hs => ends_of (handlerOp_of_rising hs T) (Seq.afterEdge_of_rising hs _),
      fun hs => ends_of (handlerOp_of_falling hs T) (Seq.afterEdge_of_falling hs _),
      fun hs => ends_of (handlerOp_of_other hs T) (Seq.afterEdge_of_other hs _)⟩
  have runs_idle {count : Word} (hcount : T.captureCount s.cfg.echoCh = count)
      (idle : ∀ f, chanOp s.cfg.echoCh f T = T) : runs count T T T :=
    runs_of hcount (idle _) (idle _) ((congrArg _ (idle _)).trans (idle _))
  refine ⟨?clocked, fun h1 h4 hclk => ?unclocked, fun hn => ?invalid⟩
  case unclocked => exact runs_idle (Timer.captureCount_of_unclocked h1 h4 hclk) (chanOp_unclocked hclk _)
  case invalid => exact runs_idle (Timer.captureCount_of_invalid hn) fun f => chanOp_invalid f hn
  case clocked =>
    intro i hi hclk shown read
    have hread : T.modChan i Channel.afterRead = read := T.modChan_afterRead i
    have hpol (k : Polarity) : polarityOp s.cfg.echoCh k read = shown (read.modChan i (·.setPolarity k)) := by
      rw [← hread, polarityOp, chanOp_clocked (T := T.modChan i Channel.afterRead) _ hi hclk,
        Timer.setPolarity_modChan_afterRead]
    have hshown (U : Timer) : (shown U).clkEn = U.clkEn := by
      simp only [shown]
      split <;> rfl
    refine runs_of (Timer.captureCount_of_clocked hi hclk) ((chanOp_clocked _ hi hclk).trans hread)
      (hpol .falling) ?_
    rw [hpol, disableOp, chanOp_clocked _ hi ((hshown _).trans (hread ▸ hclk))]
    rfl

/-- An interrupt entry in TriggerHigh or Measurement leaves the session (R213). -/
theorem seq_irqStep_of_other (t : TimerId) {s : State}
    (hs : s.seq.state = .triggerHigh ∨ s.seq.state = .measurement) : (irqStep t s).seq = s.seq := by
  rw [seq_irqStep]
  have hq : (s.enterIrq t).seq = s.seq := s.seq_enterIrq t
  obtain e | ⟨-, hrising, -⟩ | ⟨-, hfalling, -⟩ := seq_handlerOf t (s.enterIrq t)
  · rw [e, hq]
  · simp [hq ▸ hrising] at hs
  · simp [hq ▸ hfalling] at hs

/-- A pick of an interrupt entry, enabled or not, leaves the session in TriggerHigh and Measurement. -/
theorem seq_step_irq_of_other {s s' : State} {t : TimerId} (hp : s.pick = .irq t) (h : step s = .next s')
    (hs : s.seq.state = .triggerHigh ∨ s.seq.state = .measurement) : s'.seq = s.seq := by
  cases he : s.enabled (.irq t) with
  | true =>
    cases (step_of_irq s t hp he).symm.trans h
    rw [seq_irqStep_of_other t (by rwa [State.seq_takePick]), State.seq_takePick]
  | false =>
    obtain ⟨hf, -⟩ := step_cases h
    rw [step_of_noFault s hf, hp, he] at h
    cases h
    exact s.seq_takePick

/-- An enabled entry of the echo timer moves the session on by its count. -/
theorem seq_step_echoIrq {s s' : State} (hp : s.pick = .irq s.cfg.echoTimer) (h : step s = .next s')
    (he : s.enabled (.irq s.cfg.echoTimer) = true) : ∃ count, s'.seq = s.seq.afterEdge count := by
  obtain ⟨hf, -⟩ := step_cases h
  obtain ⟨T, ht, hpend⟩ := (State.enabled_irq_iff hf).mp he
  cases (step_of_echoIrq hf hp ht hpend).symm.trans h
  exact ⟨_, congrArg (Seq.afterEdge · _) s.seq_takePick⟩

/-- Settles O44: polls by their equation in each state, entries by `Seq.afterEdge`. -/
theorem wrongTriggerLeavesSession : Obligations.WrongTriggerLeavesSession := by
  refine fun s s' => ⟨fun hs hx => ?pollInEcho, fun t hp h => ⟨seq_step_irq_of_other hp h, fun he ht hs => ?rising,
    fun he ht hs => ?falling⟩, fun hm hs hx => ?pollInMeasurement, fun hm hs hph hx => ?pollInAdvance⟩
  case pollInEcho =>
    obtain e | ⟨hmeas, -⟩ | ⟨htrig, -⟩ := seq_execRpoll hx
    · exact e
    · simp [hmeas] at hs
    · simp [htrig] at hs
  case rising =>
    subst ht
    obtain ⟨count, e⟩ := seq_step_echoIrq hp h he
    rw [e, Seq.afterEdge_of_rising hs]
  case falling =>
    subst ht
    obtain ⟨count, e⟩ := seq_step_echoIrq hp h he
    rw [e, Seq.afterEdge_of_falling hs]
  case pollInMeasurement =>
    cases (exec_rpoll_of_measurement hm hs).symm.trans hx
    rw [State.seq_complete, seq_measurePhase]
  case pollInAdvance =>
    cases (exec_rpoll_of_triggerHigh hm hs).symm.trans hx
    simp [triggerPhase, hph]

end Sys2Proof.Machine
end

section
/-! PROOFS. What a recorded fault stops, what one step makes of a pending latch, and the interrupt entry (spec
60_exceptions.md R240, R241, R251 to R255, 00_scope.md R14). -/

namespace Sys2Proof.Machine

/-! ### Faults (R240, R241) -/

theorem State.enabled_of_fault {s : State} {p : FaultReason × Pc} {l : List (FaultReason × Pc)}
    (h : s.ctx.faults = p :: l) (a : Agent) : s.enabled a = false := by
  simp [State.enabled, h]

theorem State.noFault_of_enabled {s : State} {a : Agent} (h : s.enabled a = true) : s.ctx.faults = [] := by
  cases hf : s.ctx.faults with
  | nil => rfl
  | cons p l => exact absurd (State.enabled_of_fault hf a) (by simp [h])

/-- Settles O7. -/
theorem faultedStateHasNoStep : Obligations.FaultedStateHasNoStep :=
  fun s _ _ _ h => ⟨step_of_fault s h, State.enabled_of_fault h⟩

/-- Settles O8. -/
theorem everyCommandAnswersNext : Obligations.EveryCommandAnswersNext := exec_answers_next

/-! ### The pending latch after one step (R251, R254) -/

/-- The latches are taken over a timer whose latch the step's own effect left as it was. -/
theorem Timer.irqPend_latch_of_eq {T X : Timer} (h : X.irqPend = T.irqPend) :
    X.latch.irqPend = (T.irqPend || (X.latch.line && X.latch.irqEn)) := h ▸ rfl

/-- What one step makes of a timer's latch: the timer is left, by a pick that is not enabled or by another
timer's entry; or its own entry pends what is still asserted and enabled; or that is added to the latch. -/
theorem TimerFate.irqPend_cases {s : State} {t : TimerId} {T T' : Timer} (h : TimerFate s t T T') :
    (T' = T ∧ (s.enabled s.pick = false ∨ ∃ u, u ≠ t ∧ s.pick = .irq u)) ∨
      (s.pick = .irq t ∧ T'.irqPend = (T'.line && T'.irqEn)) ∨
      T'.irqPend = (T.irqPend || (T'.line && T'.irqEn)) := by
  cases h with
  | stutter he => exact .inl ⟨rfl, .inl he⟩
  | irqOther u hu hp => exact .inl ⟨rfl, .inr ⟨u, hu, hp⟩⟩
  | irq hp => exact .inr (.inl ⟨hp, rfl⟩)
  | latched => exact .inr (.inr rfl)
  | cmd i j =>
    exact .inr (.inr (Timer.irqPend_latch_of_eq ((irqPend_refreshOp i _).trans (cmdTimer_irqPend j _ T))))
  | clk => exact .inr (.inr (Timer.irqPend_latch_of_eq T.irqPend_clkCycle))
  | tin => exact .inr (.inr rfl)
  | cap => exact .inr (.inr rfl)
  | ghost => exact .inr (.inr rfl)

theorem Timer.linePends_iff (T : Timer) : T.linePends = true ↔ ((T.line && T.irqEn) = true → T.irqPend = true) := by
  cases h : T.line && T.irqEn <;> simp [Timer.linePends, h]

/-- Settles O51: a step leaves the timer, or its latch takes in the line as the step left it. -/
theorem stepKeepsLinePending : Obligations.StepKeepsLinePending := by
  intro s s' hs h t T' hT'
  obtain ⟨T, hT, hfate⟩ := timer_fate_of_next h hT'
  obtain ⟨rfl, -⟩ | ⟨-, hown⟩ | hlatched := hfate.irqPend_cases
  · exact hs t T' hT
  · exact T'.linePends_iff.mpr fun hline => hown.trans hline
  · exact T'.linePends_iff.mpr fun hline => by rw [hlatched, hline, Bool.or_true]

/-- Settles O47: the two other ways of a latch need a pick that is not enabled or an interrupt entry. -/
theorem pendingLatchAfterStep : Obligations.PendingLatchAfterStep := by
  intro s s' t T T' h he hirq hT hT'
  obtain ⟨T1, hT1, hfate⟩ := timer_fate s s' t T h hT
  cases hT1.symm.trans hT'
  obtain ⟨-, hidle | ⟨u, -, hu⟩⟩ | ⟨hown, -⟩ | hlatched := hfate.irqPend_cases
  · exact absurd he (by simp [hidle])
  · exact absurd hu (hirq u)
  · exact absurd hown (hirq t)
  · exact hlatched

/-! ### The interrupt entry (R252, R253, R254) -/

/-- R253: an entry of a timer without a handler records the fault at the interrupted pointer. -/
theorem faults_irqStep_of_unhandled {s : State} {t : TimerId} (h : t ≠ s.cfg.echoTimer) :
    (irqStep t s).ctx.faults = s.ctx.faults ++ [(.unhandledInterrupt, s.ctx.pc)] := by
  have hbody : handlerOf t (s.enterIrq t) = (s.enterIrq t).raise .unhandledInterrupt :=
    if_neg (by rwa [State.cfg_enterIrq])
  simp [irqStep, State.takeIrq, hbody]

/-- Settles O45. -/
theorem unhandledInterruptFaults : Obligations.UnhandledInterruptFaults := by
  intro s t hp he ht
  have hfaults : (irqStep t s.takePick).ctx.faults = [(.unhandledInterrupt, s.ctx.pc)] := by
    rw [faults_irqStep_of_unhandled (by rwa [State.cfg_takePick]), State.ctx_takePick,
      State.noFault_of_enabled he, List.nil_append]
  exact ⟨irqStep t s.takePick, step_of_irq s t hp he, hfaults, step_of_fault _ hfaults⟩

/-- After its entry a timer's latch says whether its line is still asserted and enabled (R254). -/
theorem irqPend_irqStep {s : State} {t : TimerId} {T' : Timer} (h : (irqStep t s).timer t = some T') :
    T'.irqPend = (T'.line && T'.irqEn) := by
  rw [irqStep_timers t s t, if_pos rfl, Option.map_eq_some_iff] at h
  obtain ⟨T, -, rfl⟩ := h
  rfl

theorem timer_irqStep_other (s : State) {t u : TimerId} (h : u ≠ t) :
    (irqStep t s).timer u = s.timer u := by
  rw [irqStep_timers t s u, if_neg h]

/-! ### A pending interrupt in a run (R14, R255) -/

/-- In a run, a pending latch stays set over every step but the timer's own interrupt entry. -/
theorem IsRun.irqPend_kept {sch : Nat → Agent} {run : Nat → State} (hrun : IsRun sch run) {n : Nat}
    {t : TimerId} (hother : sch n ≠ .irq t) (hpend : ∃ T, (run n).timer t = some T ∧ T.irqPend = true) :
    ∃ T, (run (n + 1)).timer t = some T ∧ T.irqPend = true := by
  obtain ⟨T, hT, hp⟩ := hpend
  obtain ⟨T', hT', hfate⟩ := hrun.timer_fate n hT
  obtain ⟨rfl, -⟩ | ⟨hown, -⟩ | hlatched := hfate.irqPend_cases
  · exact ⟨T', hT', hp⟩
  · exact absurd hown hother
  · exact ⟨T', hT', by rw [hlatched, hp, Bool.true_or]⟩

/-- Settles O46: the entry by its frame; and an interrupt never taken would pend, and its entry be enabled,
for ever, so fairness takes it. -/
theorem irqReturnsToInterruptedPoint : Obligations.IrqReturnsToInterruptedPoint := by
  refine ⟨fun s t => State.enabled_irq_iff, fun s s' t hp he h => ?returns, fun sch run hrun hfair n t T hT hpend =>
    ?taken⟩
  case returns =>
    cases (step_of_irq s t hp he).symm.trans h
    obtain ⟨-, -, -, -, hmode, hrefused, hpc, hresults, htrace, -, st, r, f, hseq⟩ := irqStep_frame t s.takePick
    rw [State.ctx_takePick] at hrefused hpc hresults htrace
    exact ⟨hpc, by rw [hseq, State.seq_takePick], hresults, htrace, hmode, hrefused,
      fun _ => irqPend_irqStep, fun u hu => by rw [timer_irqStep_other _ hu, State.timer_takePick]⟩
  case taken =>
    by_contra hnever
    have enabled_of_pending (m : Nat) (h : ∃ T, (run m).timer t = some T ∧ T.irqPend = true) :
        (run m).enabled (.irq t) = true := (State.enabled_irq_iff (hrun.noFault m)).mpr h
    have pending (m : Nat) (hm : n ≤ m) : ∃ T, (run m).timer t = some T ∧ T.irqPend = true := by
      induction m, hm using Nat.le_induction with
      | base => exact ⟨T, hT, hpend⟩
      | succ m hm ih =>
        exact hrun.irqPend_kept (fun hsch => hnever ⟨m, hm, hsch, enabled_of_pending m ih⟩) ih
    obtain ⟨m, hm, hsch, -⟩ := hfair.irq t n fun m hm => ⟨.irq t, rfl, enabled_of_pending m (pending m hm)⟩
    exact hnever ⟨m, hm, hsch, enabled_of_pending m (pending m hm)⟩

end Sys2Proof.Machine
end

section
/-! PROOFS. The update flag over every step (spec 70_reset_and_hazards.md R305). -/

namespace Sys2Proof.Machine

/-- The update flag, where it is set in `T`, is set in `T'`. -/
def Timer.flagKept (T T' : Timer) : Prop := T.uif = true → T'.uif = true

/-- Of the primitive writes one reaches the update flag, the update event, which sets it (R112). -/
theorem Prims.flagKept : Prims Timer.flagKept where
  refl _ := id
  trans h k := k ∘ h
  pend _ _ := id
  en _ := id
  cen _ _ := id
  arpe _ := id
  chans _ _ := id
  conf _ _ _ _ := id
  upd _ _ _ := rfl

theorem Timer.flagKept_count (T : Timer) : T.flagKept T.count := by
  obtain h | h := T.wraps_or_moves
  · obtain ⟨c, src, e⟩ := Timer.count_of_wraps h
    rw [e]
    exact fun _ => rfl
  · obtain ⟨c, e⟩ := Timer.count_of_moves h
    rw [e]
    exact id

theorem Timer.flagKept_clkCycle (T : Timer) : T.flagKept T.clkCycle :=
  Timer.clkCycle_rel (P := Timer.flagKept) (fun h k => k ∘ h) (fun _ _ => id) (fun _ _ => id)
    Timer.flagKept_count T

/-- Settles O56: by the timer's fate, every way a step has to reach it but `TDLY` keeps a set flag. -/
theorem onlyTdlyClearsUpdateFlag : Obligations.OnlyTdlyClearsUpdateFlag := by
  intro s s' t T T' h hT hT' hset hclear
  obtain ⟨T1, hT1, hfate⟩ := timer_fate s s' t T h hT
  cases hT1.symm.trans hT'
  by_contra hno
  have kept : T.flagKept T' :=
    Prims.flagKept.fate hfate (fun _ _ => T.flagKept_clkCycle)
      fun c hp hc hd => absurd ⟨hp, c, hc, hd⟩ hno
  exact absurd (kept hset) (by simp [hclear])

end Sys2Proof.Machine
end

section
/-! PROOFS. Which steps move a counter (spec 70_reset_and_hazards.md R316, 40_timer_engine.md R100, R104,
42_ranging_sequencer.md R206). -/

namespace Sys2Proof.Machine

/-! ### What leaves the counter -/

theorem chanOp_cnt (n : ChanId) {f : Timer → ChanIdx → Timer} (T : Timer)
    (hf : ∀ i, (f T i).cnt = T.cnt := by exact fun _ => rfl) : (chanOp n f T).cnt = T.cnt := by
  obtain e | ⟨i, -, -, e⟩ := chanOp_cases n f T <;> rw [e]
  exact hf i

theorem refreshOp_cnt (i : Instr) (T : Timer) : (refreshOp i T).cnt = T.cnt := by
  obtain e | e := refreshOp_cases i T <;> rw [e]
  exact T.cnt_refreshOutputs

theorem compareOp_cnt (n : ChanId) (m : OutputMode) (T : Timer) : (compareOp n m T).cnt = T.cnt := by
  unfold compareOp
  split
  · rfl
  · exact chanOp_cnt n T

theorem Timer.cnt_setPolarity (T : Timer) (i : ChanIdx) (k : Polarity) : (T.setPolarity i k).cnt = T.cnt := by
  unfold Timer.setPolarity
  dsimp only
  split <;> rfl

theorem polarityOp_cnt (n : ChanId) (k : Polarity) (T : Timer) : (polarityOp n k T).cnt = T.cnt :=
  chanOp_cnt n T fun i => T.cnt_setPolarity i k

theorem Timer.cnt_setDuty (T : Timer) (i : ChanIdx) (d : Word) : (T.setDuty i d).cnt = T.cnt := by
  unfold Timer.setDuty
  split
  · split <;> rfl
  · rfl

theorem enableOp_cnt (n : ChanId) (T : Timer) : (enableOp n T).cnt = T.cnt := by
  unfold enableOp
  split
  · rfl
  · cases hclk : T.clkEn with
    | false => rw [Timer.enableIrq_of_unclocked _ hclk]
    | true => rw [Timer.enableIrq_of_clocked _ hclk]; rfl

theorem Timer.cnt_afterRead (T : Timer) (r : Reg) : (T.afterRead r).cnt = T.cnt := by
  cases r <;> rfl

/-- The handler body moves no counter (R212). -/
theorem handlerOp_cnt (s : State) (t : TimerId) (T : Timer) : (handlerOp s t T).cnt = T.cnt := by
  have read : (chanOp s.cfg.echoCh (fun T i => T.modChan i Channel.afterRead) T).cnt = T.cnt := chanOp_cnt _ T
  unfold handlerOp
  split
  · dsimp only
    split
    · exact (polarityOp_cnt _ _ _).trans read
    · exact (chanOp_cnt _ _).trans ((polarityOp_cnt _ _ _).trans read)
    · exact read
    · exact read
  · rfl

/-- An interrupt entry moves no counter (R254). -/
theorem irqOp_cnt (s : State) (t : TimerId) (T : Timer) : (irqOp s t T).cnt = T.cnt :=
  handlerOp_cnt s t { T with irqPend := false }

/-- A clock cycle of a stopped timer moves no counter (R110). -/
theorem Timer.cnt_clkCycle_stopped {T : Timer} (h : T.cen = false) : T.clkCycle.cnt = T.cnt := by
  rw [T.clkCycle_stopped h, Timer.cnt_mapChans]

/-! ### What moves it -/

/-- A command leaves the counter, or it is a `TCFG` or a `TUG` and leaves it 0 (R100, R104). -/
theorem cmdTimer_cnt (j : Instr) (s : State) (T : Timer) :
    (cmdTimer j s T).cnt = T.cnt ∨
      ((cmdTimer j s T).cnt = 0 ∧ ((∃ t d p q, j = .tcfg t d p q) ∨ ∃ t, j = .tug t)) := by
  cases j with
  | tcfg t d p q =>
    simp only [cmdTimer]
    split
    · exact .inl rfl
    · exact .inr ⟨rfl, .inl ⟨t, d, p, q, rfl⟩⟩
  | tug t =>
    simp only [cmdTimer]
    split
    · exact .inr ⟨rfl, .inr ⟨t, rfl⟩⟩
    · exact .inl rfl
  | ten | tdis | tdly => left; simp only [cmdTimer]; split <;> rfl
  | ccap t n | crd t n | cidis t n | cclr t n => exact .inl (chanOp_cnt n T)
  | ccmp t n m => exact .inl (compareOp_cnt n m T)
  | cpol t n k => exact .inl (polarityOp_cnt n k T)
  | cpwm t n m => exact .inl ((chanOp_cnt n _).trans (compareOp_cnt n _ T))
  | cduty t n d => exact .inl (chanOp_cnt n T fun i => T.cnt_setDuty i d)
  | cien t n => exact .inl (enableOp_cnt n T)
  | rreg t off =>
    left
    simp only [cmdTimer]
    split
    · rfl
    · split
      · exact T.cnt_afterRead _
      · rfl
  | trdc | cwait | rpoll => exact .inl rfl

/-- A step leaves the counter of a timer, or it is the timer's clock cycle while it runs, or the main context ran
`TCFG`, `TUG` or, with the effect of a `TUG`, the phase Resync of `RPOLL`. -/
theorem TimerFate.cnt_cases {s : State} {t : TimerId} {T T' : Timer} (h : TimerFate s t T T') :
    T'.cnt = T.cnt ∨ (s.pick = .clk t ∧ T.clkEn = true ∧ T.cen = true) ∨
      (s.pick = .main ∧ T'.cnt = 0 ∧ ∃ c i j, s.fetch = some c ∧ decode c = .ok i ∧
        (j = i ∨ (i = .rpoll ∧ j ∈ pollCommands s)) ∧
        ((∃ d p q, j = .tcfg t d p q) ∨ j = .tug t)) := by
  cases h with
  | stutter => exact .inl rfl
  | latched => exact .inl rfl
  | cmd i j c hp hc hd hj ht =>
    have after : (refreshOp i (cmdTimer j s.takePick T)).latch.cnt = (cmdTimer j s.takePick T).cnt :=
      refreshOp_cnt i _
    rw [after]
    refine (cmdTimer_cnt j s.takePick T).imp id fun ⟨hzero, hmover⟩ =>
      .inr ⟨hp, hzero, c, i, j, hc, hd, hj, ?_⟩
    obtain ⟨u, d, p, q, rfl⟩ | ⟨u, rfl⟩ := hmover <;> cases ht
    · exact .inl ⟨d, p, q, rfl⟩
    · exact .inr rfl
  | irqOther => exact .inl rfl
  | irq => exact .inl (irqOp_cnt _ t T)
  | clk hp hclk =>
    cases hcen : T.cen with
    | false => exact .inl (Timer.cnt_clkCycle_stopped hcen)
    | true => exact .inr (.inl ⟨hp, hclk, rfl⟩)
  | tin => exact .inl rfl
  | cap => exact .inl rfl
  | ghost => exact .inl rfl

/-- Settles O57: by the timer's fate; of the poll's phases, Resync alone has the effect of a command that moves a
counter. -/
theorem onlyTheseMoveCounter : Obligations.OnlyTheseMoveCounter := by
  intro s s' t T T' h hT hT' moved
  obtain ⟨T1, hT1, hfate⟩ := timer_fate s s' t T h hT
  cases hT1.symm.trans hT'
  obtain hclk | ⟨hp, hzero, c, i, j, hc, hd, hj, hmover⟩ := hfate.cnt_cases.resolve_left moved
  · exact .inl hclk
  refine .inr ⟨hp, hzero, c, hc, ?_⟩
  obtain rfl | ⟨rfl, hpoll⟩ := hj
  · obtain ⟨d, p, q, rfl⟩ | rfl := hmover
    · exact .inl ⟨d, p, q, hd⟩
    · exact .inr (.inl hd)
  · obtain ⟨d, p, q, rfl⟩ | rfl := hmover
    · exact absurd hpoll (tcfg_not_mem_pollCommands s t d p q)
    · exact .inr (.inr ⟨hd, tug_mem_pollCommands hpoll⟩)

end Sys2Proof.Machine
end

section
/-! PROOFS. What reset leaves (spec 70_reset_and_hazards.md R281 to R283). -/

namespace Sys2Proof.Machine

/-! ### A timer after reset -/

theorem Timer.chan_reset (q : TimerParams) (pins : Vector Bool 4) (i : ChanIdx) :
    (Timer.reset q pins).chan i = Channel.reset pins[i] := by
  simp [Timer.chan, Timer.reset]

/-- `ARR_RESET(t)` is 0 or the greatest value of the timer's width (R8). -/
theorem arrReset_eq (q : TimerParams) :
    arrReset q = if q.arrMax then BitVec.ofNat 32 (2 ^ q.width.bits - 1) else 0 := by
  obtain ⟨w, b⟩ := q
  cases w <;> rfl

theorem fits_arrReset (q : TimerParams) : fits q.width (arrReset q) = true := by
  obtain ⟨w, b⟩ := q
  cases w <;> cases b <;> rfl

theorem Channel.wf_reset (w : Width) (b : Bool) : (Channel.reset b).wf w = true := by
  cases w <;> rfl

theorem Timer.wf_reset (q : TimerParams) (pins : Vector Bool 4) : (Timer.reset q pins).wf = true :=
  (Timer.wf_iff _).mpr ⟨fits_arrReset q, fits_arrReset q, fits_zero _, BitVec.le_refl _, fun i => by
    rw [Timer.chan_reset]
    exact Channel.wf_reset _ _⟩

/-- No output is driven before a command turns the clock on (R283). -/
theorem Timer.out_reset (q : TimerParams) (pins : Vector Bool 4) (i : ChanIdx) :
    (Timer.reset q pins).out i = .undriven :=
  Timer.out_of_undriven (.inr (.inr rfl))

theorem bit_false : bit false = 0#1 := rfl

theorem Channel.ccmrByte_reset (b : Bool) : (Channel.reset b).ccmrByte = 0 := by
  simp [Channel.ccmrByte, Channel.reset, bit_false]

theorem Channel.ccerNibble_reset (b : Bool) : (Channel.reset b).ccerNibble = 0 := by
  simp [Channel.ccerNibble, Channel.reset, bit_false]

/-- Every register word but ARR is 0 after reset (R281). -/
theorem Timer.word_reset (q : TimerParams) (pins : Vector Bool 4) {r : Reg} (hr : r ≠ .arr) :
    (Timer.reset q pins).word r = 0 := by
  cases r with
  | arr => exact absurd rfl hr
  | egr | cnt | psc => rfl
  | cr1 => simp [Timer.word, Timer.cr1Word, Timer.reset, dirBit, bit_false]
  | dier => simp [Timer.word, Timer.dierWord, Timer.chan_reset, Channel.reset, bit_false]
  | sr =>
    have huif : (Timer.reset q pins).uif = false := rfl
    simp [Timer.word, Timer.srWord, Timer.chan_reset, Channel.reset, huif, bit_false]
  | ccmr1 => simp [Timer.word, Timer.ccmr1Word, Timer.chan_reset, Channel.ccmrByte_reset]
  | ccmr2 => simp [Timer.word, Timer.ccmr2Word, Timer.chan_reset, Channel.ccmrByte_reset]
  | ccer => simp [Timer.word, Timer.ccerWord, Timer.chan_reset, Channel.ccerNibble_reset]
  | ccr i => rw [Timer.word, Timer.chan_reset]; rfl

/-! ### The state after reset -/

section
variable {ts : TimerSet} {p : Params} {boot loop : List Cmd} {tin : Vector (Vector Bool 4) 16}
  {sched : List Agent}

/-- The recognised timers are those of the set, each reset with its own parameters and pin levels (R22, R281). -/
theorem timer_resetFor (t : TimerId) :
    (State.resetFor ts p boot loop tin sched).timer t =
      (ts[t.toNat]'t.isLt).map fun q => Timer.reset q (tin[t.toNat]'t.isLt) := by
  simp [State.timer, State.resetFor]

theorem eq_reset_of_timer_resetFor {t : TimerId} {T : Timer}
    (h : (State.resetFor ts p boot loop tin sched).timer t = some T) :
    ∃ q, ts[t.toNat]'t.isLt = some q ∧ T = Timer.reset q (tin[t.toNat]'t.isLt) := by
  rw [timer_resetFor, Option.map_eq_some_iff] at h
  obtain ⟨q, hq, e⟩ := h
  exact ⟨q, hq, e.symm⟩

theorem timer_resetFor_any (t : TimerId) {f : Timer → Bool} (hf : ∀ q pins, f (Timer.reset q pins) = false) :
    ((State.resetFor ts p boot loop tin sched).timer t).any f = false := by
  rw [timer_resetFor, Option.any_map, Option.any_eq_false]
  exact fun q _ => by simp [hf]

/-- No timer is clocked right after reset (R283). -/
theorem enabled_clk_resetFor (t : TimerId) :
    (State.resetFor ts p boot loop tin sched).enabled (.clk t) = false := by
  rw [State.enabled, timer_resetFor_any t fun _ _ => rfl, Bool.and_false]

/-- No interrupt pends right after reset (R282). -/
theorem enabled_irq_resetFor (t : TimerId) :
    (State.resetFor ts p boot loop tin sched).enabled (.irq t) = false := by
  rw [State.enabled, timer_resetFor_any t fun _ _ => rfl, Bool.and_false]

end

/-- Settles O49: the timers part by part; the mode and the phase are those of reset. -/
theorem resetMeetsInvariants : Obligations.ResetMeetsInvariants := by
  intro ts p boot loop tin sched s
  refine ⟨s.wf_iff.mpr ⟨fun t T hT => ?wf, rfl, rfl⟩, fun t T hT => ?timer⟩ <;>
    obtain ⟨q, -, rfl⟩ := eq_reset_of_timer_resetFor hT
  case wf => exact Timer.wf_reset q _
  case timer => exact ⟨(Timer.linePends_iff _).mpr (by simp [Timer.reset]), Timer.belowPeriod_of_zero rfl⟩

/-- Settles O50: part by part, each timer by its parameters in the set. -/
theorem resetValues : Obligations.ResetValues := by
  intro ts p boot loop tin sched t s
  refine ⟨enabled_clk_resetFor t, enabled_irq_resetFor t, ?recognised, ?fields, ?words, rfl, ?contexts⟩
  case recognised => rw [timer_resetFor, Option.isSome_map]
  case fields =>
    intro T q hT hq
    obtain ⟨q', hq', rfl⟩ := eq_reset_of_timer_resetFor hT
    cases hq'.symm.trans hq
    rw [← arrReset_eq]
    exact ⟨rfl, fun i => ⟨Timer.out_reset q _ i, Timer.chan_reset q _ i⟩⟩
  case words =>
    intro T hT
    obtain ⟨q, -, rfl⟩ := eq_reset_of_timer_resetFor hT
    exact ⟨rfl, fun r hr => Timer.word_reset q _ hr⟩
  case contexts => cases boot <;> rfl

end Sys2Proof.Machine
end
